-- ==== Sys2Proof/Word.lean ====
section
/-! DEFINITION. The words of the block: bytes, 32-bit words, the 64-bit DATA of a response, the 104-bit command word,
and the rounding-up division of 00_scope.md R12. -/

namespace Sys2Proof

/-- One octet of a backing buffer, of a byte source or of an output. -/
abbrev Byte := BitVec 8

/-- A 32-bit word: an accumulator or the value of a primitive field. -/
abbrev Word := BitVec 32

/-- The DATA part of a response (30_encoding.md R71). -/
abbrev Data := BitVec 64

/-- A command word, `OP[103:96] N[95:64] V[63:0]` (30_encoding.md R60). -/
abbrev CommandWord := BitVec 104

/-- `ceil_div(a, b) = floor((a + b - 1) / b)` (00_scope.md R12). -/
def ceilDiv (a b : Nat) : Nat := (a + b - 1) / b

end Sys2Proof
end

