-- ==== Sys2Proof/Syntax.lean ====
section
/-! DEFINITION. The commands of the two units: one constructor per row of spec/opcode_table.json, with the operands of
30_encoding.md R61 and R62 (an unsigned operand as the bits the command uses, a signed operand as an integer, a count,
position or bit count as a natural number). -/

namespace Sys2Proof

/-- One command of the BROOK-ACC command set (30_encoding.md R64, R65). -/
inductive Instr where
  /-- W_BITS value, count (40_writer.md R84). -/
  | wBits (value : Word) (count : Nat)
  /-- W_SBITS v, count (R85). -/
  | wSbits (v : Int) (count : Nat)
  /-- W_U8 v (R86). -/
  | wU8 (v : BitVec 8)
  /-- W_U16 v (R87). -/
  | wU16 (v : BitVec 16)
  /-- W_U32 v (R88). -/
  | wU32 (v : BitVec 32)
  /-- W_I16 v (R89). -/
  | wI16 (v : Int)
  /-- W_I32 v (R90). -/
  | wI32 (v : Int)
  /-- W_U64 v (R91). -/
  | wU64 (v : BitVec 64)
  /-- W_TELL (R92). -/
  | wTell
  /-- W_REWIND position (R93). -/
  | wRewind (position : Nat)
  /-- W_CLOSE (R96). -/
  | wClose
  /-- W_OCTETS (R99). -/
  | wOctets
  /-- W_COPY bitCount (R97). -/
  | wCopy (bitCount : Nat)
  /-- R_BITS count (41_reader.md R111). -/
  | rBits (count : Nat)
  /-- R_SBITS count (R112). -/
  | rSbits (count : Nat)
  /-- R_U8 (R113). -/
  | rU8
  /-- R_U16 (R114). -/
  | rU16
  /-- R_U32 (R115). -/
  | rU32
  /-- R_I16 (R116). -/
  | rI16
  /-- R_I32 (R117). -/
  | rI32
  /-- R_U64 (R118). -/
  | rU64
  /-- R_TELL (R119). -/
  | rTell
  deriving DecidableEq, Repr

/-- The command select OP of a command (30_encoding.md R64, R65). -/
def Instr.op : Instr → BitVec 8
  | .wBits _ _ => 0x01#8
  | .wSbits _ _ => 0x02#8
  | .wU8 _ => 0x03#8
  | .wU16 _ => 0x04#8
  | .wU32 _ => 0x05#8
  | .wI16 _ => 0x06#8
  | .wI32 _ => 0x07#8
  | .wU64 _ => 0x08#8
  | .wTell => 0x09#8
  | .wRewind _ => 0x0A#8
  | .wClose => 0x0B#8
  | .wOctets => 0x0C#8
  | .wCopy _ => 0x0D#8
  | .rBits _ => 0x21#8
  | .rSbits _ => 0x22#8
  | .rU8 => 0x23#8
  | .rU16 => 0x24#8
  | .rU32 => 0x25#8
  | .rI16 => 0x26#8
  | .rI32 => 0x27#8
  | .rU64 => 0x28#8
  | .rTell => 0x29#8

/-- A command of the writer unit (30_encoding.md R64), as against one of the reader unit (R65). -/
def Instr.isWriterCommand : Instr → Bool
  | .wBits _ _ => true
  | .wSbits _ _ => true
  | .wU8 _ => true
  | .wU16 _ => true
  | .wU32 _ => true
  | .wI16 _ => true
  | .wI32 _ => true
  | .wU64 _ => true
  | .wTell => true
  | .wRewind _ => true
  | .wClose => true
  | .wOctets => true
  | .wCopy _ => true
  | .rBits _ => false
  | .rSbits _ => false
  | .rU8 => false
  | .rU16 => false
  | .rU32 => false
  | .rI16 => false
  | .rI32 => false
  | .rU64 => false
  | .rTell => false

end Sys2Proof
end

