-- ==== Sys2Proof/WellFormed.lean ====
section
/-! DEFINITION. Which commands a command word can carry: the ranges of the N and V operands (30_encoding.md R61, R62).
A count outside 1..32 is well formed: it is encodable, reaches the unit and is rejected there (R61). -/

namespace Sys2Proof

/-- An N operand is an unsigned 32-bit number (30_encoding.md R61). -/
def nOperandOk (n : Nat) : Bool := decide (n < 2 ^ 32)

/-- `s32(V[31:0])` lies in `[-2^31, 2^31 - 1]` (00_scope.md R12). -/
def s32Ok (v : Int) : Bool := decide (-2147483648 ≤ v ∧ v ≤ 2147483647)

/-- `s16(V[15:0])` lies in `[-2^15, 2^15 - 1]` (00_scope.md R12). -/
def s16Ok (v : Int) : Bool := decide (-32768 ≤ v ∧ v ≤ 32767)

/-- Every operand lies in the range its field of the command word can carry. -/
def Instr.wellFormed : Instr → Bool
  | .wBits _ n => nOperandOk n
  | .wSbits v n => s32Ok v && nOperandOk n
  | .wU8 _ => true
  | .wU16 _ => true
  | .wU32 _ => true
  | .wI16 v => s16Ok v
  | .wI32 v => s32Ok v
  | .wU64 _ => true
  | .wTell => true
  | .wRewind p => nOperandOk p
  | .wClose => true
  | .wOctets => true
  | .wCopy n => nOperandOk n
  | .rBits n => nOperandOk n
  | .rSbits n => nOperandOk n
  | .rU8 => true
  | .rU16 => true
  | .rU32 => true
  | .rI16 => true
  | .rI32 => true
  | .rU64 => true
  | .rTell => true

end Sys2Proof
end

