-- ==== Sys2Proof/Decode.lean ====
section
/-! DEFINITION. The command word (30_encoding.md R60 to R68): its fields, the decoder (total; a word whose OP names no
command is rejected by its OP), the encoder, and the decoder read on the opcode table's numbering. -/

namespace Sys2Proof

/-- OP, bits [103:96] of the command word (30_encoding.md R60). -/
def wordOp (w : CommandWord) : BitVec 8 := w.extractLsb' 96 8

/-- N, bits [95:64] of the command word, read as an unsigned number (30_encoding.md R60, R61). -/
def wordN (w : CommandWord) : Nat := (w.extractLsb' 64 32).toNat

/-- V, bits [63:0] of the command word (30_encoding.md R60). -/
def wordV (w : CommandWord) : BitVec 64 := w.extractLsb' 0 64

/-- The command word with the given fields: its value is `OP·2^96 + N·2^64 + V` (30_encoding.md R68). -/
def commandWord (op : BitVec 8) (n : BitVec 32) (v : BitVec 64) : CommandWord := op ++ n ++ v

/-- What the decoder answers: a command, or the OP it rejects (30_encoding.md R66). -/
inductive Decoded where
  | command (i : Instr)
  | illegal (op : BitVec 8)
  deriving DecidableEq, Repr

/-- The command a word carries (30_encoding.md R62, R64, R65); bits of N and V the command does not use are ignored (R63);
every OP outside 0x01..0x0D and 0x21..0x29 is rejected (R66). -/
def decode (w : CommandWord) : Decoded :=
  match (wordOp w).toNat with
  | 0x01 => .command (.wBits ((wordV w).setWidth 32) (wordN w))
  | 0x02 => .command (.wSbits ((wordV w).setWidth 32).toInt (wordN w))
  | 0x03 => .command (.wU8 ((wordV w).setWidth 8))
  | 0x04 => .command (.wU16 ((wordV w).setWidth 16))
  | 0x05 => .command (.wU32 ((wordV w).setWidth 32))
  | 0x06 => .command (.wI16 ((wordV w).setWidth 16).toInt)
  | 0x07 => .command (.wI32 ((wordV w).setWidth 32).toInt)
  | 0x08 => .command (.wU64 (wordV w))
  | 0x09 => .command .wTell
  | 0x0A => .command (.wRewind (wordN w))
  | 0x0B => .command .wClose
  | 0x0C => .command .wOctets
  | 0x0D => .command (.wCopy (wordN w))
  | 0x21 => .command (.rBits (wordN w))
  | 0x22 => .command (.rSbits (wordN w))
  | 0x23 => .command .rU8
  | 0x24 => .command .rU16
  | 0x25 => .command .rU32
  | 0x26 => .command .rI16
  | 0x27 => .command .rI32
  | 0x28 => .command .rU64
  | 0x29 => .command .rTell
  | _ => .illegal (wordOp w)

/-- The N field of a command: its count, position or bit count, and 0 where the command uses none (30_encoding.md R61). -/
def Instr.nField : Instr → BitVec 32
  | .wBits _ n => BitVec.ofNat 32 n
  | .wSbits _ n => BitVec.ofNat 32 n
  | .wU8 _ => 0#32
  | .wU16 _ => 0#32
  | .wU32 _ => 0#32
  | .wI16 _ => 0#32
  | .wI32 _ => 0#32
  | .wU64 _ => 0#32
  | .wTell => 0#32
  | .wRewind p => BitVec.ofNat 32 p
  | .wClose => 0#32
  | .wOctets => 0#32
  | .wCopy n => BitVec.ofNat 32 n
  | .rBits n => BitVec.ofNat 32 n
  | .rSbits n => BitVec.ofNat 32 n
  | .rU8 => 0#32
  | .rU16 => 0#32
  | .rU32 => 0#32
  | .rI16 => 0#32
  | .rI32 => 0#32
  | .rU64 => 0#32
  | .rTell => 0#32

/-- The V field of a command: an unsigned operand zero-extended, a signed operand as `trunc_64` of its two's-complement
form (30_encoding.md R62, R69), and 0 where the command uses none. -/
def Instr.vField : Instr → BitVec 64
  | .wBits v _ => v.setWidth 64
  | .wSbits v _ => BitVec.ofInt 64 v
  | .wU8 v => v.setWidth 64
  | .wU16 v => v.setWidth 64
  | .wU32 v => v.setWidth 64
  | .wI16 v => BitVec.ofInt 64 v
  | .wI32 v => BitVec.ofInt 64 v
  | .wU64 v => v
  | .wTell => 0#64
  | .wRewind _ => 0#64
  | .wClose => 0#64
  | .wOctets => 0#64
  | .wCopy _ => 0#64
  | .rBits _ => 0#64
  | .rSbits _ => 0#64
  | .rU8 => 0#64
  | .rU16 => 0#64
  | .rU32 => 0#64
  | .rI16 => 0#64
  | .rI32 => 0#64
  | .rU64 => 0#64
  | .rTell => 0#64

/-- The command word of a command (30_encoding.md R60 to R62, R64, R65). -/
def encode (i : Instr) : CommandWord := commandWord i.op i.nField i.vField

/-- The command word whose bits are `w`, bit 0 the least significant bit of V as spec/opcode_table.json numbers them; the
bits from `nbits` up are 0 (log 13). -/
def tableWord (nbits w : Nat) : CommandWord := BitVec.ofNat 104 (w % 2 ^ nbits)

/-- The decoder on a word of the opcode table. A command word has 104 bits and no other length (30_encoding.md R60), so a
longer word is none. -/
def decodeTableWord (nbits w : Nat) : Option Instr :=
  if nbits ≤ 104 then
    match decode (tableWord nbits w) with
    | .command i => some i
    | .illegal _ => none
  else none

end Sys2Proof
end

