-- ==== Sys2Proof/Config.lean ====
section
/-! DEFINITION. The bounds the spec sets on construction arguments, what an unwritten buffer byte reads as, and the
construction arguments `State.withFetchWord` uses for the unit a command needs when no such unit exists yet. -/

namespace Sys2Proof

/-- The largest legal CAP, `2^28` bytes (00_scope.md R8). -/
def Config.maxCap : Nat := 2 ^ 28

/-- The largest legal L, `2^32 - 1` bits (00_scope.md R9). -/
def Config.maxBudget : Nat := 2 ^ 32 - 1

/-- DESIGN CHOICE, unsafe (log 3): a buffer byte that neither the construction's fill nor a flush has set reads zero. The
spec allows any byte and shows that no response depends on it (70_reset_and_hazards.md R166). -/
def Config.unwrittenByte : Byte := 0#8

/-- DESIGN CHOICE, safe (log 12): CAP of the writer that `State.withFetchWord` constructs. -/
def Config.fetchCap : Nat := 8

/-- DESIGN CHOICE, safe (log 12): L of the reader that `State.withFetchWord` constructs. -/
def Config.fetchLen : Nat := 64

/-- DESIGN CHOICE, safe (log 12): SRC of the reader that `State.withFetchWord` constructs. -/
def Config.fetchSrc : List Byte := [0xCA#8, 0xFE#8, 0xDB#8, 0xEE#8, 0xF0#8, 0x12#8, 0x34#8, 0x56#8]

end Sys2Proof
end

