-- ==== Sys2Proof/Machine/State.lean ====
section
/-! DEFINITION. The state of a system of writer and reader units (10_state.md), the responses they return
(30_encoding.md R71, R72), the actions of the host (70_reset_and_hazards.md R178), and the reasons a step can stop. -/

namespace Sys2Proof.Machine

/-- The command port of a unit, by the name of its instance: `w<id>` or `r<id>` (30_encoding.md R59, R69). -/
inductive Port where
  | writer (id : Nat)
  | reader (id : Nat)
  deriving DecidableEq, Repr

/-- The STATUS part of a response (30_encoding.md R72). -/
inductive Status where
  | ok
  | widthError
  | eofError
  | rewindOutOfRange
  | debugTagMismatch
  | illegalCommand
  | faultAccumulatorInvariant
  | faultCapacityOverflow
  | faultUseAfterClose
  | faulted
  deriving DecidableEq, Repr

/-- A response: STATUS, DATA and BYTES (30_encoding.md R71). -/
structure Response where
  status : Status
  data   : Data
  bytes  : List Byte
  deriving DecidableEq, Repr

/-- What the host sees at a port, in the order it happens: a unit constructed there, which starts a run (R165, R169), or a
response returned there (30_encoding.md R59; log 5). -/
inductive Event where
  | constructed (port : Port)
  | returned (port : Port) (response : Response)
  deriving DecidableEq, Repr

/-- Byte-addressed memory: (address, byte) pairs, addresses strictly rising, no entry equal to `Config.unwrittenByte`. -/
abbrev Memory := List Host.Cell

/-- The registers of a writer unit (10_state.md R20 to R27). Counts and positions are natural numbers, as the pseudocode's
arithmetic is (00_scope.md R12); their widths are bounds that every step keeps (log 10). -/
structure Writer where
  /-- `W.ACC`, held bits left-justified (R20). -/
  acc    : Word
  /-- `W.HELD`, 0..32 (R21). -/
  held   : Nat
  /-- `W.CURSOR`, the byte index of the accumulator's word (R22). -/
  cursor : Nat
  /-- `W.TELL`, the committed bit position (R23). -/
  tell   : Nat
  /-- `W.BUF[0 .. CAP-1]` (R24). -/
  buf    : Memory
  /-- `W.CLOSED` (R25). -/
  closed : Bool
  /-- `W.FAULT`, 0x00 or the code of the first fatal fault (R26). -/
  fault  : BitVec 8
  /-- `W.CAP`, fixed at construction (R27). -/
  cap    : Nat
  /-- `W.DEBUG`, fixed at construction (R27). -/
  debug  : Bool
  /-- `W.PAIR`, the reader instance `W_COPY` reads, fixed at construction (R27). -/
  pair   : Option Nat
  deriving DecidableEq, Repr

/-- The registers of a reader unit (10_state.md R28 to R34), and the count of pulls made so far, which 95_test_vectors.md
lists with them (log 15). -/
structure Reader where
  /-- `R.ACC`, held bits right-justified (R28). -/
  acc    : Word
  /-- `R.HELD`, 0..32 (R29). -/
  held   : Nat
  /-- `R.TELL`, the bits consumed (R31). -/
  tell   : Nat
  /-- `R.BUDGET`, the remaining declared bit budget (R30). -/
  budget : Nat
  /-- `R.SRCPOS`, the octets the byte source has delivered (R32). -/
  srcPos : Nat
  /-- How many `Pull()` requests the reader has made (R36, R107). -/
  pulls  : Nat
  /-- `R.FAULT` (R33). -/
  fault  : BitVec 8
  /-- `R.L`, the declared bit budget, fixed at construction (R34). -/
  len    : Nat
  /-- `R.DEBUG`, fixed at construction (R34). -/
  debug  : Bool
  /-- `SRC`, the byte source's octets, fixed at construction (R34). -/
  src    : List Byte
  deriving DecidableEq, Repr

/-- What the host can do to the system (70_reset_and_hazards.md R178). Dropping a unit sends nothing (log 16). -/
inductive HostAction where
  /-- Construct writer `id` (R162). `fill` is what the new buffer happens to hold: the host does not send it, and the spec
  leaves it open (R166), so it is an argument that ranges over all contents (log 3). -/
  | constructWriter (id : Nat) (cap : Nat) (debug : Bool) (pair : Option Nat) (fill : List Byte)
  /-- Construct reader `id` (R163). -/
  | constructReader (id : Nat) (len : Nat) (src : List Byte) (debug : Bool)
  /-- Present one command word on a port (R59). -/
  | command (port : Port) (word : CommandWord)
  deriving DecidableEq, Repr

/-- Why a step stops with a fault. The spec's own errors and fatal faults are responses, not these: they are next states. -/
inductive Fault where
  /-- Raised by the buffer accesses MemRead, MemWrite and W_OCTETS when they would touch an address outside
  `0 .. CAP-1`, which the spec says can never be formed (20_memory.md R46). Safe: the machine stops; only a state that no
  run reaches gets here (log 9). -/
  | bufferAddress (addr : Nat)
  deriving DecidableEq, Repr

/-- Why a step has no meaning. -/
inductive Refusal where
  /-- Raised by a dispatch arm whose command has no meaning yet; no arm uses it now. Safe. -/
  | notModelled (mnemonic : String)
  /-- Raised when a command is presented on the port of a unit that was never constructed, or W_COPY finds its paired
  reader missing: there is no unit to answer (log 8). Safe. -/
  | noSuchUnit (port : Port)
  /-- Raised by constructing a writer whose CAP is not a multiple of 4 or is above 2^28: a model must refuse the
  configuration (00_scope.md R8, 93_implementation_defined.md U21; log 7). Safe. -/
  | illegalCapacity (cap : Nat)
  /-- Raised by constructing a writer whose PAIR is not a constructed reader (00_scope.md R8, 70_reset_and_hazards.md
  R167; log 7). Safe. -/
  | illegalPair (reader : Nat)
  /-- Raised by constructing a reader whose L is above 2^32 - 1 (00_scope.md R9, 93_implementation_defined.md U21;
  log 7). Safe. -/
  | illegalBudget (len : Nat)
  deriving DecidableEq, Repr

/-- A system of units and the host that drives them. -/
structure State where
  /-- The constructed writers by instance number, numbers strictly rising. -/
  writers    : List (Nat × Writer)
  /-- The constructed readers by instance number, numbers strictly rising. -/
  readers    : List (Nat × Reader)
  /-- What the host will do, oldest first (log 1). -/
  input      : List HostAction
  /-- The port of the last command presented (log 5). -/
  port       : Port
  /-- The constructions and the responses so far, newest first (log 5). -/
  transcript : List Event
  deriving DecidableEq, Repr

/-- Before the host has acted: no unit is constructed, so no register exists yet. Construction is each unit's only reset
(70_reset_and_hazards.md R162 to R164); `Writer.construct` and `Reader.construct` give the register values it leaves
(log 2). -/
def State.reset : State :=
  { writers := [], readers := [], input := [], port := .writer 0, transcript := [] }

end Sys2Proof.Machine
end

