-- ==== Sys2Proof/Machine/Operands.lean ====
section
/-! DEFINITION. How operands and results are read and laid out: masks and byte slices (00_scope.md R12), the
sign-magnitude encoding and decoding (40_writer.md R83, 41_reader.md R109), the debug tag's type table (42_debug_tags.md
R126), the status codes (30_encoding.md R72) and the DATA payloads (30_encoding.md R73, R75). -/

namespace Sys2Proof.Machine

/-- `mask(n) = 2^n - 1` for `0 ≤ n ≤ 32` (00_scope.md R12). -/
def mask (n : Nat) : Word := BitVec.ofNat 32 (2 ^ n - 1)

/-- Byte `j` of a word, most significant first: `v[31 - 8j : 24 - 8j]` (20_memory.md R49). -/
def byteOf (v : Word) (j : Nat) : Byte := ((v <<< (8 * j)) >>> 24).setWidth 8

/-- The sign bit of `SENC(v, k)`: 1 if v is negative (40_writer.md R83). -/
def sencSign (v : Int) : Word := if v < 0 then 1#32 else 0#32

/-- The magnitude of `SENC(v, k)`: `|v| mod 2^(k-1)`, the absolute value taken without width (40_writer.md R83). -/
def sencMagnitude (v : Int) (k : Nat) : Word := BitVec.ofNat 32 (v.natAbs % 2 ^ (k - 1))

/-- `SDEC(s, m)` (41_reader.md R109). -/
def sdec (s m : Word) : Int := if s = 1#32 then -(m.toNat : Int) else (m.toNat : Int)

/-- The types a debug tag can name (42_debug_tags.md R126). -/
inductive TagType where
  | uint16
  | int16
  | uint32
  | uint64
  | uint8
  | signed
  | unsigned
  | int32
  deriving DecidableEq, Repr

/-- The 4-bit type code of a debug tag: the one table of codes (42_debug_tags.md R126, 93_implementation_defined.md
U24). -/
def tagCode : TagType → Word
  | .uint16 => 1#32
  | .int16 => 2#32
  | .uint32 => 3#32
  | .uint64 => 4#32
  | .uint8 => 5#32
  | .signed => 6#32
  | .unsigned => 7#32
  | .int32 => 9#32

/-- The 8-bit code of a status (30_encoding.md R72). -/
def statusCode : Status → BitVec 8
  | .ok => 0x00#8
  | .widthError => 0x01#8
  | .eofError => 0x02#8
  | .rewindOutOfRange => 0x03#8
  | .debugTagMismatch => 0x04#8
  | .illegalCommand => 0x05#8
  | .faultAccumulatorInvariant => 0x80#8
  | .faultCapacityOverflow => 0x81#8
  | .faultUseAfterClose => 0x82#8
  | .faulted => 0xFF#8

/-- `DATA[63:32] = hi`, `DATA[31:0] = lo` (30_encoding.md R73). -/
def dataPair (hi lo : Nat) : Data := BitVec.ofNat 32 hi ++ BitVec.ofNat 32 lo

/-- The payload of WIDTH_ERROR: `DATA[31:0]` = the rejected count (30_encoding.md R73). -/
def dataCount (n : Nat) : Data := dataPair 0 n

/-- The payload of DEBUG_TAG_MISMATCH: `DATA[3:0]` observed type, `DATA[14:8]` observed width, `DATA[19:16]` expected
type, `DATA[30:24]` expected width (30_encoding.md R73). -/
def dataTags (observedType observedWidth expectedType expectedWidth : Word) : Data :=
  ((0#33 ++ expectedWidth.setWidth 7 ++ 0#4 ++ expectedType.setWidth 4 ++
    0#1 ++ observedWidth.setWidth 7 ++ 0#4 ++ observedType.setWidth 4 : BitVec 64))

/-- The payload of ILLEGAL_COMMAND and of FAULTED: `DATA[7:0]` = the byte (30_encoding.md R73). -/
def dataByte (b : BitVec 8) : Data := b.setWidth 64

/-- A success response with a result and no BYTES (30_encoding.md R73, R74). -/
def okResponse (data : Data) : Response := { status := .ok, data := data, bytes := [] }

/-- A response other than OK: a status and its payload (30_encoding.md R73). -/
def errorResponse (st : Status) (data : Data) : Response := { status := st, data := data, bytes := [] }

/-- An unsigned result, zero-extended (30_encoding.md R75). -/
def unsignedResponse (x : Word) : Response := okResponse (x.setWidth 64)

/-- A signed result, sign-extended from its two's-complement form (30_encoding.md R75). -/
def signedResponse (v : Int) : Response := okResponse (BitVec.ofInt 64 v)

/-- A count, zero-extended (30_encoding.md R75). -/
def countResponse (n : Nat) : Response := okResponse (BitVec.ofNat 64 n)

end Sys2Proof.Machine
end

