-- ==== Sys2Proof/Machine/Ops.lean ====
section
/-! DEFINITION. The operations every command is made of: tables of units and memories in canonical form, the outcome of a
primitive, raising an error and taking a fatal fault (60_exceptions.md R140, R141), construction (70_reset_and_hazards.md
R162, R163), the buffer accesses (20_memory.md R48, R49), the logical stream (R50), the primitive write (40_writer.md R78)
and the primitive read (41_reader.md R105) with the byte source below it (20_memory.md R52, 41_reader.md R107). -/

namespace Sys2Proof.Machine

/-! ## Tables and memories -/

/-- The entry of a table under key `k`. -/
def tableGet {α : Type} : List (Nat × α) → Nat → Option α
  | [], _ => none
  | (j, x) :: t, k => if k = j then some x else tableGet t k

/-- The table with `x` under key `k`, keys kept strictly rising. -/
def tablePut {α : Type} : List (Nat × α) → Nat → α → List (Nat × α)
  | [], k, x => [(k, x)]
  | (j, y) :: t, k, x =>
    if k < j then (k, x) :: (j, y) :: t
    else if k = j then (k, x) :: t
    else (j, y) :: tablePut t k x

/-- The table without any entry under key `k`. -/
def tableErase {α : Type} : List (Nat × α) → Nat → List (Nat × α)
  | [], _ => []
  | (j, y) :: t, k => if k = j then tableErase t k else (j, y) :: tableErase t k

/-- Keys strictly rising from above `lo`. -/
def tableSortedFrom {α : Type} : Nat → List (Nat × α) → Bool
  | _, [] => true
  | lo, (j, _) :: t => decide (lo ≤ j) && tableSortedFrom (j + 1) t

/-- The canonical form of a table: keys strictly rising. -/
def tableWf {α : Type} (t : List (Nat × α)) : Bool := tableSortedFrom 0 t

/-- The byte at an address; an unlisted address reads `Config.unwrittenByte` (log 3). -/
def readByte (m : Memory) (a : Nat) : Byte := (tableGet m a).getD Config.unwrittenByte

/-- The memory with byte `b` at address `a`, in canonical form. -/
def writeByte (m : Memory) (a : Nat) (b : Byte) : Memory :=
  if b = Config.unwrittenByte then tableErase m a else tablePut m a b

/-- No entry equals what an unlisted address reads as. -/
def memNoDefault (m : Memory) : Bool := m.all fun c => decide (c.2 ≠ Config.unwrittenByte)

/-- The canonical form of a memory: addresses strictly rising, no entry equal to what an unlisted address reads as. -/
def memWf (m : Memory) : Bool := tableWf m && memNoDefault m

/-- Every listed address lies below `cap`. -/
def memBelow (cap : Nat) (m : Memory) : Bool := m.all fun c => decide (c.1 < cap)

/-- The n most significant bytes of `v` stored from `a` on, most significant first (20_memory.md R49). -/
def storeBytes (m : Memory) (a : Nat) (v : Word) : Nat → Memory
  | 0 => m
  | n + 1 => writeByte (storeBytes m a v n) (a + n) (byteOf v n)

/-- The big-endian word at `a` (20_memory.md R39, R48). -/
def loadWord (m : Memory) (a : Nat) : Word :=
  ((readByte m a ++ readByte m (a + 1) ++ readByte m (a + 2) ++ readByte m (a + 3) : BitVec 32))

/-- The memory that holds the bytes of a list from address `a` on. -/
def memFill (m : Memory) (a : Nat) : List Byte → Memory
  | [] => m
  | b :: bs => memFill (writeByte m a b) (a + 1) bs

/-! ## Outcomes of primitives -/

/-- What a primitive over units `σ` gives: a result and the units after it; or a response that ends the command, with the
units as they stand then (60_exceptions.md R140, R141); or a stop of the model. -/
inductive Prim (σ α : Type) where
  | done (a : α) (u : σ)
  | raised (r : Response) (u : σ)
  | stopped (f : Fault)
  deriving DecidableEq, Repr

/-- One primitive after another: the first that does not succeed decides, and the effects before it stay (40_writer.md
R98, 41_reader.md R120). -/
def primBind {σ α β : Type} (p : Prim σ α) (f : α → σ → Prim σ β) : Prim σ β :=
  match p with
  | .done a u => f a u
  | .raised r u => .raised r u
  | .stopped e => .stopped e

/-- A primitive of one unit as a primitive of a larger group of units. -/
def primLift {σ τ α : Type} (g : σ → τ) (p : Prim σ α) : Prim τ α :=
  match p with
  | .done a u => .done a (g u)
  | .raised r u => .raised r (g u)
  | .stopped e => .stopped e

/-- `raise <Error>(payload)`: the command ends with that response and the raising primitive changes nothing
(60_exceptions.md R140). -/
def raiseError {σ α : Type} (st : Status) (data : Data) (u : σ) : Prim σ α := .raised (errorResponse st data) u

/-- `fatal <Fault>(payload)`: the command ends with that response, and the fault's code goes into the unit's FAULT register
(60_exceptions.md R141). `record` writes that register. -/
def takeFatal {σ α : Type} (st : Status) (data : Data) (record : BitVec 8 → σ) : Prim σ α :=
  .raised (errorResponse st data) (record (statusCode st))

/-- A fatal fault of a writer. -/
def writerFatal {α : Type} (st : Status) (data : Data) (w : Writer) : Prim Writer α :=
  takeFatal st data fun code => { w with fault := code }

/-- A fatal fault of a reader. -/
def readerFatal {α : Type} (st : Status) (data : Data) (r : Reader) : Prim Reader α :=
  takeFatal st data fun code => { r with fault := code }

/-! ## Construction -/

/-- A writer as construction leaves it (70_reset_and_hazards.md R162). The buffer holds `fill`, cut to CAP bytes: any
bytes (R166; log 3). -/
def Writer.construct (cap : Nat) (debug : Bool) (pair : Option Nat) (fill : List Byte) : Writer :=
  { acc := 0#32, held := 0, cursor := 0, tell := 0, buf := memFill [] 0 (fill.take cap), closed := false, fault := 0#8,
    cap := cap, debug := debug, pair := pair }

/-- A reader as construction leaves it (70_reset_and_hazards.md R163). -/
def Reader.construct (len : Nat) (src : List Byte) (debug : Bool) : Reader :=
  { acc := 0#32, held := 0, tell := 0, budget := len, srcPos := 0, pulls := 0, fault := 0#8, len := len, debug := debug,
    src := src }

/-! ## The writer's buffer and the primitive write -/

/-- `MemWrite(a, n, v)` on the writer's buffer (20_memory.md R49); a byte outside `0 .. CAP-1` does not exist (R46;
log 9). -/
def Writer.memWrite (a n : Nat) (v : Word) (w : Writer) : Prim Writer Unit :=
  if n = 0 then .done () w
  else if a + n ≤ w.cap then .done () { w with buf := storeBytes w.buf a v n }
  else .stopped (.bufferAddress (a + n - 1))

/-- `MemRead(a, 4)` on the writer's buffer (20_memory.md R48; log 9). -/
def Writer.memRead (a : Nat) (w : Writer) : Prim Writer Word :=
  if a + 4 ≤ w.cap then .done (loadWord w.buf a) w else .stopped (.bufferAddress (a + 3))

/-- The check after every primitive write that at most 32 bits are held (40_writer.md R78, 60_exceptions.md R146;
log 11). -/
def Writer.checkHeld (w : Writer) : Prim Writer Unit :=
  if 32 < w.held then writerFatal .faultAccumulatorInvariant 0#64 w else .done () w

/-- `PWRITE(v, k)`, the primitive write (40_writer.md R78 to R82). -/
def Writer.pwrite (v : Word) (k : Nat) (w : Writer) : Prim Writer Unit :=
  if 8 * w.cap < w.tell + k then writerFatal .faultCapacityOverflow (dataPair k w.tell) w
  else if k ≤ 32 - w.held then
    Writer.checkHeld
      { w with acc := w.acc ||| ((v &&& mask k) <<< (32 - w.held - k)), held := w.held + k, tell := w.tell + k }
  else
    primBind (Writer.memWrite w.cursor 4 (w.acc ||| ((v &&& mask k) >>> (k - (32 - w.held)))) w) fun _ w' =>
      Writer.checkHeld
        { w' with
          acc := ((v &&& mask k) &&& mask (k - (32 - w.held))) <<< (32 - (k - (32 - w.held)))
          cursor := w.cursor + 4
          held := k - (32 - w.held)
          tell := w.tell + k }

/-- Byte `i` of the logical stream: from the buffer below the word cursor, from the accumulator above it (20_memory.md
R50). -/
def Writer.outByte (w : Writer) (i : Nat) : Byte :=
  if i < w.cursor then readByte w.buf i else byteOf w.acc (i - w.cursor)

/-- `OUT(W)`, the writer's logical stream (20_memory.md R50). -/
def Writer.out (w : Writer) : List Byte := (List.range (ceilDiv w.tell 8)).map w.outByte

/-! ## The byte source and the primitive read -/

/-- `Pull()`: the next octet of the byte source, or END (20_memory.md R52, R53). -/
def Reader.pull (r : Reader) : Option Byte × Reader :=
  match r.src[r.srcPos]? with
  | some b => (some b, { r with srcPos := r.srcPos + 1, pulls := r.pulls + 1 })
  | none => (none, { r with pulls := r.pulls + 1 })

/-- The loop of `FILL()`: at most `fuel` more pulls, ended by END (41_reader.md R107). Gives the word gathered, the octets
obtained and the reader. -/
def Reader.fillLoop : Nat → Word → Nat → Reader → Word × Nat × Reader
  | 0, acc, j, r => (acc, j, r)
  | fuel + 1, acc, j, r =>
    match r.pull with
    | (none, r') => (acc, j, r')
    | (some b, r') => Reader.fillLoop fuel ((acc <<< 8) ||| b.setWidth 32) (j + 1) r'

/-- `FILL()`: a fresh accumulator of up to 4 octets, big-endian, right-justified (41_reader.md R107). -/
def Reader.fill (r : Reader) : Reader :=
  match Reader.fillLoop 4 0#32 0 r with
  | (acc, j, r') => { r' with acc := acc, held := 8 * j }

/-- The end of a primitive read: k bits consumed, the budget lowered, the held bits checked (41_reader.md R105,
60_exceptions.md R146; log 11). -/
def Reader.consume (k : Nat) (x : Word) (r : Reader) : Prim Reader Word :=
  if 32 < r.held then
    readerFatal .faultAccumulatorInvariant 0#64 { r with tell := r.tell + k, budget := r.budget - k }
  else .done x { r with tell := r.tell + k, budget := r.budget - k }

/-- The end of a straddling read: the held bits `first`, then `need` bits from the freshly filled reader `f`, zeros where
the physical data ran out (41_reader.md R105, R106, R108). -/
def Reader.readFresh (k need : Nat) (first : Word) (f : Reader) : Prim Reader Word :=
  if need ≤ f.held then
    Reader.consume k ((first <<< need) ||| ((f.acc >>> (f.held - need)) &&& mask need)) { f with held := f.held - need }
  else
    Reader.consume k ((first <<< need) ||| ((f.acc &&& mask f.held) <<< (need - f.held))) { f with held := 0 }

/-- `PREAD(k)`, the primitive read (41_reader.md R104 to R108). -/
def Reader.pread (k : Nat) (r : Reader) : Prim Reader Word :=
  if r.budget < k then raiseError .eofError (dataPair k r.tell) r
  else if k ≤ r.held then
    Reader.consume k ((r.acc >>> (r.held - k)) &&& mask k) { r with held := r.held - k }
  else Reader.readFresh k (k - r.held) (r.acc &&& mask r.held) r.fill

/-! ## Units of the system and responses -/

/-- The writer instance of a number. -/
def State.writer? (s : State) (id : Nat) : Option Writer := tableGet s.writers id

/-- The reader instance of a number. -/
def State.reader? (s : State) (id : Nat) : Option Reader := tableGet s.readers id

/-- The system with writer `id` as given. -/
def State.setWriter (s : State) (id : Nat) (w : Writer) : State := { s with writers := tablePut s.writers id w }

/-- The system with reader `id` as given. -/
def State.setReader (s : State) (id : Nat) (r : Reader) : State := { s with readers := tablePut s.readers id r }

/-- `respond`: the response goes to the port the command came on (30_encoding.md R59, R74). -/
def State.respond (s : State) (resp : Response) : State :=
  { s with transcript := .returned s.port resp :: s.transcript }

/-- A unit is constructed on a port: its earlier run is over and a new one starts (70_reset_and_hazards.md R165, R169). -/
def State.startRun (s : State) (port : Port) : State := { s with transcript := .constructed port :: s.transcript }

/-- Writer `id` new, as given. -/
def State.addWriter (s : State) (id : Nat) (w : Writer) : State := (s.setWriter id w).startRun (.writer id)

/-- Reader `id` new, as given. -/
def State.addReader (s : State) (id : Nat) (r : Reader) : State := (s.setReader id r).startRun (.reader id)

/-- The responses of a port's latest run, newest first: those since its unit was last constructed (70_reset_and_hazards.md
R165, R169). -/
def runResponses (port : Port) : List Event → List Response
  | [] => []
  | .constructed p :: t => if p = port then [] else runResponses port t
  | .returned p resp :: t => if p = port then resp :: runResponses port t else runResponses port t

/-- The observation of the latest run of the unit on a port: the sequence of responses it returned, oldest first
(70_reset_and_hazards.md R169). -/
def State.observation (s : State) (port : Port) : List Response := (runResponses port s.transcript).reverse

/-- The end of a command: the units as its primitives left them, and its one response (30_encoding.md R59). -/
def finish {σ : Type} (commit : σ → State) (p : Prim σ Response) : Host.Outcome State Fault Refusal :=
  match p with
  | .done resp u => .next ((commit u).respond resp)
  | .raised resp u => .next ((commit u).respond resp)
  | .stopped f => .fault f

/-- A writer constructed by the host: its number, and its arguments if they are legal (00_scope.md R8,
70_reset_and_hazards.md R162, R167; log 6, log 7). -/
def constructWriter (id cap : Nat) (debug : Bool) (pair : Option Nat) (fill : List Byte) (s : State) :
    Host.Outcome State Fault Refusal :=
  if cap % 4 = 0 ∧ cap ≤ Config.maxCap then
    match pair with
    | none => .next (s.addWriter id (Writer.construct cap debug none fill))
    | some rid =>
      match s.reader? rid with
      | some _ => .next (s.addWriter id (Writer.construct cap debug (some rid) fill))
      | none => .refused (.illegalPair rid)
  else .refused (.illegalCapacity cap)

/-- A reader constructed by the host, if its arguments are legal (00_scope.md R9, 70_reset_and_hazards.md R163; log 6,
log 7). -/
def constructReader (id len : Nat) (src : List Byte) (debug : Bool) (s : State) : Host.Outcome State Fault Refusal :=
  if len ≤ Config.maxBudget then .next (s.addReader id (Reader.construct len src debug))
  else .refused (.illegalBudget len)

end Sys2Proof.Machine
end

