-- ==== Sys2Proof/Machine/Flags.lean ====
section
/-! DEFINITION. The block has no condition flags (10_state.md R19). What its commands test and set instead are the status
registers FAULT and CLOSED: the prologues of 40_writer.md R76 and 41_reader.md R102, in the order of 60_exceptions.md
R150, and how a command runs behind them. -/

namespace Sys2Proof.Machine

/-- What a prologue gives: the command passes, or it ends here with a response and the unit as given. -/
inductive Checked (σ : Type) where
  | pass
  | ended (resp : Response) (u : σ)
  deriving DecidableEq, Repr

/-- The response of a faulted unit (60_exceptions.md R143). -/
def faultedResponse (fault : BitVec 8) : Response := errorResponse .faulted (dataByte fault)

/-- The response to a command that is not one of the unit's (60_exceptions.md R144). -/
def illegalResponse (op : BitVec 8) : Response := errorResponse .illegalCommand (dataByte op)

/-- An OP of the writer unit: 0x01..0x0D (30_encoding.md R64, 40_writer.md R76). -/
def isWriterOp (op : BitVec 8) : Bool := decide (0x01 ≤ op.toNat ∧ op.toNat ≤ 0x0D)

/-- An OP of the reader unit: 0x21..0x29 (30_encoding.md R65, 41_reader.md R102). -/
def isReaderOp (op : BitVec 8) : Bool := decide (0x21 ≤ op.toNat ∧ op.toNat ≤ 0x29)

/-- The commands a closed writer still executes: W_TELL and W_OCTETS (10_state.md R25). -/
def runsAfterClose (op : BitVec 8) : Bool := decide (op = 0x09#8 ∨ op = 0x0C#8)

/-- `WPROLOGUE(op)` (40_writer.md R76). -/
def Writer.prologue (op : BitVec 8) (w : Writer) : Checked Writer :=
  if w.fault ≠ 0#8 then .ended (faultedResponse w.fault) w
  else if isWriterOp op = false then .ended (illegalResponse op) w
  else if op = 0x0D#8 ∧ w.pair = none then .ended (illegalResponse op) w
  else if w.closed = true ∧ runsAfterClose op = false then
    .ended (errorResponse .faultUseAfterClose 0#64) { w with fault := statusCode .faultUseAfterClose }
  else .pass

/-- `RPROLOGUE(op)` (41_reader.md R102). -/
def Reader.prologue (op : BitVec 8) (r : Reader) : Checked Reader :=
  if r.fault ≠ 0#8 then .ended (faultedResponse r.fault) r
  else if isReaderOp op = false then .ended (illegalResponse op) r
  else .pass

/-- A command with command select `op`, presented on the state's port: the unit's prologue first, and behind it `onWriter`
or `onReader`. A port with no unit has nothing to answer (log 8). -/
def present (op : BitVec 8) (s : State) (onWriter : Nat → Writer → Host.Outcome State Fault Refusal)
    (onReader : Nat → Reader → Host.Outcome State Fault Refusal) : Host.Outcome State Fault Refusal :=
  match s.port with
  | .writer id =>
    match s.writer? id with
    | none => .refused (.noSuchUnit (.writer id))
    | some w =>
      match w.prologue op with
      | .ended resp w' => .next ((s.setWriter id w').respond resp)
      | .pass => onWriter id w
  | .reader id =>
    match s.reader? id with
    | none => .refused (.noSuchUnit (.reader id))
    | some r =>
      match r.prologue op with
      | .ended resp r' => .next ((s.setReader id r').respond resp)
      | .pass => onReader id r

/-- The answer to an OP that is none of the unit's, should it come past the prologue (it cannot). -/
def answerIllegal (op : BitVec 8) (s : State) : Host.Outcome State Fault Refusal := .next (s.respond (illegalResponse op))

/-- A writer command: the prologue, then its body on the writer. -/
def writerCommand (op : BitVec 8) (body : Writer → Prim Writer Response) (s : State) : Host.Outcome State Fault Refusal :=
  present op s (fun id w => finish (s.setWriter id) (body w)) (fun _ _ => answerIllegal op s)

/-- A reader command: the prologue, then its body on the reader. -/
def readerCommand (op : BitVec 8) (body : Reader → Prim Reader Response) (s : State) : Host.Outcome State Fault Refusal :=
  present op s (fun _ _ => answerIllegal op s) (fun id r => finish (s.setReader id) (body r))

/-- A word whose OP names no command of either unit (30_encoding.md R66, 60_exceptions.md R144). -/
def illegalCommand (op : BitVec 8) (s : State) : Host.Outcome State Fault Refusal :=
  present op s (fun _ _ => answerIllegal op s) (fun _ _ => answerIllegal op s)

end Sys2Proof.Machine
end

