-- ==== Sys2Proof/Machine/Tags.lean ====
section
/-! DEFINITION. Debug-tag mode (42_debug_tags.md) and the field bodies the typed commands share: the tag step, then one
unsigned field (40_writer.md R84, 41_reader.md R111), one sign-magnitude field (R85, R112) or two 32-bit halves (R91,
R118). -/

namespace Sys2Proof.Machine

/-- `DTAG(t, w)` on a debug writer, nothing on a plain one (42_debug_tags.md R123, R129). -/
def Writer.tag (t : TagType) (width : Nat) (w : Writer) : Prim Writer Unit :=
  if w.debug = true then
    primBind (w.pwrite (tagCode t) 4) fun _ w1 => w1.pwrite (BitVec.ofNat 32 width) 7
  else .done () w

/-- `DCHECK(t, w)` on a debug reader, nothing on a plain one: both parts are read before the comparison (42_debug_tags.md
R123, R132). -/
def Reader.checkTag (t : TagType) (width : Nat) (r : Reader) : Prim Reader Unit :=
  if r.debug = true then
    primBind (r.pread 4) fun ot r1 =>
      primBind (r1.pread 7) fun ow r2 =>
        if ot = tagCode t ∧ ow = BitVec.ofNat 32 width then .done () r2
        else raiseError .debugTagMismatch (dataTags ot ow (tagCode t) (BitVec.ofNat 32 width)) r2
  else .done () r

/-- A tagged unsigned field of `k` bits. -/
def Writer.putUnsigned (t : TagType) (v : Word) (k : Nat) (w : Writer) : Prim Writer Response :=
  primBind (w.tag t k) fun _ w1 => primBind (w1.pwrite v k) fun _ w2 => .done (okResponse 0#64) w2

/-- A tagged sign-magnitude field of `k` bits: the sign bit, then the magnitude (40_writer.md R83, R85). -/
def Writer.putSigned (t : TagType) (v : Int) (k : Nat) (w : Writer) : Prim Writer Response :=
  primBind (w.tag t k) fun _ w1 =>
    primBind (w1.pwrite (sencSign v) 1) fun _ w2 =>
      primBind (w2.pwrite (sencMagnitude v k) (k - 1)) fun _ w3 => .done (okResponse 0#64) w3

/-- A tagged 64-bit field: one tag, then the upper and the lower word (40_writer.md R91, 42_debug_tags.md R131). -/
def Writer.putDouble (v : BitVec 64) (w : Writer) : Prim Writer Response :=
  primBind (w.tag .uint64 64) fun _ w1 =>
    primBind (w1.pwrite (v.extractLsb' 32 32) 32) fun _ w2 =>
      primBind (w2.pwrite (v.extractLsb' 0 32) 32) fun _ w3 => .done (okResponse 0#64) w3

/-- A tagged unsigned field of `k` bits read (41_reader.md R111). -/
def Reader.getUnsigned (t : TagType) (k : Nat) (r : Reader) : Prim Reader Response :=
  primBind (r.checkTag t k) fun _ r1 => primBind (r1.pread k) fun x r2 => .done (unsignedResponse x) r2

/-- A tagged sign-magnitude field of `k` bits read (41_reader.md R109, R112). -/
def Reader.getSigned (t : TagType) (k : Nat) (r : Reader) : Prim Reader Response :=
  primBind (r.checkTag t k) fun _ r1 =>
    primBind (r1.pread 1) fun s r2 =>
      primBind (r2.pread (k - 1)) fun m r3 => .done (signedResponse (sdec s m)) r3

/-- A tagged 64-bit field read, upper word first (41_reader.md R118). -/
def Reader.getDouble (r : Reader) : Prim Reader Response :=
  primBind (r.checkTag .uint64 64) fun _ r1 =>
    primBind (r1.pread 32) fun hi r2 =>
      primBind (r2.pread 32) fun lo r3 => .done (okResponse ((hi ++ lo : BitVec 64))) r3

end Sys2Proof.Machine
end

