-- ==== Sys2Proof/Machine/ReaderFields.lean ====
section
/-! DEFINITION. The meanings of the reader commands R_BITS to R_TELL (41_reader.md R111 to R119). -/

namespace Sys2Proof.Machine

/-- R_BITS (41_reader.md R111; count legality R103). -/
def execRBits (count : Nat) (s : State) : Host.Outcome State Fault Refusal :=
  readerCommand 0x21#8 (fun r =>
    if count < 1 ∨ 32 < count then raiseError .widthError (dataCount count) r
    else r.getUnsigned .unsigned count) s

/-- R_SBITS (41_reader.md R112; count legality R103). -/
def execRSbits (count : Nat) (s : State) : Host.Outcome State Fault Refusal :=
  readerCommand 0x22#8 (fun r =>
    if count < 2 ∨ 32 < count then raiseError .widthError (dataCount count) r
    else r.getSigned .signed count) s

/-- R_U8 (41_reader.md R113). -/
def execRU8 (s : State) : Host.Outcome State Fault Refusal :=
  readerCommand 0x23#8 (fun r => r.getUnsigned .uint8 8) s

/-- R_U16 (41_reader.md R114). -/
def execRU16 (s : State) : Host.Outcome State Fault Refusal :=
  readerCommand 0x24#8 (fun r => r.getUnsigned .uint16 16) s

/-- R_U32 (41_reader.md R115). -/
def execRU32 (s : State) : Host.Outcome State Fault Refusal :=
  readerCommand 0x25#8 (fun r => r.getUnsigned .uint32 32) s

/-- R_I16 (41_reader.md R116). -/
def execRI16 (s : State) : Host.Outcome State Fault Refusal :=
  readerCommand 0x26#8 (fun r => r.getSigned .int16 16) s

/-- R_I32 (41_reader.md R117). -/
def execRI32 (s : State) : Host.Outcome State Fault Refusal :=
  readerCommand 0x27#8 (fun r => r.getSigned .int32 32) s

/-- R_U64 (41_reader.md R118). -/
def execRU64 (s : State) : Host.Outcome State Fault Refusal :=
  readerCommand 0x28#8 (fun r => r.getDouble) s

/-- R_TELL (41_reader.md R119). -/
def execRTell (s : State) : Host.Outcome State Fault Refusal :=
  readerCommand 0x29#8 (fun r => .done (countResponse r.tell) r) s

end Sys2Proof.Machine
end

