-- ==== Sys2Proof/Machine/WriterControl.lean ====
section
/-! DEFINITION. The meanings of the writer's position, close, output and copy commands (40_writer.md R92 to R99). -/

namespace Sys2Proof.Machine

/-- W_TELL (40_writer.md R92). -/
def execWTell (s : State) : Host.Outcome State Fault Refusal :=
  writerCommand 0x09#8 (fun w => .done (countResponse w.tell) w) s

/-- The pending flush of a rewind: the whole accumulator when it holds bits (40_writer.md R95). -/
def Writer.flushPending (w : Writer) : Prim Writer Unit :=
  if 0 < w.held then Writer.memWrite w.cursor 4 w.acc w else .done () w

/-- The reload of a rewind to `p`, the word cursor already set: the `p mod 32` stream bits before p, left-justified, zeros
below (40_writer.md R93, R95; 90_conflicts.md C4). -/
def Writer.reload (p : Nat) (w : Writer) : Prim Writer Unit :=
  if p % 32 = 0 then .done () { w with acc := 0#32, held := 0, tell := p }
  else
    primBind (Writer.memRead w.cursor w) fun word w1 =>
      .done () { w1 with acc := (word >>> (32 - p % 32)) <<< (32 - p % 32), held := p % 32, tell := p }

/-- The move of the write position back to `p` (40_writer.md R93; 90_conflicts.md C7). -/
def Writer.rewindTo (p : Nat) (w : Writer) : Prim Writer Unit :=
  primBind w.flushPending fun _ w1 => Writer.reload p { w1 with cursor := 4 * (p / 32) }

/-- W_REWIND (40_writer.md R93 to R95). -/
def execWRewind (position : Nat) (s : State) : Host.Outcome State Fault Refusal :=
  writerCommand 0x0A#8 (fun w =>
    if w.tell < position then raiseError .rewindOutOfRange (dataPair position w.tell) w
    else primBind (w.rewindTo position) fun _ w1 => .done (okResponse 0#64) w1) s

/-- The final flush and the closing of a writer (40_writer.md R96). -/
def Writer.close (w : Writer) : Prim Writer Unit :=
  primBind (Writer.memWrite w.cursor (ceilDiv w.held 8) w.acc w) fun _ w1 => .done () { w1 with closed := true }

/-- W_CLOSE (40_writer.md R96). -/
def execWClose (s : State) : Host.Outcome State Fault Refusal :=
  writerCommand 0x0B#8 (fun w => primBind w.close fun _ w1 => .done (okResponse 0#64) w1) s

/-- The peek at the logical stream: DATA its length, BYTES the bytes, nothing changed (40_writer.md R99). The bytes it takes
from the buffer must exist (20_memory.md R46; log 9). -/
def Writer.octets (w : Writer) : Prim Writer Response :=
  if min (ceilDiv w.tell 8) w.cursor ≤ w.cap then
    .done { status := .ok, data := BitVec.ofNat 64 (ceilDiv w.tell 8), bytes := w.out } w
  else .stopped (.bufferAddress w.cap)

/-- W_OCTETS (40_writer.md R99). -/
def execWOctets (s : State) : Host.Outcome State Fault Refusal :=
  writerCommand 0x0C#8 Writer.octets s

/-- One chunk of a copy: the primitive read of the reader, then the primitive write of the writer, no tags (40_writer.md
R97, 42_debug_tags.md R137). -/
def copyChunk (k : Nat) (u : Writer × Reader) : Prim (Writer × Reader) Unit :=
  primBind (primLift (fun r => (u.1, r)) (u.2.pread k)) fun x u1 => primLift (fun w => (w, u1.2)) (u1.1.pwrite x k)

/-- The 32-bit chunks of a copy (40_writer.md R97). -/
def copyWords : Nat → Writer × Reader → Prim (Writer × Reader) Unit
  | 0, u => .done () u
  | j + 1, u => primBind (copyChunk 32 u) fun _ u1 => copyWords j u1

/-- A copy of `n` bits: `floor(n/32)` chunks, then the remainder (40_writer.md R97). -/
def copyBits (n : Nat) (u : Writer × Reader) : Prim (Writer × Reader) Response :=
  primBind (copyWords (n / 32) u) fun _ u1 =>
    if 0 < n % 32 then primBind (copyChunk (n % 32) u1) fun _ u2 => .done (okResponse 0#64) u2
    else .done (okResponse 0#64) u1

/-- W_COPY behind its prologue, on the writer and its paired reader: one step of both units (40_writer.md R97; a faulted
pair, 60_exceptions.md R143). -/
def copyFromPair (n id : Nat) (w : Writer) (s : State) : Host.Outcome State Fault Refusal :=
  match w.pair with
  | none => answerIllegal 0x0D#8 s
  | some rid =>
    match s.reader? rid with
    | none => .refused (.noSuchUnit (.reader rid))
    | some r =>
      if r.fault ≠ 0#8 then .next (s.respond (faultedResponse r.fault))
      else finish (fun u => (s.setWriter id u.1).setReader rid u.2) (copyBits n (w, r))

/-- W_COPY (40_writer.md R97, R98). -/
def execWCopy (bitCount : Nat) (s : State) : Host.Outcome State Fault Refusal :=
  present 0x0D#8 s (fun id w => copyFromPair bitCount id w s) (fun _ _ => answerIllegal 0x0D#8 s)

end Sys2Proof.Machine
end

