-- ==== Sys2Proof/Machine/WriterFields.lean ====
section
/-! DEFINITION. The meanings of the field-writing commands W_BITS to W_U64 (40_writer.md R84 to R91). -/

namespace Sys2Proof.Machine

/-- W_BITS (40_writer.md R84; count legality R77). -/
def execWBits (value : Word) (count : Nat) (s : State) : Host.Outcome State Fault Refusal :=
  writerCommand 0x01#8 (fun w =>
    if count < 1 ∨ 32 < count then raiseError .widthError (dataCount count) w
    else w.putUnsigned .unsigned value count) s

/-- W_SBITS (40_writer.md R85; count legality R77). -/
def execWSbits (v : Int) (count : Nat) (s : State) : Host.Outcome State Fault Refusal :=
  writerCommand 0x02#8 (fun w =>
    if count < 2 ∨ 32 < count then raiseError .widthError (dataCount count) w
    else w.putSigned .signed v count) s

/-- W_U8 (40_writer.md R86). -/
def execWU8 (v : BitVec 8) (s : State) : Host.Outcome State Fault Refusal :=
  writerCommand 0x03#8 (fun w => w.putUnsigned .uint8 (v.setWidth 32) 8) s

/-- W_U16 (40_writer.md R87). -/
def execWU16 (v : BitVec 16) (s : State) : Host.Outcome State Fault Refusal :=
  writerCommand 0x04#8 (fun w => w.putUnsigned .uint16 (v.setWidth 32) 16) s

/-- W_U32 (40_writer.md R88). -/
def execWU32 (v : BitVec 32) (s : State) : Host.Outcome State Fault Refusal :=
  writerCommand 0x05#8 (fun w => w.putUnsigned .uint32 v 32) s

/-- W_I16 (40_writer.md R89). -/
def execWI16 (v : Int) (s : State) : Host.Outcome State Fault Refusal :=
  writerCommand 0x06#8 (fun w => w.putSigned .int16 v 16) s

/-- W_I32 (40_writer.md R90). -/
def execWI32 (v : Int) (s : State) : Host.Outcome State Fault Refusal :=
  writerCommand 0x07#8 (fun w => w.putSigned .int32 v 32) s

/-- W_U64 (40_writer.md R91). -/
def execWU64 (v : BitVec 64) (s : State) : Host.Outcome State Fault Refusal :=
  writerCommand 0x08#8 (fun w => w.putDouble v) s

end Sys2Proof.Machine
end

