-- ==== Sys2Proof/Machine/Dispatch.lean ====
section
/-! DEFINITION. The dispatch of a command to its meaning, on the port it was presented on. -/

namespace Sys2Proof.Machine

def exec (i : Instr) (s : State) : Host.Outcome State Fault Refusal :=
  match i with
  | .wBits value count => Sys2Proof.Machine.execWBits value count s
  | .wSbits v count => Sys2Proof.Machine.execWSbits v count s
  | .wU8 v => Sys2Proof.Machine.execWU8 v s
  | .wU16 v => Sys2Proof.Machine.execWU16 v s
  | .wU32 v => Sys2Proof.Machine.execWU32 v s
  | .wI16 v => Sys2Proof.Machine.execWI16 v s
  | .wI32 v => Sys2Proof.Machine.execWI32 v s
  | .wU64 v => Sys2Proof.Machine.execWU64 v s
  | .wTell => Sys2Proof.Machine.execWTell s
  | .wRewind position => Sys2Proof.Machine.execWRewind position s
  | .wClose => Sys2Proof.Machine.execWClose s
  | .wOctets => Sys2Proof.Machine.execWOctets s
  | .wCopy bitCount => Sys2Proof.Machine.execWCopy bitCount s
  | .rBits count => Sys2Proof.Machine.execRBits count s
  | .rSbits count => Sys2Proof.Machine.execRSbits count s
  | .rU8 => Sys2Proof.Machine.execRU8 s
  | .rU16 => Sys2Proof.Machine.execRU16 s
  | .rU32 => Sys2Proof.Machine.execRU32 s
  | .rI16 => Sys2Proof.Machine.execRI16 s
  | .rI32 => Sys2Proof.Machine.execRI32 s
  | .rU64 => Sys2Proof.Machine.execRU64 s
  | .rTell => Sys2Proof.Machine.execRTell s

end Sys2Proof.Machine
end

