-- ==== Sys2Proof/Machine/Command.lean ====
section
/-! DEFINITION. What one host action does (70_reset_and_hazards.md R178): a construction, or a command word presented on a
port, decoded and run; and the placing of one command word for the next step. -/

namespace Sys2Proof.Machine

/-- One command word on the state's port: decoded, then run by its meaning; a word whose OP names no command is answered
ILLEGAL_COMMAND behind the prologue (30_encoding.md R66). -/
def runWord (w : CommandWord) (s : State) : Host.Outcome State Fault Refusal :=
  match decode w with
  | .command i => exec i s
  | .illegal op => illegalCommand op s

/-- The state in which the words after the oldest host action are still to come, with the given port selected. -/
def State.take (s : State) (port : Port) (rest : List HostAction) : State := { s with input := rest, port := port }

/-- One host action, already taken from the input (70_reset_and_hazards.md R178). -/
def runAction (a : HostAction) (rest : List HostAction) (s : State) : Host.Outcome State Fault Refusal :=
  match a with
  | .constructWriter id cap debug pair fill => constructWriter id cap debug pair fill (s.take s.port rest)
  | .constructReader id len src debug => constructReader id len src debug (s.take s.port rest)
  | .command port word => runWord word (s.take port rest)

/-- One step: the oldest host action. With none pending the system waits, unchanged: nothing but the host starts a command
(30_encoding.md R59; log 4). -/
def runNext (s : State) : Host.Outcome State Fault Refusal :=
  match s.input with
  | [] => .next s
  | a :: rest => runAction a rest s

/-- The state with reader 0 constructed, if it is not yet (log 12). -/
def State.ensureReader (s : State) : State :=
  match s.reader? 0 with
  | some _ => s
  | none => s.addReader 0 (Reader.construct Config.fetchLen Config.fetchSrc false)

/-- The state with writer 0 constructed and paired with reader 0, if it is not yet (log 12). -/
def State.ensureWriter (s : State) : State :=
  match s.writer? 0 with
  | some _ => s
  | none => s.addWriter 0 (Writer.construct Config.fetchCap false (some 0) [])

/-- The port a word is presented on by `State.withFetchWord`: reader 0 for a reader command, else writer 0 (log 12). -/
def fetchPort (w : CommandWord) : Port := if isReaderOp (wordOp w) then .reader 0 else .writer 0

/-- The state with the units that a command on `port` needs: the reader, or the writer and the reader it is paired with
(log 12). -/
def State.ensureUnits (s : State) (port : Port) : State :=
  match port with
  | .reader _ => s.ensureReader
  | .writer _ => s.ensureReader.ensureWriter

/-- The state in which the next step runs the word `w`: its unit constructed if it is not yet, and `w` presented before
everything else the host will do (log 12). -/
def State.withNextWord (s : State) (w : CommandWord) : State :=
  { s.ensureUnits (fetchPort w) with input := .command (fetchPort w) w :: s.input }

end Sys2Proof.Machine
end

