-- ==== Sys2Proof/Machine/Step.lean ====
section
/-! DEFINITION. One step of the system, and the placing of one command word where the next step takes its command. -/

namespace Sys2Proof.Machine

/-- One step: the oldest action of the host, a command being one indivisible step of its unit (20_memory.md R44). -/
def step (s : State) : Host.Outcome State Fault Refusal := runNext s

/-- The state in which the next step runs the command whose bits are `w`, numbered as spec/opcode_table.json numbers them
(log 12, log 13). -/
def State.withFetchWord (s : State) (nbits w : Nat) : State := s.withNextWord (tableWord nbits w)

end Sys2Proof.Machine
end

