-- ==== Sys2Proof/Machine/Assembler.lean ====
section
/-! DEFINITION. The assembler syntax of 30_encoding.md R69: a line of text, its operands, and the command word it stands
for. There are no pseudo-instructions (R70). How blanks may stand between tokens, and the letter case of digits, the rule
leaves open (log 14). -/

namespace Sys2Proof.Machine

/-- A line without its comment: the unit it goes to, its mnemonic and its operands (30_encoding.md R69). -/
structure AsmLine where
  unit     : Option Port
  mnemonic : List Char
  operands : List Int
  deriving DecidableEq, Repr

/-- Which operands a mnemonic takes, in the order of the line (30_encoding.md R69). -/
inductive AsmShape where
  | valueCount
  | value
  | count
  | bare
  deriving DecidableEq, Repr

/-- The mnemonics, their OP and their operands (30_encoding.md R64, R65, R69). -/
def asmTable : List (List Char × BitVec 8 × AsmShape) :=
  [("W_BITS".toList, 0x01#8, .valueCount), ("W_SBITS".toList, 0x02#8, .valueCount), ("W_U8".toList, 0x03#8, .value),
    ("W_U16".toList, 0x04#8, .value), ("W_U32".toList, 0x05#8, .value), ("W_I16".toList, 0x06#8, .value),
    ("W_I32".toList, 0x07#8, .value), ("W_U64".toList, 0x08#8, .value), ("W_TELL".toList, 0x09#8, .bare),
    ("W_REWIND".toList, 0x0A#8, .count), ("W_CLOSE".toList, 0x0B#8, .bare), ("W_OCTETS".toList, 0x0C#8, .bare),
    ("W_COPY".toList, 0x0D#8, .count)] ++
  [("R_BITS".toList, 0x21#8, .count), ("R_SBITS".toList, 0x22#8, .count), ("R_U8".toList, 0x23#8, .bare),
    ("R_U16".toList, 0x24#8, .bare), ("R_U32".toList, 0x25#8, .bare), ("R_I16".toList, 0x26#8, .bare),
    ("R_I32".toList, 0x27#8, .bare), ("R_U64".toList, 0x28#8, .bare), ("R_TELL".toList, 0x29#8, .bare)]

/-- The row of a mnemonic. -/
def asmRow (name : List Char) : List (List Char × BitVec 8 × AsmShape) → Option (BitVec 8 × AsmShape)
  | [] => none
  | (m, row) :: t => if name = m then some row else asmRow name t

/-- The N field of an operand: an unsigned 32-bit number, refused outside `0 .. 2^32 - 1` (30_encoding.md R69). -/
def asmN (n : Int) : Option (BitVec 32) := if 0 ≤ n ∧ n ≤ 4294967295 then some (BitVec.ofInt 32 n) else none

/-- The V field of an operand: `trunc_64` of its two's-complement form, refused outside `-2^63 .. 2^64 - 1` (30_encoding.md
R69). -/
def asmV (v : Int) : Option (BitVec 64) :=
  if -9223372036854775808 ≤ v ∧ v ≤ 18446744073709551615 then some (BitVec.ofInt 64 v) else none

/-- The command word of an OP with its operands; none where the number of operands is wrong or one is out of range. -/
def asmWord (op : BitVec 8) (shape : AsmShape) (operands : List Int) : Option CommandWord :=
  match shape, operands with
  | .valueCount, [v, n] =>
    match asmV v, asmN n with
    | some v', some n' => some (commandWord op n' v')
    | _, _ => none
  | .value, [v] => (asmV v).map fun v' => commandWord op 0#32 v'
  | .count, [n] => (asmN n).map fun n' => commandWord op n' 0#64
  | .bare, [] => some (commandWord op 0#32 0#64)
  | _, _ => none

/-- The command word of a line (30_encoding.md R69). -/
def assemble (l : AsmLine) : Option CommandWord :=
  match asmRow l.mnemonic asmTable with
  | some (op, shape) => asmWord op shape l.operands
  | none => none

/-! ## Text -/

/-- A blank between tokens. -/
def asmBlank (c : Char) : Bool := decide (c = ' ' ∨ c = '\t')

/-- Text without blanks at its ends. -/
def asmTrim (cs : List Char) : List Char := ((cs.dropWhile asmBlank).reverse.dropWhile asmBlank).reverse

/-- Text cut at every `c`. -/
def asmSplit (c : Char) : List Char → List (List Char)
  | [] => [[]]
  | d :: ds =>
    if d = c then [] :: asmSplit c ds
    else
      match asmSplit c ds with
      | [] => [[d]]
      | part :: parts => (d :: part) :: parts

/-- The value of a digit in a base up to 16. -/
def asmDigit (base : Nat) (c : Char) : Option Nat :=
  let n := c.toNat
  let v := if 48 ≤ n ∧ n ≤ 57 then n - 48 else if 97 ≤ n ∧ n ≤ 102 then n - 87 else if 65 ≤ n ∧ n ≤ 70 then n - 55 else base
  if v < base then some v else none

/-- A run of digits after `acc`. -/
def asmDigits (base acc : Nat) : List Char → Option Nat
  | [] => some acc
  | c :: cs =>
    match asmDigit base c with
    | some d => asmDigits base (acc * base + d) cs
    | none => none

/-- A natural number: `0x` hex, `0b` binary, or decimal (30_encoding.md R69). -/
def asmNat (cs : List Char) : Option Nat :=
  match cs with
  | [] => none
  | '0' :: 'x' :: d :: ds => asmDigits 16 0 (d :: ds)
  | '0' :: 'b' :: d :: ds => asmDigits 2 0 (d :: ds)
  | c :: ds => asmDigits 10 0 (c :: ds)

/-- An operand: a natural number, with an optional `-` (30_encoding.md R69). -/
def asmInt (cs : List Char) : Option Int :=
  match cs with
  | '-' :: ds => (asmNat ds).map fun n => -(n : Int)
  | _ => (asmNat cs).map fun n => (n : Int)

/-- Every operand of a list, or none. -/
def asmOperands : List (List Char) → Option (List Int)
  | [] => some []
  | cs :: rest =>
    match asmInt (asmTrim cs), asmOperands rest with
    | some n, some ns => some (n :: ns)
    | _, _ => none

/-- A unit instance: `w` or `r` and its number in decimal digits (30_encoding.md R69). -/
def asmUnit (cs : List Char) : Option Port :=
  match cs with
  | 'w' :: d :: ds => (asmDigits 10 0 (d :: ds)).map Port.writer
  | 'r' :: d :: ds => (asmDigits 10 0 (d :: ds)).map Port.reader
  | _ => none

/-- A mnemonic and its operands. -/
def asmBody (unit : Option Port) (cs : List Char) : Option AsmLine :=
  let name := (asmTrim cs).takeWhile fun c => !asmBlank c
  let rest := asmTrim ((asmTrim cs).dropWhile fun c => !asmBlank c)
  match rest with
  | [] => some { unit := unit, mnemonic := name, operands := [] }
  | c :: cs' => (asmOperands (asmSplit ',' (c :: cs'))).map fun ops => { unit := unit, mnemonic := name, operands := ops }

/-- `line := [instance ':'] mnemonic [operand (',' operand)*] [';' comment]` (30_encoding.md R69). -/
def asmParse (cs : List Char) : Option AsmLine :=
  match asmSplit ':' (cs.takeWhile fun c => decide (c ≠ ';')) with
  | [body] => asmBody none body
  | [unit, body] =>
    match asmUnit (asmTrim unit) with
    | some p => asmBody (some p) body
    | none => none
  | _ => none

/-- The host action a line of text stands for: its command word, presented on its unit's port, or on `unit` where the line
names none (30_encoding.md R69). -/
def asmAction (unit : Port) (cs : List Char) : Option HostAction :=
  match asmParse cs with
  | some l => (assemble l).map fun w => .command (l.unit.getD unit) w
  | none => none

/-- The line that stands for a command (30_encoding.md R69). -/
def asmLine : Instr → AsmLine
  | .wBits v n => { unit := none, mnemonic := "W_BITS".toList, operands := [(v.toNat : Int), (n : Int)] }
  | .wSbits v n => { unit := none, mnemonic := "W_SBITS".toList, operands := [v, (n : Int)] }
  | .wU8 v => { unit := none, mnemonic := "W_U8".toList, operands := [(v.toNat : Int)] }
  | .wU16 v => { unit := none, mnemonic := "W_U16".toList, operands := [(v.toNat : Int)] }
  | .wU32 v => { unit := none, mnemonic := "W_U32".toList, operands := [(v.toNat : Int)] }
  | .wI16 v => { unit := none, mnemonic := "W_I16".toList, operands := [v] }
  | .wI32 v => { unit := none, mnemonic := "W_I32".toList, operands := [v] }
  | .wU64 v => { unit := none, mnemonic := "W_U64".toList, operands := [(v.toNat : Int)] }
  | .wTell => { unit := none, mnemonic := "W_TELL".toList, operands := [] }
  | .wRewind p => { unit := none, mnemonic := "W_REWIND".toList, operands := [(p : Int)] }
  | .wClose => { unit := none, mnemonic := "W_CLOSE".toList, operands := [] }
  | .wOctets => { unit := none, mnemonic := "W_OCTETS".toList, operands := [] }
  | .wCopy n => { unit := none, mnemonic := "W_COPY".toList, operands := [(n : Int)] }
  | .rBits n => { unit := none, mnemonic := "R_BITS".toList, operands := [(n : Int)] }
  | .rSbits n => { unit := none, mnemonic := "R_SBITS".toList, operands := [(n : Int)] }
  | .rU8 => { unit := none, mnemonic := "R_U8".toList, operands := [] }
  | .rU16 => { unit := none, mnemonic := "R_U16".toList, operands := [] }
  | .rU32 => { unit := none, mnemonic := "R_U32".toList, operands := [] }
  | .rI16 => { unit := none, mnemonic := "R_I16".toList, operands := [] }
  | .rI32 => { unit := none, mnemonic := "R_I32".toList, operands := [] }
  | .rU64 => { unit := none, mnemonic := "R_U64".toList, operands := [] }
  | .rTell => { unit := none, mnemonic := "R_TELL".toList, operands := [] }

end Sys2Proof.Machine
end

