-- ==== Sys2Proof/Safety.lean ====
section
/-! DEFINITION. What a sound state is, and the terms claims are stated in: the bit streams of 40_writer.md R100 and
41_reader.md R121, the invariants of 10_state.md and 60_exceptions.md, the effect of a field on a writer and of a read on a
reader, and the message of 70_reset_and_hazards.md R168. -/

namespace Sys2Proof.Machine

/-! ## Bits in stream order -/

/-- The low `k` bits of a word, most significant first: a field in stream order (00_scope.md R11, 40_writer.md R82). -/
def fieldBits (v : Word) (k : Nat) : List Bool := (List.range k).map fun i => v.getLsbD (k - 1 - i)

/-- A list of bits, most significant first, as a number. -/
def bitsValue (bits : List Bool) : Nat := bits.foldl (fun acc b => 2 * acc + b.toNat) 0

/-- At most 32 bits, most significant first, as a word. -/
def bitsWord (bits : List Bool) : Word := BitVec.ofNat 32 (bitsValue bits)

/-- Bits padded with zeros to a multiple of 8 and cut into bytes, MSB-first (40_writer.md R100). -/
def packBytes (bits : List Bool) : List Byte :=
  (List.range (ceilDiv bits.length 8)).map fun j =>
    BitVec.ofNat 8 (bitsValue ((List.range 8).map fun i => bits.getD (8 * j + i) false))

/-- Stream bit `i` of a writer: bit `7 - (i mod 8)` of byte `floor(i / 8)` of its logical stream (20_memory.md R40,
R50). -/
def Writer.streamBit (w : Writer) (i : Nat) : Bool := (w.outByte (i / 8)).getLsbD (7 - i % 8)

/-- The committed bits of a writer, `B(W)` (40_writer.md R100). -/
def Writer.stream (w : Writer) : List Bool := (List.range w.tell).map w.streamBit

/-- Bit `i` of `S`: the source's octets, each MSB-first, then zeros without end (41_reader.md R121). -/
def srcBit (src : List Byte) (i : Nat) : Bool :=
  match src[i / 8]? with
  | some b => b.getLsbD (7 - i % 8)
  | none => false

/-- `S[t .. t+k-1]` (41_reader.md R121). -/
def srcBits (src : List Byte) (t k : Nat) : List Bool := (List.range k).map fun i => srcBit src (t + i)

/-- The tag bits of a field: 4 type bits and 7 width bits in debug mode, none in plain mode (42_debug_tags.md R125). -/
def tagBits (debug : Bool) (t : TagType) (width : Nat) : List Bool :=
  if debug = true then fieldBits (tagCode t) 4 ++ fieldBits (BitVec.ofNat 32 width) 7 else []

/-- A sign-magnitude field: the sign bit, then `|v| mod 2^(k-1)` in k - 1 bits (40_writer.md R83). -/
def signedBits (v : Int) (k : Nat) : List Bool :=
  decide (v < 0) :: fieldBits (BitVec.ofNat 32 (v.natAbs % 2 ^ (k - 1))) (k - 1)

/-- The integer a sign-magnitude field stands for (41_reader.md R109). -/
def signedValue : List Bool → Int
  | [] => 0
  | s :: m => if s = true then -(bitsValue m : Int) else (bitsValue m : Int)

/-! ## Invariants -/

/-- What every step keeps of a writer: the held count and the tell (10_state.md R20 to R24), the capacity's bounds (00_scope.md
R8), the canonical buffer, and the values FAULT can take (60_exceptions.md R142). -/
abbrev Writer.Ok (w : Writer) : Prop :=
  w.held ≤ 32 ∧ w.cursor % 4 = 0 ∧ w.tell = 8 * w.cursor + w.held ∧ w.tell ≤ 8 * w.cap ∧
    w.acc &&& mask (32 - w.held) = 0#32 ∧ w.cap % 4 = 0 ∧ w.cap ≤ Config.maxCap ∧ memWf w.buf = true ∧
    memBelow w.cap w.buf = true ∧
    (w.fault = 0x00#8 ∨ w.fault = 0x80#8 ∨ w.fault = 0x81#8 ∨ w.fault = 0x82#8)

/-- What every step keeps of a reader: the held count, the budget and the source position (10_state.md R29 to R32), that the
held bits are the next bits of the stream (R28, 41_reader.md R121), and the values FAULT can take (60_exceptions.md R142). -/
abbrev Reader.Ok (r : Reader) : Prop :=
  r.held ≤ 32 ∧ r.tell + r.budget = r.len ∧ r.len ≤ Config.maxBudget ∧ r.srcPos ≤ r.src.length ∧
    (8 * r.srcPos = r.tell + r.held ∨ (r.held = 0 ∧ r.srcPos = r.src.length ∧ 8 * r.srcPos ≤ r.tell)) ∧
    (∀ i < r.held, r.acc.getLsbD (r.held - 1 - i) = srcBit r.src (r.tell + i)) ∧
    (r.fault = 0x00#8 ∨ r.fault = 0x80#8)

/-- What every step keeps of the system: the tables in canonical form, every unit sound, and every pair constructed
(70_reset_and_hazards.md R167). -/
abbrev State.Ok (s : State) : Prop :=
  tableWf s.writers = true ∧ tableWf s.readers = true ∧
    (∀ p ∈ s.writers, p.2.Ok ∧ (p.2.pair.all fun rid => (s.reader? rid).isSome) = true) ∧ ∀ p ∈ s.readers, p.2.Ok

/-- The state's port is writer `id`'s, and that writer is `w`. -/
abbrev State.AtWriter (s : State) (id : Nat) (w : Writer) : Prop := s.port = .writer id ∧ s.writer? id = some w

/-- The state's port is reader `id`'s, and that reader is `r`. -/
abbrev State.AtReader (s : State) (id : Nat) (r : Reader) : Prop := s.port = .reader id ∧ s.reader? id = some r

/-- A sound writer that is neither faulted nor closed: its prologue lets every writer command but an unpaired W_COPY through
(40_writer.md R76). -/
abbrev Writer.Open (w : Writer) : Prop := w.Ok ∧ w.fault = 0#8 ∧ w.closed = false

/-- A sound reader that is not faulted (41_reader.md R102). -/
abbrev Reader.Open (r : Reader) : Prop := r.Ok ∧ r.fault = 0#8

/-! ## Effects -/

/-- The configuration registers and the status registers of a writer are the same (10_state.md R25 to R27). -/
abbrev Writer.SameConfig (w w' : Writer) : Prop :=
  w'.cap = w.cap ∧ w'.debug = w.debug ∧ w'.pair = w.pair ∧ w'.closed = w.closed ∧ w'.fault = w.fault

/-- `w'` is `w` with a nonempty run of bits committed: the bits stand at the end of the stream, the tell counts them, the
word cursor is that of the word the last bit stands in, the held count is what is left, and no byte of the buffer has
changed but those of the words from `w`'s cursor up to the new one (40_writer.md R78, R100; 20_memory.md R47). -/
abbrev Writer.Appended (w w' : Writer) (bits : List Bool) : Prop :=
  w'.stream = w.stream ++ bits ∧ w'.tell = w.tell + bits.length ∧ w'.cursor = 4 * ((w.tell + bits.length - 1) / 32) ∧
    w'.held = w.tell + bits.length - 32 * ((w.tell + bits.length - 1) / 32) ∧ w'.Ok ∧ w.SameConfig w' ∧
    ∀ a, a < w.cursor ∨ 4 * ((w.tell + bits.length - 1) / 32) ≤ a → readByte w'.buf a = readByte w.buf a

/-- `w'` is `w` with its write position moved back to bit `p`: the stream is cut there, the word cursor and the held count are
those of `p`, and no byte of the buffer has changed but those of the pending word, flushed when it held bits (40_writer.md
R93 to R95). -/
abbrev Writer.Rewound (w w' : Writer) (p : Nat) : Prop :=
  w'.stream = w.stream.take p ∧ w'.tell = p ∧ w'.cursor = 4 * (p / 32) ∧ w'.held = p % 32 ∧ w'.Ok ∧ w.SameConfig w' ∧
    ∀ a, w.held = 0 ∨ a < w.cursor ∨ w.cursor + 4 ≤ a → readByte w'.buf a = readByte w.buf a

/-- `w'` is `w` closed: CLOSED is set, every committed byte stands in the buffer, the logical stream and every other register
are the same, and no byte of the buffer has changed but the `ceil(HELD/8)` from the cursor on (40_writer.md R96). -/
abbrev Writer.ClosedAs (w w' : Writer) : Prop :=
  w'.closed = true ∧ w'.acc = w.acc ∧ w'.held = w.held ∧ w'.cursor = w.cursor ∧ w'.tell = w.tell ∧ w'.fault = w.fault ∧
    w'.cap = w.cap ∧ w'.debug = w.debug ∧ w'.pair = w.pair ∧ w'.Ok ∧ w'.out = w.out ∧
    (∀ i, i < ceilDiv w.tell 8 → readByte w'.buf i = w.outByte i) ∧
    ∀ a, a < w.cursor ∨ w.cursor + ceilDiv w.held 8 ≤ a → readByte w'.buf a = readByte w.buf a

/-- `r'` is `r` with `k` bits consumed; the configuration and FAULT registers are the same (41_reader.md R105, 10_state.md
R34). -/
abbrev Reader.Consumed (r r' : Reader) (k : Nat) : Prop :=
  r'.tell = r.tell + k ∧ r'.budget + k = r.budget ∧ r'.Ok ∧ r'.len = r.len ∧ r'.debug = r.debug ∧ r'.src = r.src ∧
    r'.fault = r.fault

/-- How many tag bits a typed field has in a mode (42_debug_tags.md R125, R131). -/
def tagWidth (debug : Bool) : Nat := if debug = true then 11 else 0

/-- The next bits of a debug reader's stream are the tag a command expects; on a plain reader nothing is asked
(42_debug_tags.md R132). -/
abbrev Reader.TagMatches (r : Reader) (t : TagType) (width : Nat) : Prop :=
  srcBits r.src r.tell (tagWidth r.debug) = tagBits r.debug t width

/-- The state with a response given on its port and writer `id` as given: the end of a writer command. -/
def State.withWriter (s : State) (id : Nat) (w : Writer) (resp : Response) : State := (s.setWriter id w).respond resp

/-- The state with a response given on its port and reader `id` as given: the end of a reader command. -/
def State.withReader (s : State) (id : Nat) (r : Reader) (resp : Response) : State := (s.setReader id r).respond resp

/-- The state with reader `id` and writer `wid` as given and a response: the end of a W_COPY. -/
def State.withPair (s : State) (wid : Nat) (w : Writer) (rid : Nat) (r : Reader) (resp : Response) : State :=
  ((s.setWriter wid w).setReader rid r).respond resp

/-! ## Typed commands as sequences of primitives -/

/-- The primitive writes of a field's tag (42_debug_tags.md R129). -/
def tagGroups (debug : Bool) (t : TagType) (width : Nat) : List (List Bool) :=
  if debug = true then [fieldBits (tagCode t) 4, fieldBits (BitVec.ofNat 32 width) 7] else []

/-- The primitive writes of a sign-magnitude field (40_writer.md R85). -/
def signedGroups (v : Int) (k : Nat) : List (List Bool) :=
  [[decide (v < 0)], fieldBits (BitVec.ofNat 32 (v.natAbs % 2 ^ (k - 1))) (k - 1)]

/-- A typed writer command with a legal count: its tag's type and width (42_debug_tags.md R126), and the bits of each of its
own primitive writes (40_writer.md R84 to R91). -/
def writerField : Instr → Option (TagType × Nat × List (List Bool))
  | .wBits v n => if 1 ≤ n ∧ n ≤ 32 then some (.unsigned, n, [fieldBits v n]) else none
  | .wSbits v n => if 2 ≤ n ∧ n ≤ 32 then some (.signed, n, signedGroups v n) else none
  | .wU8 v => some (.uint8, 8, [fieldBits (v.setWidth 32) 8])
  | .wU16 v => some (.uint16, 16, [fieldBits (v.setWidth 32) 16])
  | .wU32 v => some (.uint32, 32, [fieldBits v 32])
  | .wI16 v => some (.int16, 16, signedGroups v 16)
  | .wI32 v => some (.int32, 32, signedGroups v 32)
  | .wU64 v => some (.uint64, 64, [fieldBits (v.extractLsb' 32 32) 32, fieldBits (v.extractLsb' 0 32) 32])
  | .wTell => none
  | .wRewind _ => none
  | .wClose => none
  | .wOctets => none
  | .wCopy _ => none
  | .rBits _ => none
  | .rSbits _ => none
  | .rU8 => none
  | .rU16 => none
  | .rU32 => none
  | .rI16 => none
  | .rI32 => none
  | .rU64 => none
  | .rTell => none

/-- A typed reader command with a legal count: its tag's type and width (42_debug_tags.md R126), and the counts of its own
primitive reads (41_reader.md R111 to R118). -/
def readerField : Instr → Option (TagType × Nat × List Nat)
  | .wBits _ _ => none
  | .wSbits _ _ => none
  | .wU8 _ => none
  | .wU16 _ => none
  | .wU32 _ => none
  | .wI16 _ => none
  | .wI32 _ => none
  | .wU64 _ => none
  | .wTell => none
  | .wRewind _ => none
  | .wClose => none
  | .wOctets => none
  | .wCopy _ => none
  | .rBits n => if 1 ≤ n ∧ n ≤ 32 then some (.unsigned, n, [n]) else none
  | .rSbits n => if 2 ≤ n ∧ n ≤ 32 then some (.signed, n, [1, n - 1]) else none
  | .rU8 => some (.uint8, 8, [8])
  | .rU16 => some (.uint16, 16, [16])
  | .rU32 => some (.uint32, 32, [32])
  | .rI16 => some (.int16, 16, [1, 15])
  | .rI32 => some (.int32, 32, [1, 31])
  | .rU64 => some (.uint64, 64, [32, 32])
  | .rTell => none

/-- The counts of the primitive reads of a field's tag (42_debug_tags.md R132). -/
def tagCounts (debug : Bool) : List Nat := if debug = true then [4, 7] else []

/-- Whether a command reads its count or position from N (30_encoding.md R61, R64, R65). -/
def usesN : Instr → Bool
  | .wBits _ _ => true
  | .wSbits _ _ => true
  | .wRewind _ => true
  | .wCopy _ => true
  | .rBits _ => true
  | .rSbits _ => true
  | .wU8 _ => false
  | .wU16 _ => false
  | .wU32 _ => false
  | .wI16 _ => false
  | .wI32 _ => false
  | .wU64 _ => false
  | .wTell => false
  | .wClose => false
  | .wOctets => false
  | .rU8 => false
  | .rU16 => false
  | .rU32 => false
  | .rI16 => false
  | .rI32 => false
  | .rU64 => false
  | .rTell => false

/-- How many low bits of V a command uses (30_encoding.md R62). -/
def usedV : Instr → Nat
  | .wBits _ _ => 32
  | .wSbits _ _ => 32
  | .wU8 _ => 8
  | .wU16 _ => 16
  | .wU32 _ => 32
  | .wI16 _ => 16
  | .wI32 _ => 32
  | .wU64 _ => 64
  | .wTell => 0
  | .wRewind _ => 0
  | .wClose => 0
  | .wOctets => 0
  | .wCopy _ => 0
  | .rBits _ => 0
  | .rSbits _ => 0
  | .rU8 => 0
  | .rU16 => 0
  | .rU32 => 0
  | .rI16 => 0
  | .rI32 => 0
  | .rU64 => 0
  | .rTell => 0

/-! ## Messages and unobservable contents -/

/-- The message of a writer run: the logical stream of a writer that has closed and has not faulted
(70_reset_and_hazards.md R168). -/
def Writer.message (w : Writer) : Option (List Byte) := if w.closed = true ∧ w.fault = 0#8 then some w.out else none

/-- Two writers with the same committed bits, configuration and status: they may differ in whether a full accumulator has been
flushed (10_state.md R36, 40_writer.md R80) and in every buffer byte that no response shows (70_reset_and_hazards.md
R166). -/
abbrev Writer.Alike (w w' : Writer) : Prop := w'.stream = w.stream ∧ w'.tell = w.tell ∧ w.SameConfig w'

/-- Two systems whose units are the same by number, readers equal and writers alike one by one, and everything else equal. -/
abbrev State.Alike (s s' : State) : Prop :=
  s'.readers = s.readers ∧ s'.input = s.input ∧ s'.port = s.port ∧ s'.transcript = s.transcript ∧
    List.Forall₂ (fun p q => q.1 = p.1 ∧ p.2.Alike q.2) s.writers s'.writers

/-- A writer with its full accumulator flushed at once, as an eager engine would (40_writer.md R80, 92_eei_decisions.md
D7). -/
def Writer.flushedFull (w : Writer) : Writer :=
  { w with buf := storeBytes w.buf w.cursor w.acc 4, acc := 0#32, held := 0, cursor := w.cursor + 4 }

/-! ## Sequences of primitives -/

/-- A writer's fields one after another (40_writer.md R101). -/
def Writer.pwrites : List (Word × Nat) → Writer → Prim Writer Unit
  | [], w => .done () w
  | (v, k) :: fs, w => primBind (w.pwrite v k) fun _ w' => Writer.pwrites fs w'

/-- A reader's primitive reads one after another, with their values (41_reader.md R121). -/
def Reader.preads : List Nat → Reader → Prim Reader (List Word)
  | [], r => .done [] r
  | k :: ks, r => primBind (r.pread k) fun x r' => primBind (Reader.preads ks r') fun xs r'' => .done (x :: xs) r''

/-- What a history of a writer consists of for its stream (40_writer.md R100). -/
inductive StreamOp where
  | write (v : Word) (k : Nat)
  | rewind (p : Nat)
  deriving DecidableEq, Repr

/-- A history run on a writer: primitive writes and accepted rewinds (40_writer.md R78, R93). -/
def Writer.runOps : List StreamOp → Writer → Prim Writer Unit
  | [], w => .done () w
  | .write v k :: ops, w => primBind (w.pwrite v k) fun _ w' => Writer.runOps ops w'
  | .rewind p :: ops, w =>
    if w.tell < p then raiseError .rewindOutOfRange (dataPair p w.tell) w
    else primBind (w.rewindTo p) fun _ w' => Writer.runOps ops w'

/-- `B(W)` after a history: writes append, accepted rewinds truncate (40_writer.md R100). -/
def committedBits : List StreamOp → List Bool → List Bool
  | [], bits => bits
  | .write v k :: ops, bits => committedBits ops (bits ++ fieldBits v k)
  | .rewind p :: ops, bits => committedBits ops (bits.take p)

/-- Every write of a history has a legal count (40_writer.md R78). -/
def opsLegal (ops : List StreamOp) : Bool :=
  ops.all fun op =>
    match op with
    | .write _ k => decide (1 ≤ k ∧ k ≤ 32)
    | .rewind _ => true

end Sys2Proof.Machine
end

