-- ==== Sys2Proof/Certificates/Slice0/Obligations.lean ====
section
/-! DEFINITION. The statements for the provers, from the numbered rules of spec/. -/

open Sys2Proof Sys2Proof.Machine

/-! ## Encoding -/

/-- Decoding the word of a well-formed command gives the command back, with every operand (30_encoding.md R60, R61, R62, R64,
R65). -/
def Obligations.DecodeEncodeRoundTrip : Prop :=
  ∀ i : Instr, i.wellFormed = true → decode (encode i) = .command i

/-- Words written out in 30_encoding.md R68 and 95_test_vectors.md decode to the commands they stand for. -/
def Obligations.PublishedWordsDecode : Prop :=
  decode 0x0100000014_00000000000CAFED#104 = .command (.wBits 0xCAFED#32 20) ∧
    decode 0x0200000008_FFFFFFFFFFFFFFFB#104 = .command (.wSbits (-5) 8) ∧
    decode 0x0600000000_FFFFFFFFFFFF8000#104 = .command (.wI16 (-32768)) ∧
    decode 0x0800000000_0123456789ABCDEF#104 = .command (.wU64 0x0123456789ABCDEF#64) ∧
    decode 0x0AFFFFFFFF_0000000000000000#104 = .command (.wRewind 0xFFFFFFFF) ∧
    decode 0x2200000008_0000000000000000#104 = .command (.rSbits 8) ∧
    decode 0x2900000000_0000000000000000#104 = .command .rTell ∧
    decode 0x2A00000000_0000000000000000#104 = .illegal 0x2A#8

/-- Bits of N and V that a command does not use are ignored: two words with the same OP and the same used bits decode alike
(30_encoding.md R63). -/
def Obligations.UnusedFieldBitsAreIgnored : Prop :=
  ∀ (w w' : CommandWord) (i : Instr), decode w = .command i → wordOp w' = wordOp w →
    (usesN i = true → wordN w' = wordN w) → (wordV w').setWidth (usedV i) = (wordV w).setWidth (usedV i) →
    decode w' = .command i

/-- A word is rejected, by its OP, exactly when that OP is 0x00, 0x0E to 0x20 or 0x2A to 0xFF (30_encoding.md R66). -/
def Obligations.IllegalOpcodesAreRejected : Prop :=
  ∀ w : CommandWord, decode w = .illegal (wordOp w) ↔
    (wordOp w).toNat = 0 ∨ (0x0E ≤ (wordOp w).toNat ∧ (wordOp w).toNat ≤ 0x20) ∨ 0x2A ≤ (wordOp w).toNat

/-- What decodes is well formed and has the word's OP (30_encoding.md R61, R62, R64, R65). -/
def Obligations.DecodedCommandsAreWellFormed : Prop :=
  ∀ (w : CommandWord) (i : Instr), decode w = .command i → i.wellFormed = true ∧ i.op = wordOp w

/-- The assembler line of a well-formed command assembles to the command's word (30_encoding.md R69). -/
def Obligations.AssembledLinesEncode : Prop :=
  ∀ i : Instr, i.wellFormed = true → assemble (asmLine i) = some (encode i)

/-- The status codes (30_encoding.md R72). -/
def Obligations.StatusCodesAreAsListed : Prop :=
  statusCode .ok = 0x00#8 ∧ statusCode .widthError = 0x01#8 ∧ statusCode .eofError = 0x02#8 ∧
    statusCode .rewindOutOfRange = 0x03#8 ∧ statusCode .debugTagMismatch = 0x04#8 ∧
    statusCode .illegalCommand = 0x05#8 ∧ statusCode .faultAccumulatorInvariant = 0x80#8 ∧
    statusCode .faultCapacityOverflow = 0x81#8 ∧ statusCode .faultUseAfterClose = 0x82#8 ∧
    statusCode .faulted = 0xFF#8 ∧
    ∀ st : Status, ¬ (0x06 ≤ (statusCode st).toNat ∧ (statusCode st).toNat ≤ 0x7F) ∧
      ¬ (0x83 ≤ (statusCode st).toNat ∧ (statusCode st).toNat ≤ 0xFE)

/-- Where the payload fields of a response stand in DATA (30_encoding.md R73): pairs, the rejected count, the OP or FAULT
byte, and the observed and expected tag. -/
def Obligations.PayloadFieldsStandAsListed : Prop :=
  (∀ hi lo : Nat, (dataPair hi lo).extractLsb' 32 32 = BitVec.ofNat 32 hi ∧
      (dataPair hi lo).extractLsb' 0 32 = BitVec.ofNat 32 lo) ∧
    (∀ n : Nat, n < 2 ^ 32 → (dataCount n).toNat = n) ∧ (∀ b : BitVec 8, (dataByte b).toNat = b.toNat) ∧
    ∀ ot ow et ew : Word,
      (dataTags ot ow et ew).extractLsb' 0 4 = ot.setWidth 4 ∧ (dataTags ot ow et ew).extractLsb' 4 4 = 0#4 ∧
        (dataTags ot ow et ew).extractLsb' 8 7 = ow.setWidth 7 ∧ (dataTags ot ow et ew).extractLsb' 15 1 = 0#1 ∧
        (dataTags ot ow et ew).extractLsb' 16 4 = et.setWidth 4 ∧ (dataTags ot ow et ew).extractLsb' 20 4 = 0#4 ∧
        (dataTags ot ow et ew).extractLsb' 24 7 = ew.setWidth 7 ∧ (dataTags ot ow et ew).extractLsb' 31 33 = 0#33

/-! ## Steps, construction and illegal commands -/

/-- When the oldest host action presents a word that decodes to a well-formed command, the step is that command run on the
port, the action taken from the input (30_encoding.md R59, 20_memory.md R44). -/
def Obligations.StepRunsDecodedCommand : Prop :=
  ∀ (s : State) (p : Port) (w : CommandWord) (rest : List HostAction) (i : Instr),
    s.input = .command p w :: rest → decode w = .command i → i.wellFormed = true →
    step s = exec i { s with input := rest, port := p }

/-- A word whose OP names no command is answered ILLEGAL_COMMAND with its OP, or FAULTED by a faulted unit, and changes no
register (30_encoding.md R66, 60_exceptions.md R143, R144, R150). -/
def Obligations.IllegalWordsAreAnswered : Prop :=
  ∀ (s : State) (p : Port) (w : CommandWord) (rest : List HostAction) (op : BitVec 8), s.Ok →
    s.input = .command p w :: rest → decode w = .illegal op →
    (∀ id u, p = .writer id → s.writer? id = some u →
      step s = .next (({ s with input := rest, port := p } : State).respond
        (if u.fault = 0#8 then errorResponse .illegalCommand (dataByte op)
          else errorResponse .faulted (dataByte u.fault)))) ∧
    (∀ id u, p = .reader id → s.reader? id = some u →
      step s = .next (({ s with input := rest, port := p } : State).respond
        (if u.fault = 0#8 then errorResponse .illegalCommand (dataByte op)
          else errorResponse .faulted (dataByte u.fault))))

/-- A reader command on an unfaulted writer, a writer command on an unfaulted reader, and W_COPY on an unfaulted writer with
no pair are answered ILLEGAL_COMMAND and change no register, closed or not (30_encoding.md R66, 60_exceptions.md R144). -/
def Obligations.ForeignCommandsAreIllegal : Prop :=
  ∀ (s : State) (i : Instr), s.Ok →
    (∀ id w, s.AtWriter id w → w.fault = 0#8 → i.isWriterCommand = false →
      exec i s = .next (s.respond (errorResponse .illegalCommand (dataByte i.op)))) ∧
    (∀ id r, s.AtReader id r → r.fault = 0#8 → i.isWriterCommand = true →
      exec i s = .next (s.respond (errorResponse .illegalCommand (dataByte i.op)))) ∧
    (∀ id w n, s.AtWriter id w → w.fault = 0#8 → w.pair = none →
      exec (.wCopy n) s = .next (s.respond (errorResponse .illegalCommand (dataByte 0x0D#8))))

/-- While FAULT is not 0x00, every command to the unit answers FAULTED with the register's value and changes no register; so
does a W_COPY whose paired reader is faulted, with the reader's value (60_exceptions.md R143). -/
def Obligations.FaultedUnitsAnswerFaulted : Prop :=
  ∀ s : State, s.Ok →
    (∀ id w i, s.AtWriter id w → w.fault ≠ 0#8 →
      exec i s = .next (s.respond (errorResponse .faulted (dataByte w.fault)))) ∧
    (∀ id w op, s.AtWriter id w → w.fault ≠ 0#8 →
      illegalCommand op s = .next (s.respond (errorResponse .faulted (dataByte w.fault)))) ∧
    (∀ id r i, s.AtReader id r → r.fault ≠ 0#8 →
      exec i s = .next (s.respond (errorResponse .faulted (dataByte r.fault)))) ∧
    (∀ id r op, s.AtReader id r → r.fault ≠ 0#8 →
      illegalCommand op s = .next (s.respond (errorResponse .faulted (dataByte r.fault)))) ∧
    (∀ id w rid r n, s.AtWriter id w → w.fault = 0#8 → w.closed = false → w.pair = some rid →
      s.reader? rid = some r → r.fault ≠ 0#8 →
      exec (.wCopy n) s = .next (s.respond (errorResponse .faulted (dataByte r.fault))))

/-- On a closed, unfaulted writer every writer command but W_TELL, W_OCTETS and an unpaired W_COPY takes the fatal fault
FAULT_USE_AFTER_CLOSE: its code goes into FAULT and nothing else changes (60_exceptions.md R141, R147, R150). -/
def Obligations.ClosedWritersTakeUseAfterClose : Prop :=
  ∀ (s : State) (i : Instr) (id : Nat) (w : Writer), s.AtWriter id w → w.fault = 0#8 → w.closed = true →
    i.isWriterCommand = true → i ≠ .wTell → i ≠ .wOctets → (∀ n, i = .wCopy n → w.pair ≠ none) →
    exec i s = .next (s.withWriter id { w with fault := 0x82#8 } (errorResponse .faultUseAfterClose 0#64))

/-- Constructing a writer with legal arguments leaves the registers of 70_reset_and_hazards.md R162, and a buffer that holds
the fill. The model's own are that it does so whatever was there under that number before (log 6, deduced), that a byte past
the fill reads zero (log 3), and the transcript's mark of the construction (log 5). -/
def Obligations.WriterConstructionResets : Prop :=
  ∀ (s : State) (id cap : Nat) (debug : Bool) (pair : Option Nat) (fill : List Byte) (rest : List HostAction),
    s.input = .constructWriter id cap debug pair fill :: rest → cap % 4 = 0 → cap ≤ 2 ^ 28 →
    (∀ rid, pair = some rid → (s.reader? rid).isSome = true) →
    ∃ t w, step s = .next t ∧ t.writer? id = some w ∧ w.acc = 0#32 ∧ w.held = 0 ∧ w.cursor = 0 ∧ w.tell = 0 ∧
      w.closed = false ∧ w.fault = 0x00#8 ∧ w.cap = cap ∧ w.debug = debug ∧ w.pair = pair ∧
      (∀ a, readByte w.buf a = if a < cap then fill.getD a 0#8 else 0#8) ∧ t.readers = s.readers ∧ t.input = rest ∧
      (∀ other, other ≠ id → t.writer? other = s.writer? other) ∧
      t.transcript = .constructed (.writer id) :: s.transcript

/-- Constructing a reader with a legal L leaves the registers of 70_reset_and_hazards.md R163 and starts a run of which nothing
is observed yet (R169); every other port's observation is as before. The model's own are that it does so whatever was there
under that number before (log 6, deduced), the counter of pulls (log 15) and the transcript's mark of the construction (log
5). -/
def Obligations.ReaderConstructionResets : Prop :=
  ∀ (s : State) (id len : Nat) (src : List Byte) (debug : Bool) (rest : List HostAction),
    s.input = .constructReader id len src debug :: rest → len ≤ 2 ^ 32 - 1 →
    ∃ t r, step s = .next t ∧ t.reader? id = some r ∧ r.acc = 0#32 ∧ r.held = 0 ∧ r.tell = 0 ∧ r.budget = len ∧
      r.srcPos = 0 ∧ r.pulls = 0 ∧ r.fault = 0x00#8 ∧ r.len = len ∧ r.debug = debug ∧ r.src = src ∧
      t.writers = s.writers ∧ t.input = rest ∧ (∀ other, other ≠ id → t.reader? other = s.reader? other) ∧
      t.transcript = .constructed (.reader id) :: s.transcript ∧ t.observation (.reader id) = [] ∧
      ∀ q, q ≠ .reader id → t.observation q = s.observation q

/-- A construction is refused exactly when its CAP is not a multiple of 4 or above 2^28, or its PAIR is no constructed reader,
or its L is above 2^32 - 1. The legal values are those of 00_scope.md R8 and R9; R8 demands the refusal only of a CAP that is
not a multiple of 4, and the refusal of the others, a PAIR that is no constructed reader among them, is the model's deduction
(log 7). -/
def Obligations.IllegalConstructionsAreRefused : Prop :=
  ∀ (s : State) (id n : Nat) (debug : Bool) (pair : Option Nat) (bytes : List Byte),
    ((∃ why, constructWriter id n debug pair bytes s = .refused why) ↔
      (n % 4 ≠ 0 ∨ 2 ^ 28 < n ∨ ∃ rid, pair = some rid ∧ s.reader? rid = none)) ∧
    ((∃ why, constructReader id n bytes debug s = .refused why) ↔ 2 ^ 32 - 1 < n)

/-! ## Values of the operands -/

/-- The sign-magnitude encoding: the sign is 1 exactly for a negative value, the magnitude is the absolute value modulo
2^(k-1), and negative zero is produced exactly for the negative multiples of 2^(k-1), so never for 0 and always for -2^31
(40_writer.md R83). -/
def Obligations.SignMagnitudeEncoding : Prop :=
  ∀ (v : Int) (k : Nat), 2 ≤ k → k ≤ 32 →
    sencSign v = (if v < 0 then 1#32 else 0#32) ∧ (sencMagnitude v k).toNat = v.natAbs % 2 ^ (k - 1) ∧
      ((sencSign v = 1#32 ∧ sencMagnitude v k = 0#32) ↔ (v < 0 ∧ (2 ^ (k - 1) : Int) ∣ v)) ∧
      sencSign 0 = 0#32 ∧ sencMagnitude (-2147483648) k = 0#32

/-- The sign-magnitude decoding: minus the magnitude under a sign bit, the magnitude else, negative zero is 0, and the result
of a k-bit field lies in `[-(2^(k-1) - 1), 2^(k-1) - 1]` (41_reader.md R109). -/
def Obligations.SignMagnitudeDecoding : Prop :=
  ∀ (m : Word) (k : Nat), 2 ≤ k → k ≤ 32 → m.toNat < 2 ^ (k - 1) →
    sdec 1#32 m = -(m.toNat : Int) ∧ sdec 0#32 m = (m.toNat : Int) ∧ sdec 1#32 0#32 = 0 ∧
      ∀ s : Word, (s = 0#32 ∨ s = 1#32) →
        -((2 : Int) ^ (k - 1) - 1) ≤ sdec s m ∧ sdec s m ≤ (2 : Int) ^ (k - 1) - 1 ∧ -2147483648 ≤ sdec s m ∧
          sdec s m ≤ 2147483647

/-- A W_BITS value wider than its count writes exactly what the value masked to its count writes, in every state and either
mode (40_writer.md R82). -/
def Obligations.WBitsMasksItsValue : Prop :=
  ∀ (s : State) (v : Word) (n : Nat), exec (.wBits v n) s = exec (.wBits (v &&& mask n) n) s

/-! ## Writer commands: where each completes, and its frame -/

/-- W_BITS on an open writer with room answers OK and appends its tag (debug mode) and its field; every other register, every
other buffer byte and every other unit is as before (40_writer.md R78, R84, R100; 42_debug_tags.md R129). -/
def Obligations.WBitsAppendsItsField : Prop :=
  ∀ (s : State) (id : Nat) (w : Writer) (v : Word) (n : Nat), s.AtWriter id w → w.Open → 1 ≤ n → n ≤ 32 →
    w.tell + tagWidth w.debug + n ≤ 8 * w.cap →
    ∃ w', exec (.wBits v n) s = .next (s.withWriter id w' (okResponse 0#64)) ∧
      w.Appended w' (tagBits w.debug .unsigned n ++ fieldBits v n)

/-- W_SBITS on an open writer with room answers OK and appends its tag (debug mode), a sign bit and a magnitude of n - 1 bits;
every other register, every other buffer byte and every other unit is as before (40_writer.md R83, R85, R100). -/
def Obligations.WSbitsAppendsItsField : Prop :=
  ∀ (s : State) (id : Nat) (w : Writer) (v : Int) (n : Nat), s.AtWriter id w → w.Open → 2 ≤ n → n ≤ 32 →
    w.tell + tagWidth w.debug + n ≤ 8 * w.cap →
    ∃ w', exec (.wSbits v n) s = .next (s.withWriter id w' (okResponse 0#64)) ∧
      w.Appended w' (tagBits w.debug .signed n ++ signedBits v n)

/-- W_U8, W_U16, W_U32 and W_U64 on an open writer with room answer OK and append their one tag (debug mode) and their field,
W_U64 its upper word and then its lower; every other register, every other buffer byte and every other unit is as before
(40_writer.md R86, R87, R88, R91, R100; 42_debug_tags.md R131). -/
def Obligations.UnsignedCompositesAppendTheirFields : Prop :=
  ∀ (s : State) (id : Nat) (w : Writer), s.AtWriter id w → w.Open →
    (∀ v : BitVec 8, w.tell + tagWidth w.debug + 8 ≤ 8 * w.cap →
      ∃ w', exec (.wU8 v) s = .next (s.withWriter id w' (okResponse 0#64)) ∧
        w.Appended w' (tagBits w.debug .uint8 8 ++ fieldBits (v.setWidth 32) 8)) ∧
    (∀ v : BitVec 16, w.tell + tagWidth w.debug + 16 ≤ 8 * w.cap →
      ∃ w', exec (.wU16 v) s = .next (s.withWriter id w' (okResponse 0#64)) ∧
        w.Appended w' (tagBits w.debug .uint16 16 ++ fieldBits (v.setWidth 32) 16)) ∧
    (∀ v : BitVec 32, w.tell + tagWidth w.debug + 32 ≤ 8 * w.cap →
      ∃ w', exec (.wU32 v) s = .next (s.withWriter id w' (okResponse 0#64)) ∧
        w.Appended w' (tagBits w.debug .uint32 32 ++ fieldBits v 32)) ∧
    (∀ v : BitVec 64, w.tell + tagWidth w.debug + 64 ≤ 8 * w.cap →
      ∃ w', exec (.wU64 v) s = .next (s.withWriter id w' (okResponse 0#64)) ∧
        w.Appended w' (tagBits w.debug .uint64 64 ++
          (fieldBits (v.extractLsb' 32 32) 32 ++ fieldBits (v.extractLsb' 0 32) 32)))

/-- W_I16 and W_I32 on an open writer with room answer OK and append their tag (debug mode), a sign bit and a magnitude of 15
or 31 bits; every other register, every other buffer byte and every other unit is as before (40_writer.md R83, R89, R90). -/
def Obligations.SignedCompositesAppendTheirFields : Prop :=
  ∀ (s : State) (id : Nat) (w : Writer) (v : Int), s.AtWriter id w → w.Open →
    (w.tell + tagWidth w.debug + 16 ≤ 8 * w.cap →
      ∃ w', exec (.wI16 v) s = .next (s.withWriter id w' (okResponse 0#64)) ∧
        w.Appended w' (tagBits w.debug .int16 16 ++ signedBits v 16)) ∧
    (w.tell + tagWidth w.debug + 32 ≤ 8 * w.cap →
      ∃ w', exec (.wI32 v) s = .next (s.withWriter id w' (okResponse 0#64)) ∧
        w.Appended w' (tagBits w.debug .int32 32 ++ signedBits v 32))

/-- W_TELL on an unfaulted writer, closed or not, and R_TELL on an unfaulted reader answer OK with the tell and change no
register (40_writer.md R92, 41_reader.md R119). -/
def Obligations.TellsAnswerThePosition : Prop :=
  ∀ (s : State) (id : Nat), s.Ok →
    (∀ w, s.AtWriter id w → w.fault = 0#8 → exec .wTell s = .next (s.respond (okResponse (BitVec.ofNat 64 w.tell)))) ∧
    (∀ r, s.AtReader id r → r.fault = 0#8 → exec .rTell s = .next (s.respond (okResponse (BitVec.ofNat 64 r.tell))))

/-- W_REWIND to a position up to the tell, on an open writer, answers OK and cuts the stream there: the cursor, the held count
and the tell are those of the position, the accumulator holds the kept bits of its word, no bit before the position changes,
and no buffer byte outside the flushed word does (40_writer.md R93, R94, R95, R100). -/
def Obligations.WRewindCutsTheStream : Prop :=
  ∀ (s : State) (id : Nat) (w : Writer) (p : Nat), s.AtWriter id w → w.Open → p ≤ w.tell →
    ∃ w', exec (.wRewind p) s = .next (s.withWriter id w' (okResponse 0#64)) ∧ w.Rewound w' p

/-- W_REWIND to a position past the tell is REWIND_OUT_OF_RANGE with the position and the tell, and changes no register; every
position past the buffer's last bit is one (40_writer.md R94). -/
def Obligations.ForwardRewindsAreRejected : Prop :=
  ∀ (s : State) (id : Nat) (w : Writer) (p : Nat), s.Ok → s.AtWriter id w → w.fault = 0#8 → w.closed = false →
    (w.tell < p → exec (.wRewind p) s = .next (s.respond (errorResponse .rewindOutOfRange (dataPair p w.tell)))) ∧
    (8 * w.cap < p → w.tell < p)

/-- W_CLOSE on an open writer answers OK, sets CLOSED and stores the bytes that cover the held bits: every committed byte then
stands in the buffer, the logical stream and every other register is unchanged, and so is every buffer byte outside the stored
ones (40_writer.md R96). -/
def Obligations.WCloseStoresTheStream : Prop :=
  ∀ (s : State) (id : Nat) (w : Writer), s.AtWriter id w → w.Open →
    ∃ w', exec .wClose s = .next (s.withWriter id w' (okResponse 0#64)) ∧ w.ClosedAs w'

/-- W_OCTETS on an unfaulted writer, closed or not, answers OK with the byte count and the committed bits padded with zeros and
cut into bytes, and changes no register and no buffer byte (40_writer.md R99, R100; 20_memory.md R50). -/
def Obligations.WOctetsReturnsTheStream : Prop :=
  ∀ (s : State) (id : Nat) (w : Writer), s.Ok → s.AtWriter id w → w.fault = 0#8 →
    exec .wOctets s = .next (s.respond
      { status := .ok, data := BitVec.ofNat 64 (ceilDiv w.tell 8), bytes := packBytes w.stream })

/-- W_COPY of n bits on an open writer with room, whose paired reader is unfaulted and has the budget, answers OK: the reader's
next n bits, untagged in either mode, stand at the end of the writer's stream, and the reader has consumed them; for n = 0
nothing changes (40_writer.md R97, 42_debug_tags.md R137). -/
def Obligations.WCopyMovesTheBits : Prop :=
  ∀ (s : State) (id : Nat) (w : Writer) (rid : Nat) (r : Reader) (n : Nat), s.AtWriter id w → w.Open →
    w.pair = some rid → s.reader? rid = some r → r.Open → n ≤ r.budget → w.tell + n ≤ 8 * w.cap →
    ∃ w' r', exec (.wCopy n) s = .next (s.withPair id w' rid r' (okResponse 0#64)) ∧ (n = 0 → w' = w ∧ r' = r) ∧
      (1 ≤ n → w.Appended w' (srcBits r.src r.tell n) ∧ r.Consumed r' n)

/-! ## Writer commands: where each fails -/

/-- A count outside 1..32, or outside 2..32 for a signed field, is a WIDTH_ERROR with that count and changes no register, in
either mode and whatever the budget (40_writer.md R77, 41_reader.md R103, 42_debug_tags.md R130, R133). -/
def Obligations.IllegalCountsAreWidthErrors : Prop :=
  ∀ (s : State) (id n : Nat), s.Ok →
    (∀ w v, s.AtWriter id w → w.fault = 0#8 → w.closed = false → (n < 1 ∨ 32 < n) →
      exec (.wBits v n) s = .next (s.respond (errorResponse .widthError (dataCount n)))) ∧
    (∀ w v, s.AtWriter id w → w.fault = 0#8 → w.closed = false → (n < 2 ∨ 32 < n) →
      exec (.wSbits v n) s = .next (s.respond (errorResponse .widthError (dataCount n)))) ∧
    (∀ r, s.AtReader id r → r.fault = 0#8 → (n < 1 ∨ 32 < n) →
      exec (.rBits n) s = .next (s.respond (errorResponse .widthError (dataCount n)))) ∧
    (∀ r, s.AtReader id r → r.fault = 0#8 → (n < 2 ∨ 32 < n) →
      exec (.rSbits n) s = .next (s.respond (errorResponse .widthError (dataCount n))))

/-- A typed writer command that does not fit takes the fatal fault FAULT_CAPACITY_OVERFLOW at its first primitive write that
does not: the payload is that write's count and the tell it found, the writes before it stay, its own bits are not written, and
the fault's code goes into FAULT (40_writer.md R79, R98; 60_exceptions.md R141, R148). -/
def Obligations.OverflowKeepsEarlierWrites : Prop :=
  ∀ (s : State) (id : Nat) (w : Writer) (i : Instr) (t : TagType) (width : Nat) (groups : List (List Bool)),
    s.AtWriter id w → w.Open → writerField i = some (t, width, groups) →
    8 * w.cap < w.tell + tagWidth w.debug + groups.flatten.length →
    ∃ pre g post w1, tagGroups w.debug t width ++ groups = pre ++ g :: post ∧
      w.tell + pre.flatten.length ≤ 8 * w.cap ∧ 8 * w.cap < w.tell + pre.flatten.length + g.length ∧
      exec i s = .next (s.withWriter id { w1 with fault := 0x81#8 }
        (errorResponse .faultCapacityOverflow (dataPair g.length (w.tell + pre.flatten.length)))) ∧
      (pre = [] → w1 = w) ∧ (pre ≠ [] → w.Appended w1 pre.flatten)

/-- A W_COPY past the paired reader's budget, on a writer with room for the full chunks the budget holds, copies those and ends
with the EOF_ERROR of the first chunk that the budget does not hold: that chunk's count and the reader's tell there. The chunks
already copied stay in the writer, and the writer is not faulted (40_writer.md R97, R98). -/
def Obligations.WCopyPastBudgetKeepsItsChunks : Prop :=
  ∀ (s : State) (id : Nat) (w : Writer) (rid : Nat) (r : Reader) (n : Nat), s.AtWriter id w → w.Open →
    w.pair = some rid → s.reader? rid = some r → r.Open → r.budget < n →
    w.tell + 32 * (r.budget / 32) ≤ 8 * w.cap →
    ∃ w' r', exec (.wCopy n) s = .next (s.withPair id w' rid r' (errorResponse .eofError
        (dataPair (if r.budget / 32 < n / 32 then 32 else n % 32) (r.tell + 32 * (r.budget / 32))))) ∧
      (r.budget / 32 = 0 → w' = w ∧ r' = r) ∧
      (1 ≤ r.budget / 32 → w.Appended w' (srcBits r.src r.tell (32 * (r.budget / 32))) ∧
        r.Consumed r' (32 * (r.budget / 32)))

/-- A W_COPY that does not fit the writer copies the full chunks that fit and, where the reader's budget holds those and the
next, takes FAULT_CAPACITY_OVERFLOW at that one, whether or not the budget holds the whole copy: that chunk was read from the
reader, and is lost (40_writer.md R97, R98; 60_exceptions.md R148, R150). -/
def Obligations.WCopyPastCapacityLosesOneChunk : Prop :=
  ∀ (s : State) (id : Nat) (w : Writer) (rid : Nat) (r : Reader) (n chunks k : Nat), s.AtWriter id w → w.Open →
    w.pair = some rid → s.reader? rid = some r → r.Open → 8 * w.cap < w.tell + n →
    chunks = (8 * w.cap - w.tell) / 32 → k = (if chunks < n / 32 then 32 else n % 32) → 32 * chunks + k ≤ r.budget →
    ∃ w1 r', exec (.wCopy n) s = .next (s.withPair id { w1 with fault := 0x81#8 } rid r'
        (errorResponse .faultCapacityOverflow (dataPair k (w.tell + 32 * chunks)))) ∧
      r.Consumed r' (32 * chunks + k) ∧ (chunks = 0 → w1 = w) ∧
      (1 ≤ chunks → w.Appended w1 (srcBits r.src r.tell (32 * chunks)))

/-! ## Reader commands -/

/-- R_BITS on an unfaulted reader with budget, whose next bits are the tag if it is a debug reader, answers OK with the next n
bits of the stream, zero-extended, and consumes tag and field; every other unit is as before (41_reader.md R105, R111, R121;
42_debug_tags.md R132). -/
def Obligations.RBitsReturnsTheNextBits : Prop :=
  ∀ (s : State) (id : Nat) (r : Reader) (n : Nat), s.AtReader id r → r.Open → 1 ≤ n → n ≤ 32 →
    tagWidth r.debug + n ≤ r.budget → r.TagMatches .unsigned n →
    ∃ r', exec (.rBits n) s = .next (s.withReader id r' (okResponse
        ((bitsWord (srcBits r.src (r.tell + tagWidth r.debug) n)).setWidth 64))) ∧ r.Consumed r' (tagWidth r.debug + n)

/-- R_SBITS on an unfaulted reader with budget, whose next bits are the tag if it is a debug reader, answers OK with the signed
value of the next n bits, sign-extended, and consumes tag and field; every other unit is as before (41_reader.md R109, R112,
R121). -/
def Obligations.RSbitsReturnsTheNextValue : Prop :=
  ∀ (s : State) (id : Nat) (r : Reader) (n : Nat), s.AtReader id r → r.Open → 2 ≤ n → n ≤ 32 →
    tagWidth r.debug + n ≤ r.budget → r.TagMatches .signed n →
    ∃ r', exec (.rSbits n) s = .next (s.withReader id r' (okResponse
        (BitVec.ofInt 64 (signedValue (srcBits r.src (r.tell + tagWidth r.debug) n))))) ∧
      r.Consumed r' (tagWidth r.debug + n)

/-- R_U8, R_U16, R_U32 and R_U64 on an unfaulted reader with budget, whose next bits are the tag if it is a debug reader,
answer OK with the next 8, 16, 32 or 64 bits, the first the most significant, zero-extended, and consume tag and field; every
other unit is as before (41_reader.md R113, R114, R115, R118, R121). -/
def Obligations.UnsignedCompositesReturnTheNextBits : Prop :=
  ∀ (s : State) (id : Nat) (r : Reader), s.AtReader id r → r.Open →
    (tagWidth r.debug + 8 ≤ r.budget → r.TagMatches .uint8 8 →
      ∃ r', exec .rU8 s = .next (s.withReader id r' (okResponse
        ((bitsWord (srcBits r.src (r.tell + tagWidth r.debug) 8)).setWidth 64))) ∧
        r.Consumed r' (tagWidth r.debug + 8)) ∧
    (tagWidth r.debug + 16 ≤ r.budget → r.TagMatches .uint16 16 →
      ∃ r', exec .rU16 s = .next (s.withReader id r' (okResponse
        ((bitsWord (srcBits r.src (r.tell + tagWidth r.debug) 16)).setWidth 64))) ∧
        r.Consumed r' (tagWidth r.debug + 16)) ∧
    (tagWidth r.debug + 32 ≤ r.budget → r.TagMatches .uint32 32 →
      ∃ r', exec .rU32 s = .next (s.withReader id r' (okResponse
        ((bitsWord (srcBits r.src (r.tell + tagWidth r.debug) 32)).setWidth 64))) ∧
        r.Consumed r' (tagWidth r.debug + 32)) ∧
    (tagWidth r.debug + 64 ≤ r.budget → r.TagMatches .uint64 64 →
      ∃ r', exec .rU64 s = .next (s.withReader id r' (okResponse
        (BitVec.ofNat 64 (bitsValue (srcBits r.src (r.tell + tagWidth r.debug) 64))))) ∧
        r.Consumed r' (tagWidth r.debug + 64))

/-- R_I16 and R_I32 on an unfaulted reader with budget, whose next bits are the tag if it is a debug reader, answer OK with the
signed value of the next 16 or 32 bits, sign-extended, and consume tag and field; every other unit is as before (41_reader.md
R109, R116, R117, R121). -/
def Obligations.SignedCompositesReturnTheNextValue : Prop :=
  ∀ (s : State) (id : Nat) (r : Reader), s.AtReader id r → r.Open →
    (tagWidth r.debug + 16 ≤ r.budget → r.TagMatches .int16 16 →
      ∃ r', exec .rI16 s = .next (s.withReader id r' (okResponse
        (BitVec.ofInt 64 (signedValue (srcBits r.src (r.tell + tagWidth r.debug) 16))))) ∧
        r.Consumed r' (tagWidth r.debug + 16)) ∧
    (tagWidth r.debug + 32 ≤ r.budget → r.TagMatches .int32 32 →
      ∃ r', exec .rI32 s = .next (s.withReader id r' (okResponse
        (BitVec.ofInt 64 (signedValue (srcBits r.src (r.tell + tagWidth r.debug) 32))))) ∧
        r.Consumed r' (tagWidth r.debug + 32))

/-- A typed reader command past the budget is the EOF_ERROR of its first primitive read that does not fit: that read's count and
the tell it found. The bits of the reads before it stay consumed, and where it is the first read nothing changes, whatever the
source still holds (41_reader.md R104, R110, R120; 42_debug_tags.md R135; 60_exceptions.md R149). -/
def Obligations.EofKeepsEarlierReads : Prop :=
  ∀ (s : State) (id : Nat) (r : Reader) (i : Instr) (t : TagType) (width : Nat) (counts : List Nat),
    s.AtReader id r → r.Open → readerField i = some (t, width, counts) →
    r.budget < tagWidth r.debug + counts.sum → (tagWidth r.debug ≤ r.budget → r.TagMatches t width) →
    ∃ pre k post r', tagCounts r.debug ++ counts = pre ++ k :: post ∧ pre.sum ≤ r.budget ∧ r.budget < pre.sum + k ∧
      exec i s = .next (s.withReader id r' (errorResponse .eofError (dataPair k (r.tell + pre.sum)))) ∧
      r.Consumed r' pre.sum ∧ (pre = [] → r' = r)

/-- A typed command of a debug reader whose next 11 bits are not its tag is DEBUG_TAG_MISMATCH with the observed and the
expected type and width; the 11 bits are consumed, the field is not read, and the reader is not faulted (42_debug_tags.md R127,
R132, R134). -/
def Obligations.WrongTagsAreMismatches : Prop :=
  ∀ (s : State) (id : Nat) (r : Reader) (i : Instr) (t : TagType) (width : Nat) (counts : List Nat),
    s.AtReader id r → r.Open → r.debug = true → readerField i = some (t, width, counts) → 11 ≤ r.budget →
    ¬ r.TagMatches t width →
    ∃ r', exec i s = .next (s.withReader id r' (errorResponse .debugTagMismatch
        (dataTags (bitsWord (srcBits r.src r.tell 4)) (bitsWord (srcBits r.src (r.tell + 4) 7)) (tagCode t)
          (BitVec.ofNat 32 width)))) ∧ r.Consumed r' 11

/-- A plain R_BITS within the held bits pulls nothing and leaves the accumulator as it is, even when it takes the last held bit
(41_reader.md R106, 10_state.md R28). -/
def Obligations.ReadsWithinHeldBitsPullNothing : Prop :=
  ∀ (s : State) (id : Nat) (r : Reader) (n : Nat), s.AtReader id r → r.Open → r.debug = false → 1 ≤ n → n ≤ 32 →
    n ≤ r.held → n ≤ r.budget →
    exec (.rBits n) s = .next (s.withReader id
      { r with held := r.held - n, tell := r.tell + n, budget := r.budget - n }
      (okResponse ((bitsWord (srcBits r.src r.tell n)).setWidth 64)))

/-- A plain R_BITS past the held bits fills once: up to four octets, the pulls one for each and one more for END when fewer than
four are left, and the accumulator is the fresh word, big-endian and right-justified (41_reader.md R106, R107; 20_memory.md R43,
R52). -/
def Obligations.StraddlingReadsFillOnce : Prop :=
  ∀ (s : State) (id : Nat) (r : Reader) (n got : Nat), s.AtReader id r → r.Open → r.debug = false → 1 ≤ n → n ≤ 32 →
    r.held < n → n ≤ r.budget → got = min 4 (r.src.length - r.srcPos) →
    ∃ r', exec (.rBits n) s = .next (s.withReader id r'
        (okResponse ((bitsWord (srcBits r.src r.tell n)).setWidth 64))) ∧
      r'.srcPos = r.srcPos + got ∧ r'.pulls = r.pulls + (if got = 4 then 4 else got + 1) ∧
      r'.acc = bitsWord (srcBits r.src (8 * r.srcPos) (8 * got)) ∧ r'.held = 8 * got - (n - r.held)

/-! ## Composites in plain mode -/

/-- On a plain writer each composite but W_U64 is exactly its primitive command; W_U64 leaves the same units as its two
(30_encoding.md R70). -/
def Obligations.PlainWriterCompositesArePrimitives : Prop :=
  ∀ (s : State) (id : Nat) (w : Writer), s.AtWriter id w → w.debug = false →
    (∀ v, exec (.wU8 v) s = exec (.wBits (v.setWidth 32) 8) s) ∧
    (∀ v, exec (.wU16 v) s = exec (.wBits (v.setWidth 32) 16) s) ∧ (∀ v, exec (.wU32 v) s = exec (.wBits v 32) s) ∧
    (∀ v, exec (.wI16 v) s = exec (.wSbits v 16) s) ∧ (∀ v, exec (.wI32 v) s = exec (.wSbits v 32) s) ∧
    (∀ v, w.Ok → ∃ s1 s2 t, exec (.wBits (v.extractLsb' 32 32) 32) s = .next s1 ∧
      exec (.wBits (v.extractLsb' 0 32) 32) s1 = .next s2 ∧ exec (.wU64 v) s = .next t ∧ t.writers = s2.writers ∧
      t.readers = s2.readers)

/-- On a plain reader each composite but R_U64 is exactly its primitive command; R_U64 on a reader with the budget leaves the
same units as its two, and its result is their results, upper word first (30_encoding.md R70, 41_reader.md R113 to R118). -/
def Obligations.PlainReaderCompositesArePrimitives : Prop :=
  ∀ (s : State) (id : Nat) (r : Reader), s.AtReader id r → r.debug = false →
    exec .rU8 s = exec (.rBits 8) s ∧ exec .rU16 s = exec (.rBits 16) s ∧ exec .rU32 s = exec (.rBits 32) s ∧
    exec .rI16 s = exec (.rSbits 16) s ∧ exec .rI32 s = exec (.rSbits 32) s ∧
    (r.Open → 64 ≤ r.budget → ∃ s1 s2 t hi lo, exec (.rBits 32) s = .next s1 ∧ exec (.rBits 32) s1 = .next s2 ∧
      exec .rU64 s = .next t ∧ t.writers = s2.writers ∧ t.readers = s2.readers ∧
      s2.transcript = .returned s.port (okResponse (BitVec.setWidth 64 lo)) ::
        .returned s.port (okResponse (BitVec.setWidth 64 hi)) :: s.transcript ∧
      t.transcript = .returned s.port (okResponse ((hi : Word) ++ (lo : Word) : BitVec 64)) :: s.transcript)

/-! ## Stream laws -/

/-- After any history of legal primitive writes and accepted rewinds on a constructed writer, the stream is the committed bits,
the tell counts them, and the logical stream is those bits padded with zeros and cut into bytes MSB-first (40_writer.md
R100). -/
def Obligations.WriterStreamLaw : Prop :=
  ∀ (cap : Nat) (debug : Bool) (pair : Option Nat) (fill : List Byte) (ops : List StreamOp) (w : Writer),
    cap % 4 = 0 → cap ≤ 2 ^ 28 → opsLegal ops = true →
    Writer.runOps ops (Writer.construct cap debug pair fill) = .done () w →
    w.stream = committedBits ops [] ∧ w.tell = (committedBits ops []).length ∧
      w.out = packBytes (committedBits ops [])

/-- Fields of total width T that fit, written on a constructed writer and closed, leave a logical stream of `ceil(T / 8)` bytes
whose bits from T on are zero (40_writer.md R101). -/
def Obligations.OutputLengthLaw : Prop :=
  ∀ (cap : Nat) (debug : Bool) (pair : Option Nat) (fill : List Byte) (fields : List (Word × Nat)) (T : Nat),
    cap % 4 = 0 → cap ≤ 2 ^ 28 → (∀ f ∈ fields, 1 ≤ f.2 ∧ f.2 ≤ 32) → T = (fields.map fun f => f.2).sum →
    T ≤ 8 * cap →
    ∃ w w', Writer.pwrites fields (Writer.construct cap debug pair fill) = .done () w ∧ w.close = .done () w' ∧
      w'.out.length = ceilDiv T 8 ∧
      ∀ i, T ≤ i → i < 8 * ceilDiv T 8 → (w'.out.getD (i / 8) 0#8).getLsbD (7 - i % 8) = false

/-- Reads that fit the budget, one after another on a constructed reader, all succeed and return the source's bits in order,
none skipped and none repeated, zeros past the physical data (41_reader.md R108, R110, R121). -/
def Obligations.ReaderStreamLaw : Prop :=
  ∀ (len : Nat) (src : List Byte) (debug : Bool) (ks : List Nat), len ≤ 2 ^ 32 - 1 → (∀ k ∈ ks, 1 ≤ k ∧ k ≤ 32) →
    ks.sum ≤ len →
    ∃ xs r, Reader.preads ks (Reader.construct len src debug) = .done xs r ∧ r.tell = ks.sum ∧ xs.length = ks.length ∧
      (List.zipWith fieldBits xs ks).flatten = srcBits src 0 ks.sum ∧
      ∀ p ∈ List.zip xs ks, p.1.toNat < 2 ^ p.2

/-- A sequence of reads whose counts add up past L fails on the read that crosses L, with that read's count and the bits already
consumed, whatever the source still holds (41_reader.md R104, R110, R122). -/
def Obligations.DeclaredLengthDecidesEof : Prop :=
  ∀ (len : Nat) (src : List Byte) (debug : Bool) (ks : List Nat) (k : Nat) (more : List Nat), len ≤ 2 ^ 32 - 1 →
    (∀ j ∈ ks, 1 ≤ j ∧ j ≤ 32) → ks.sum ≤ len → len < ks.sum + k →
    ∃ r, Reader.preads (ks ++ k :: more) (Reader.construct len src debug) =
        .raised (errorResponse .eofError (dataPair k ks.sum)) r ∧ r.tell = ks.sum

/-- An unsigned field of any count written by a writer and closed is read back masked to its count by a reader of the same mode
over the writer's logical stream (41_reader.md R122). -/
def Obligations.UnsignedRoundTrip : Prop :=
  ∀ (cap : Nat) (debug : Bool) (pair : Option Nat) (fill : List Byte) (t : TagType) (v : Word) (k : Nat),
    cap % 4 = 0 → cap ≤ 2 ^ 28 → 1 ≤ k → k ≤ 32 → tagWidth debug + k ≤ 8 * cap →
    ∃ w w', (Writer.construct cap debug pair fill).putUnsigned t v k = .done (okResponse 0#64) w ∧
      w.close = .done () w' ∧
      ∀ len, tagWidth debug + k ≤ len → len ≤ 2 ^ 32 - 1 →
        ∃ r, (Reader.construct len w'.out debug).getUnsigned t k =
          .done (okResponse ((v &&& mask k).setWidth 64)) r

/-- A signed field of count k holding a value of `[-(2^(k-1) - 1), 2^(k-1) - 1]`, written by a writer and closed, is read back
by a reader of the same mode over the writer's logical stream (41_reader.md R122). -/
def Obligations.SignedRoundTrip : Prop :=
  ∀ (cap : Nat) (debug : Bool) (pair : Option Nat) (fill : List Byte) (t : TagType) (v : Int) (k : Nat),
    cap % 4 = 0 → cap ≤ 2 ^ 28 → 2 ≤ k → k ≤ 32 → -((2 : Int) ^ (k - 1) - 1) ≤ v → v ≤ (2 : Int) ^ (k - 1) - 1 →
    tagWidth debug + k ≤ 8 * cap →
    ∃ w w', (Writer.construct cap debug pair fill).putSigned t v k = .done (okResponse 0#64) w ∧
      w.close = .done () w' ∧
      ∀ len, tagWidth debug + k ≤ len → len ≤ 2 ^ 32 - 1 →
        ∃ r, (Reader.construct len w'.out debug).getSigned t k = .done (okResponse (BitVec.ofInt 64 v)) r

/-! ## The whole machine -/

/-- The state before the host acts is sound (70_reset_and_hazards.md R162 to R164). That no unit is constructed in it is the
model's choice (log 2). -/
def Obligations.ResetStateIsSound : Prop := State.reset.Ok

/-- Every step of a sound state leaves a sound state: the writers' and readers' register invariants, the canonical tables and
buffers, and the pairs (10_state.md R20 to R24, R28 to R32; 60_exceptions.md R142). -/
def Obligations.StepKeepsStateSound : Prop := ∀ s t : State, s.Ok → step s = .next t → t.Ok

/-- No step of a sound state forms an address outside a buffer (20_memory.md R46). -/
def Obligations.SoundStepsNeverFault : Prop := ∀ (s : State) (f : Fault), s.Ok → step s ≠ .fault f

/-- Every command word, legal or not, presented on the port of a constructed unit of a sound state is executed in one step and
returns one response on that port, the next of that port's observation and of no other's (30_encoding.md R59;
70_reset_and_hazards.md R169, R178). That the responses stand in a transcript is the model's choice (log 5). -/
def Obligations.EveryCommandIsAnswered : Prop :=
  ∀ (s : State) (p : Port) (w : CommandWord) (rest : List HostAction), s.Ok → s.input = .command p w :: rest →
    (∀ id, p = .writer id → (s.writer? id).isSome = true) → (∀ id, p = .reader id → (s.reader? id).isSome = true) →
    ∃ t resp, step s = .next t ∧ t.transcript = .returned p resp :: s.transcript ∧ t.input = rest ∧
      t.observation p = s.observation p ++ [resp] ∧ (∀ q, q ≠ p → t.observation q = s.observation q) ∧
      t.port = p

/-- The accumulator invariant is never violated: no command of a sound state answers FAULT_ACCUMULATOR_INVARIANT, and none puts
its code into a FAULT register (60_exceptions.md R146). -/
def Obligations.AccumulatorFaultIsUnreachable : Prop :=
  ∀ (s t : State) (p : Port) (w : CommandWord) (rest : List HostAction), s.Ok → s.input = .command p w :: rest →
    step s = .next t →
    (∀ q resp more, t.transcript = .returned q resp :: more → more = s.transcript →
      resp.status ≠ .faultAccumulatorInvariant) ∧
    (∀ id w', t.writer? id = some w' → w'.fault = 0x80#8 → ∃ u, s.writer? id = some u ∧ u.fault = 0x80#8) ∧
    (∀ id r', t.reader? id = some r' → r'.fault = 0x80#8 → ∃ u, s.reader? id = some u ∧ u.fault = 0x80#8)

/-- A command changes no unit but the one it was presented to and, for W_COPY, that writer's paired reader, and returns one
response (10_state.md R18, 60_exceptions.md R159). -/
def Obligations.CommandsTouchOnlyTheirUnits : Prop :=
  ∀ (s t : State) (i : Instr), exec i s = .next t →
    (∀ id, s.port ≠ .writer id → t.writer? id = s.writer? id) ∧
    (∀ rid, s.port ≠ .reader rid →
      (∀ id w n, ¬ (s.AtWriter id w ∧ i = .wCopy n ∧ w.pair = some rid)) → t.reader? rid = s.reader? rid) ∧
    t.input = s.input ∧ t.port = s.port ∧
    ∃ resp, t.transcript = .returned s.port resp :: s.transcript

/-- No command changes a configuration register of any unit, nor constructs or removes one (10_state.md R27, R34;
42_debug_tags.md R123). -/
def Obligations.ConfigurationNeverChanges : Prop :=
  ∀ (s t : State) (p : Port) (w : CommandWord) (rest : List HostAction), s.input = .command p w :: rest →
    step s = .next t →
    (∀ id u, s.writer? id = some u → ∃ u', t.writer? id = some u' ∧ u'.cap = u.cap ∧ u'.debug = u.debug ∧
      u'.pair = u.pair) ∧
    (∀ id r, s.reader? id = some r → ∃ r', t.reader? id = some r' ∧ r'.len = r.len ∧ r'.debug = r.debug ∧
      r'.src = r.src) ∧
    (∀ id, s.writer? id = none → t.writer? id = none) ∧ (∀ id, s.reader? id = none → t.reader? id = none)

/-- A FAULT register that is not 0x00 keeps its value over every command, and a closed writer stays closed (10_state.md R25, R26,
R33; 60_exceptions.md R142). -/
def Obligations.FaultAndClosedAreSticky : Prop :=
  ∀ (s t : State) (p : Port) (w : CommandWord) (rest : List HostAction), s.input = .command p w :: rest →
    step s = .next t →
    (∀ id u u', s.writer? id = some u → t.writer? id = some u' →
      (u.fault ≠ 0#8 → u'.fault = u.fault) ∧ (u.closed = true → u'.closed = true)) ∧
    (∀ id r r', s.reader? id = some r → t.reader? id = some r' → r.fault ≠ 0#8 → r'.fault = r.fault)

/-- No command moves a reader back: its tell, its source position and its pulls never fall, and the budget falls by what the tell
rises (10_state.md R30, R31, R32; 20_memory.md R53). -/
def Obligations.ReadersOnlyAdvance : Prop :=
  ∀ (s t : State) (p : Port) (w : CommandWord) (rest : List HostAction), s.input = .command p w :: rest →
    step s = .next t → ∀ id r r', s.reader? id = some r → t.reader? id = some r' →
    r.tell ≤ r'.tell ∧ r.srcPos ≤ r'.srcPos ∧ r.pulls ≤ r'.pulls ∧ r'.tell + r'.budget = r.tell + r.budget

/-- No command changes a buffer byte below the word cursor the writer has when the command is presented, and only W_REWIND moves
that cursor back (20_memory.md R38, R47). -/
def Obligations.FlushedBytesStay : Prop :=
  ∀ (s t : State) (i : Instr) (id : Nat) (w w' : Writer), exec i s = .next t → s.writer? id = some w →
    t.writer? id = some w' →
    (∀ a, a < w.cursor → readByte w'.buf a = readByte w.buf a) ∧ ((∀ p, i ≠ .wRewind p) → w.cursor ≤ w'.cursor)

/-- Two sound systems whose writers have the same committed bits and the same status give the same responses to the same host,
step by step; so no response shows what a new buffer held, nor whether a full accumulator has been flushed (10_state.md R36,
40_writer.md R80, 70_reset_and_hazards.md R166). -/
def Obligations.ResponsesShowOnlyCommittedBits : Prop :=
  (∀ s s' t : State, s.Ok → s'.Ok → s.Alike s' → step s = .next t → ∃ t', step s' = .next t' ∧ t.Alike t') ∧
    (∀ cap debug pair fill fill', (Writer.construct cap debug pair fill).Alike
      (Writer.construct cap debug pair fill')) ∧
    ∀ w : Writer, w.Ok → w.held = 32 → w.flushedFull.Ok ∧ w.Alike w.flushedFull
end

