-- ==== Sys2Proof/Laws/Memory.lean ====
section
/-! SUPPORT. Tables and memories: reading after writing, and the canonical form that every operation keeps. -/

namespace Sys2Proof.Machine

variable {α : Type}

/-! ## Tables -/

@[simp] theorem tableGet_put_same (t : List (Nat × α)) (k : Nat) (x : α) : tableGet (tablePut t k x) k = some x := by
  induction t with
  | nil => simp [tablePut, tableGet]
  | cons c t ih =>
    obtain ⟨j, y⟩ := c
    simp only [tablePut]
    split
    · simp [tableGet]
    · split
      · simp [tableGet]
      · simp [tableGet, *]

theorem tableGet_put_other (t : List (Nat × α)) (k l : Nat) (x : α) (h : l ≠ k) :
    tableGet (tablePut t k x) l = tableGet t l := by
  induction t with
  | nil => simp [tablePut, tableGet, h]
  | cons c t ih =>
    obtain ⟨j, y⟩ := c
    simp only [tablePut]
    split
    · simp [tableGet, h]
    · split
      · subst_vars; simp [tableGet, h]
      · simp [tableGet, ih]

@[simp] theorem tableGet_erase_same (t : List (Nat × α)) (k : Nat) : tableGet (tableErase t k) k = none := by
  induction t with
  | nil => rfl
  | cons c t ih =>
    obtain ⟨j, y⟩ := c
    simp only [tableErase]
    split
    · exact ih
    · simp [tableGet, *]

theorem tableGet_erase_other (t : List (Nat × α)) (k l : Nat) (h : l ≠ k) : tableGet (tableErase t k) l = tableGet t l := by
  induction t with
  | nil => rfl
  | cons c t ih =>
    obtain ⟨j, y⟩ := c
    simp only [tableErase]
    split
    · subst_vars; simp [tableGet, h, ih]
    · simp [tableGet, ih]

theorem tableSortedFrom_mono {lo hi : Nat} (t : List (Nat × α)) (hle : lo ≤ hi) (h : tableSortedFrom hi t = true) :
    tableSortedFrom lo t = true := by
  cases t with
  | nil => rfl
  | cons c t => simp only [tableSortedFrom, Bool.and_eq_true, decide_eq_true_eq] at h ⊢; exact ⟨by omega, h.2⟩

theorem tableSortedFrom_put {lo : Nat} (t : List (Nat × α)) (k : Nat) (x : α) (hk : lo ≤ k)
    (h : tableSortedFrom lo t = true) : tableSortedFrom lo (tablePut t k x) = true := by
  induction t generalizing lo with
  | nil => simp [tablePut, tableSortedFrom, hk]
  | cons c t ih =>
    obtain ⟨j, y⟩ := c
    simp only [tableSortedFrom, Bool.and_eq_true, decide_eq_true_eq] at h
    simp only [tablePut]
    split
    · simp only [tableSortedFrom, Bool.and_eq_true, decide_eq_true_eq]; exact ⟨hk, by omega, h.2⟩
    · split
      · subst_vars; simp only [tableSortedFrom, Bool.and_eq_true, decide_eq_true_eq]; exact ⟨hk, h.2⟩
      · simp only [tableSortedFrom, Bool.and_eq_true, decide_eq_true_eq]; exact ⟨h.1, ih (by omega) h.2⟩

theorem tableSortedFrom_erase {lo : Nat} (t : List (Nat × α)) (k : Nat) (h : tableSortedFrom lo t = true) :
    tableSortedFrom lo (tableErase t k) = true := by
  induction t generalizing lo with
  | nil => rfl
  | cons c t ih =>
    obtain ⟨j, y⟩ := c
    simp only [tableSortedFrom, Bool.and_eq_true, decide_eq_true_eq] at h
    simp only [tableErase]
    split
    · exact tableSortedFrom_mono _ (by omega) (ih h.2)
    · simp only [tableSortedFrom, Bool.and_eq_true, decide_eq_true_eq]; exact ⟨h.1, ih h.2⟩

/-- Putting an entry keeps a table canonical. -/
theorem tableWf_put (t : List (Nat × α)) (k : Nat) (x : α) (h : tableWf t = true) : tableWf (tablePut t k x) = true :=
  tableSortedFrom_put t k x (Nat.zero_le k) h

/-- Erasing a key keeps a table canonical. -/
theorem tableWf_erase (t : List (Nat × α)) (k : Nat) (h : tableWf t = true) : tableWf (tableErase t k) = true :=
  tableSortedFrom_erase t k h

theorem mem_of_tableGet {t : List (Nat × α)} {k : Nat} {x : α} (h : tableGet t k = some x) : (k, x) ∈ t := by
  induction t with
  | nil => simp [tableGet] at h
  | cons c t ih =>
    obtain ⟨j, y⟩ := c
    simp only [tableGet] at h
    split at h
    · simp_all
    · exact List.mem_cons_of_mem _ (ih h)

theorem mem_tablePut {t : List (Nat × α)} {k : Nat} {x : α} {p : Nat × α} (h : p ∈ tablePut t k x) :
    p = (k, x) ∨ p ∈ t := by
  induction t with
  | nil => simpa [tablePut] using h
  | cons c t ih =>
    obtain ⟨j, y⟩ := c
    simp only [tablePut] at h
    split at h
    · simpa using h
    · split at h
      · simp only [List.mem_cons] at h ⊢; tauto
      · simp only [List.mem_cons] at h ⊢; tauto

theorem mem_tableErase {t : List (Nat × α)} {k : Nat} {p : Nat × α} (h : p ∈ tableErase t k) : p ∈ t := by
  induction t with
  | nil => simp [tableErase] at h
  | cons c t ih =>
    obtain ⟨j, y⟩ := c
    simp only [tableErase] at h
    split at h
    · exact List.mem_cons_of_mem _ (ih h)
    · simp only [List.mem_cons] at h ⊢; tauto

theorem tableSortedFrom_le {lo : Nat} {t : List (Nat × α)} {p : Nat × α} (h : tableSortedFrom lo t = true) (hp : p ∈ t) :
    lo ≤ p.1 := by
  induction t generalizing lo with
  | nil => simp at hp
  | cons c t ih =>
    obtain ⟨j, y⟩ := c
    simp only [tableSortedFrom, Bool.and_eq_true, decide_eq_true_eq] at h
    rcases List.mem_cons.mp hp with rfl | hp
    · exact h.1
    · have := ih h.2 hp; omega

theorem tableGet_of_mem_from {lo : Nat} {t : List (Nat × α)} {p : Nat × α} (h : tableSortedFrom lo t = true)
    (hp : p ∈ t) : tableGet t p.1 = some p.2 := by
  induction t generalizing lo with
  | nil => simp at hp
  | cons c t ih =>
    obtain ⟨j, y⟩ := c
    simp only [tableSortedFrom, Bool.and_eq_true, decide_eq_true_eq] at h
    rcases List.mem_cons.mp hp with rfl | hp
    · simp [tableGet]
    · have hlt := tableSortedFrom_le h.2 hp
      have hne : p.1 ≠ j := by omega
      simp [tableGet, hne, ih h.2 hp]

/-- In a canonical table, membership is lookup. -/
theorem tableGet_of_mem {t : List (Nat × α)} {p : Nat × α} (h : tableWf t = true) (hp : p ∈ t) :
    tableGet t p.1 = some p.2 := tableGet_of_mem_from h hp

/-- Putting back what a canonical table holds changes nothing. -/
theorem tablePut_get_from {lo : Nat} {t : List (Nat × α)} {k : Nat} {x : α} (h : tableSortedFrom lo t = true)
    (hx : tableGet t k = some x) : tablePut t k x = t := by
  induction t generalizing lo with
  | nil => simp [tableGet] at hx
  | cons c t ih =>
    obtain ⟨j, y⟩ := c
    simp only [tableSortedFrom, Bool.and_eq_true, decide_eq_true_eq] at h
    simp only [tableGet] at hx
    split at hx
    · simp_all [tablePut]
    · have hm := tableSortedFrom_le h.2 (mem_of_tableGet hx)
      simp only at hm
      have h1 : ¬ k < j := by omega
      have h2 : ¬ k = j := by omega
      simp [tablePut, h1, h2, ih h.2 hx]

theorem tablePut_get {t : List (Nat × α)} {k : Nat} {x : α} (h : tableWf t = true) (hx : tableGet t k = some x) :
    tablePut t k x = t := tablePut_get_from h hx

theorem tablePut_put_same (t : List (Nat × α)) (k : Nat) (x y : α) : tablePut (tablePut t k x) k y = tablePut t k y := by
  induction t with
  | nil => simp [tablePut]
  | cons c t ih =>
    obtain ⟨j, z⟩ := c
    by_cases h1 : k < j
    · simp [tablePut, h1]
    · by_cases h2 : k = j
      · simp [tablePut, h2]
      · simp [tablePut, h1, h2, ih]

/-! ## One byte of memory -/

@[simp] theorem readByte_write_same (m : Memory) (a : Nat) (b : Byte) : readByte (writeByte m a b) a = b := by
  unfold readByte writeByte
  split
  · simp [*]
  · simp

theorem readByte_write_other (m : Memory) (a c : Nat) (b : Byte) (h : c ≠ a) :
    readByte (writeByte m a b) c = readByte m c := by
  unfold readByte writeByte
  split
  · rw [tableGet_erase_other _ _ _ h]
  · rw [tableGet_put_other _ _ _ _ h]

theorem readByte_write (m : Memory) (a c : Nat) (b : Byte) :
    readByte (writeByte m a b) c = if c = a then b else readByte m c := by
  split
  · subst_vars; simp
  · exact readByte_write_other _ _ _ _ (by assumption)

theorem memNoDefault_iff (m : Memory) : memNoDefault m = true ↔ ∀ p ∈ m, p.2 ≠ Config.unwrittenByte := by
  unfold memNoDefault
  rw [List.all_eq_true]
  simp

theorem memBelow_iff (cap : Nat) (m : Memory) : memBelow cap m = true ↔ ∀ p ∈ m, p.1 < cap := by
  unfold memBelow
  rw [List.all_eq_true]
  simp

theorem memWf_iff (m : Memory) : memWf m = true ↔ tableWf m = true ∧ ∀ p ∈ m, p.2 ≠ Config.unwrittenByte := by
  rw [memWf, Bool.and_eq_true, memNoDefault_iff]

/-- Writing a byte keeps the canonical form. -/
theorem memWf_write (m : Memory) (a : Nat) (b : Byte) (h : memWf m = true) : memWf (writeByte m a b) = true := by
  rw [memWf_iff] at h ⊢
  unfold writeByte
  split
  · exact ⟨tableWf_erase _ _ h.1, fun p hp => h.2 p (mem_tableErase hp)⟩
  · refine ⟨tableWf_put _ _ _ h.1, fun p hp => ?_⟩
    rcases mem_tablePut hp with rfl | hp
    · assumption
    · exact h.2 p hp

theorem memBelow_write (cap : Nat) (m : Memory) (a : Nat) (b : Byte) (ha : a < cap) (h : memBelow cap m = true) :
    memBelow cap (writeByte m a b) = true := by
  rw [memBelow_iff] at h ⊢
  intro p hp
  unfold writeByte at hp
  split at hp
  · exact h p (mem_tableErase hp)
  · rcases mem_tablePut hp with rfl | hp
    · exact ha
    · exact h p hp

/-! ## Stores and fills -/

/-- What a store of n bytes leaves at every address. -/
theorem readByte_storeBytes (m : Memory) (a : Nat) (v : Word) (n c : Nat) :
    readByte (storeBytes m a v n) c = if a ≤ c ∧ c < a + n then byteOf v (c - a) else readByte m c := by
  induction n with
  | zero => simp only [storeBytes]; rw [if_neg (by omega)]
  | succ n ih =>
    rw [storeBytes, readByte_write, ih]
    by_cases h : c = a + n
    · subst h; simp
    · rw [if_neg h]
      by_cases h2 : a ≤ c ∧ c < a + n
      · rw [if_pos h2, if_pos ⟨h2.1, by omega⟩]
      · rw [if_neg h2, if_neg (by omega)]

theorem memWf_storeBytes (m : Memory) (a : Nat) (v : Word) (n : Nat) (h : memWf m = true) :
    memWf (storeBytes m a v n) = true := by
  induction n with
  | zero => exact h
  | succ n ih => exact memWf_write _ _ _ ih

theorem memBelow_storeBytes (cap : Nat) (m : Memory) (a : Nat) (v : Word) (n : Nat) (ha : a + n ≤ cap)
    (h : memBelow cap m = true) : memBelow cap (storeBytes m a v n) = true := by
  induction n with
  | zero => exact h
  | succ n ih => exact memBelow_write _ _ _ _ (by omega) (ih (by omega))

theorem memWf_fill (bs : List Byte) (m : Memory) (a : Nat) (h : memWf m = true) : memWf (memFill m a bs) = true := by
  induction bs generalizing m a with
  | nil => exact h
  | cons b bs ih => exact ih _ _ (memWf_write _ _ _ h)

theorem memBelow_fill (cap : Nat) (bs : List Byte) (m : Memory) (a : Nat) (ha : a + bs.length ≤ cap)
    (h : memBelow cap m = true) : memBelow cap (memFill m a bs) = true := by
  induction bs generalizing m a with
  | nil => exact h
  | cons b bs ih =>
    simp only [List.length_cons] at ha
    exact ih _ _ (by omega) (memBelow_write _ _ _ _ (by omega) h)

/-- The new buffer of a writer holds the fill, byte by byte, and zeros after it. -/
theorem readByte_fill (bs : List Byte) (m : Memory) (a c : Nat) :
    readByte (memFill m a bs) c = if a ≤ c ∧ c < a + bs.length then bs.getD (c - a) 0#8 else readByte m c := by
  induction bs generalizing m a with
  | nil => simp only [memFill, List.length_nil]; rw [if_neg (by omega)]
  | cons b bs ih =>
    rw [memFill, ih, readByte_write]
    simp only [List.length_cons]
    by_cases h : c = a
    · subst h; simp
    · by_cases h2 : a + 1 ≤ c ∧ c < a + 1 + bs.length
      · rw [if_pos h2, if_pos (by omega)]
        obtain ⟨d, rfl⟩ : ∃ d, c = a + d + 1 := ⟨c - a - 1, by omega⟩
        have e1 : a + d + 1 - (a + 1) = d := by omega
        have e2 : a + d + 1 - a = d + 1 := by omega
        rw [e1, e2, List.getD_cons_succ]
      · rw [if_neg h2, if_neg h, if_neg (by omega)]

end Sys2Proof.Machine
end

