-- ==== Sys2Proof/Laws/Bits.lean ====
section
/-! SUPPORT. Bits of masks, byte slices and fields; words as lists of bits. -/

namespace Sys2Proof.Machine

@[simp] theorem getLsbD_mask (k i : Nat) : (mask k).getLsbD i = (decide (i < 32) && decide (i < k)) := by
  simp [mask, BitVec.getLsbD_ofNat, Nat.testBit_two_pow_sub_one]

theorem getLsbD_byteOf (v : Word) (j b : Nat) (hj : j < 4) :
    (byteOf v j).getLsbD b = (decide (b < 8) && v.getLsbD (24 - 8 * j + b)) := by
  simp only [byteOf, BitVec.getLsbD_setWidth, BitVec.getLsbD_ushiftRight, BitVec.getLsbD_shiftLeft]
  by_cases hb : b < 8
  · have h1 : 24 + b < 32 := by omega
    have h2 : ¬ 24 + b < 8 * j := by omega
    have h3 : 24 + b - 8 * j = 24 - 8 * j + b := by omega
    simp [hb, h1, h2, h3]
  · simp [hb]

/-- The bits below the held bits are zero, bit by bit. -/
theorem and_mask_eq_zero_iff (v : Word) (k : Nat) : v &&& mask k = 0#32 ↔ ∀ i < k, v.getLsbD i = false := by
  constructor
  · intro h i hi
    have := congrArg (fun x : Word => x.getLsbD i) h
    simp only [BitVec.getLsbD_and, getLsbD_mask, BitVec.getLsbD_zero] at this
    by_cases h32 : i < 32
    · simpa [h32, hi] using this
    · exact BitVec.getLsbD_of_ge v i (by omega)
  · intro h
    apply BitVec.eq_of_getLsbD_eq
    intro i hi
    simp only [BitVec.getLsbD_and, getLsbD_mask, BitVec.getLsbD_zero, hi, decide_true, Bool.true_and]
    by_cases hk : i < k
    · simp [h i hk]
    · simp [hk]

@[simp] theorem length_fieldBits (v : Word) (k : Nat) : (fieldBits v k).length = k := by simp [fieldBits]

@[simp] theorem length_srcBits (src : List Byte) (t k : Nat) : (srcBits src t k).length = k := by simp [srcBits]

@[simp] theorem length_stream (w : Writer) : w.stream.length = w.tell := by simp [Writer.stream]

theorem srcBits_append (src : List Byte) (t j k : Nat) :
    srcBits src t (j + k) = srcBits src t j ++ srcBits src (t + j) k := by
  apply List.ext_getElem
  · simp
  · intro i h1 h2
    simp only [srcBits, List.getElem_map, List.getElem_range, List.getElem_append, List.length_map, List.length_range]
    by_cases h : i < j
    · simp [h]
    · have : t + i = t + j + (i - j) := by omega
      simp [h, ← this]

theorem bitsValue_append_one (l : List Bool) (b : Bool) : bitsValue (l ++ [b]) = 2 * bitsValue l + b.toNat := by
  simp [bitsValue]

theorem bitsValue_lt (l : List Bool) : bitsValue l < 2 ^ l.length := by
  induction l using List.reverseRecOn with
  | nil => simp [bitsValue]
  | append_singleton l b ih =>
    rw [bitsValue_append_one, List.length_append, List.length_singleton, Nat.pow_succ]
    have : b.toNat ≤ 1 := by cases b <;> simp
    omega

theorem bitsValue_append (l m : List Bool) : bitsValue (l ++ m) = bitsValue l * 2 ^ m.length + bitsValue m := by
  induction m using List.reverseRecOn with
  | nil => simp [bitsValue]
  | append_singleton m b ih =>
    rw [← List.append_assoc, bitsValue_append_one, bitsValue_append_one, ih, List.length_append, List.length_singleton,
      Nat.pow_succ]
    ring

/-- Bit `i` of the number that a list of bits stands for is the list's bit `i` from its end. -/
theorem testBit_bitsValue (l : List Bool) (i : Nat) :
    (bitsValue l).testBit i = if i < l.length then l.getD (l.length - 1 - i) false else false := by
  induction l using List.reverseRecOn generalizing i with
  | nil => simp [bitsValue]
  | append_singleton l b ih =>
    rw [bitsValue_append_one, List.length_append, List.length_singleton]
    cases i with
    | zero =>
      have : (2 * bitsValue l + b.toNat) % 2 = b.toNat := by cases b <;> simp
      rw [Nat.testBit_zero, this]
      cases b <;> simp
    | succ i =>
      rw [Nat.testBit_succ]
      have : (2 * bitsValue l + b.toNat) / 2 = bitsValue l := by
        have : b.toNat ≤ 1 := Bool.toNat_le b
        omega
      rw [this, ih]
      by_cases h : i < l.length
      · have e : l.length + 1 - 1 - (i + 1) = l.length - 1 - i := by omega
        rw [if_pos h, if_pos (by omega), e, List.getD_append _ _ _ _ (by omega)]
      · rw [if_neg h, if_neg (by omega)]

theorem toNat_bitsWord (l : List Bool) (h : l.length ≤ 32) : (bitsWord l).toNat = bitsValue l := by
  rw [bitsWord, BitVec.toNat_ofNat, Nat.mod_eq_of_lt]
  exact lt_of_lt_of_le (bitsValue_lt l) (Nat.pow_le_pow_right (by omega) h)

/-- A word whose low `k` bits are the stream bits `f 0, …, f (k-1)` and whose other bits are zero is the word of that
list. -/
theorem eq_bitsWord (x : Word) (k : Nat) (f : Nat → Bool) (hlo : ∀ i < k, x.getLsbD (k - 1 - i) = f i)
    (hhi : ∀ i, k ≤ i → x.getLsbD i = false) : x = bitsWord ((List.range k).map f) := by
  apply BitVec.eq_of_getLsbD_eq
  intro i hi
  rw [bitsWord, BitVec.getLsbD_ofNat, testBit_bitsValue]
  simp only [List.length_map, List.length_range, hi, decide_true, Bool.true_and]
  by_cases h : i < k
  · rw [if_pos h, List.getD_eq_getElem _ _ (by simp; omega)]
    simp only [List.getElem_map, List.getElem_range]
    rw [← hlo (k - 1 - i) (by omega)]
    congr 1
    omega
  · rw [if_neg h, hhi i (by omega)]

theorem bitsWord_fieldBits (v : Word) (k : Nat) (hk : k ≤ 32) : bitsWord (fieldBits v k) = v &&& mask k := by
  symm
  apply eq_bitsWord
  · intro i hi
    have h1 : k - 1 - i < k := by omega
    have h2 : k - 1 - i < 32 := by omega
    simp [h1, h2]
  · intro i hi
    have : ¬ i < k := by omega
    simp [this]

theorem fieldBits_and_mask (v : Word) (k : Nat) (hk : k ≤ 32) : fieldBits (v &&& mask k) k = fieldBits v k := by
  apply List.ext_getElem
  · simp
  · intro i h1 h2
    simp only [length_fieldBits] at h1
    have a : k - 1 - i < k := by omega
    have b : k - 1 - i < 32 := by omega
    simp [fieldBits, a, b]

/-- The word of a field is determined by its bits. -/
theorem fieldBits_bitsWord (l : List Bool) (h : l.length ≤ 32) : fieldBits (bitsWord l) l.length = l := by
  apply List.ext_getElem
  · simp
  · intro i h1 h2
    simp only [fieldBits, List.getElem_map, List.getElem_range, bitsWord, BitVec.getLsbD_ofNat, testBit_bitsValue]
    have a : l.length - 1 - i < 32 := by omega
    have b : l.length - 1 - i < l.length := by omega
    have c : l.length - 1 - (l.length - 1 - i) = i := by omega
    rw [if_pos b, c, List.getD_eq_getElem _ _ h2]
    simp [a]

theorem sencSign_bits (v : Int) : fieldBits (sencSign v) 1 = [decide (v < 0)] := by
  unfold sencSign fieldBits
  by_cases h : v < 0 <;> simp [h, List.range_succ]

end Sys2Proof.Machine
end

