-- ==== Sys2Proof/Laws/Reader.lean ====
section
/-! SUPPORT. The reader's primitives on a sound reader: the fill takes the next octets, the primitive read returns the next
bits of the source's stream and keeps the reader sound. -/

namespace Sys2Proof.Machine

/-- How many octets a fill obtains: four, or what is left (41_reader.md R107). -/
def fillCount (fuel : Nat) (r : Reader) : Nat := min fuel (r.src.length - r.srcPos)

theorem srcBit_of_octet (src : List Byte) (p i : Nat) (b : Byte) (hb : src[p]? = some b) (hi : i < 8) :
    srcBit src (8 * p + i) = b.getLsbD (7 - i) := by
  have h1 : (8 * p + i) / 8 = p := by omega
  have h2 : (8 * p + i) % 8 = i := by omega
  simp [srcBit, h1, h2, hb]

/-- Past the physical data every bit of the stream is zero (41_reader.md R108, R121). -/
theorem srcBit_past (src : List Byte) (i : Nat) (h : 8 * src.length ≤ i) : srcBit src i = false := by
  have : src.length ≤ i / 8 := by omega
  simp [srcBit, List.getElem?_eq_none this]

/-- The loop of a fill: the octets obtained, the pulls made, and the bits gathered below what was gathered before. -/
theorem fillLoop_spec (fuel j : Nat) (acc : Word) (r : Reader) (hf : fuel ≤ 4) :
    ∃ acc', Reader.fillLoop fuel acc j r =
        (acc', j + fillCount fuel r,
          { r with
            srcPos := r.srcPos + fillCount fuel r
            pulls := r.pulls + (if fillCount fuel r = fuel then fuel else fillCount fuel r + 1) }) ∧
      (∀ i < 8 * fillCount fuel r, acc'.getLsbD (8 * fillCount fuel r - 1 - i) = srcBit r.src (8 * r.srcPos + i)) ∧
      ∀ m, m + 8 * fillCount fuel r < 32 → acc'.getLsbD (m + 8 * fillCount fuel r) = acc.getLsbD m := by
  induction fuel generalizing j acc r with
  | zero =>
    have h0 : fillCount 0 r = 0 := by simp [fillCount]
    exact ⟨acc, by simp [Reader.fillLoop, h0], by simp [h0], by simp [h0]⟩
  | succ fuel ih =>
    simp only [Reader.fillLoop, Reader.pull]
    cases hb : r.src[r.srcPos]? with
    | none =>
      have hle : r.src.length ≤ r.srcPos := List.getElem?_eq_none_iff.mp hb
      have h0 : fillCount (fuel + 1) r = 0 := by simp only [fillCount]; omega
      exact ⟨acc, by simp [h0], by simp [h0], by simp [h0]⟩
    | some b =>
      have hlt : r.srcPos < r.src.length := by
        by_contra hc
        rw [List.getElem?_eq_none (by omega)] at hb
        exact absurd hb (by simp)
      simp only
      obtain ⟨acc', e, hlo, hhi⟩ :=
        ih (j + 1) ((acc <<< 8) ||| b.setWidth 32) { r with srcPos := r.srcPos + 1, pulls := r.pulls + 1 } (by omega)
      have hn : fillCount (fuel + 1) r =
          fillCount fuel { r with srcPos := r.srcPos + 1, pulls := r.pulls + 1 } + 1 := by
        simp only [fillCount]; omega
      generalize hc : fillCount fuel { r with srcPos := r.srcPos + 1, pulls := r.pulls + 1 } = n at *
      have hnf : n ≤ fuel := by rw [← hc]; simp only [fillCount]; omega
      rw [hn]
      refine ⟨acc', ?_, ?_, ?_⟩
      · rw [e]
        have h1 : j + 1 + n = j + (n + 1) := by omega
        have h2 : r.srcPos + 1 + n = r.srcPos + (n + 1) := by omega
        have h3 : r.pulls + 1 + (if n = fuel then fuel else n + 1) =
            r.pulls + (if n + 1 = fuel + 1 then fuel + 1 else n + 1 + 1) := by
          by_cases hq : n = fuel
          · simp [hq]; omega
          · simp [hq]; omega
        rw [h1, h2, h3]
      · intro i hi
        by_cases h8 : i < 8
        · have e1 : 8 * (n + 1) - 1 - i = 7 - i + 8 * n := by omega
          rw [e1, hhi _ (by omega), srcBit_of_octet _ _ _ _ hb h8]
          have e2 : 7 - i < 32 := by omega
          have e3 : 7 - i < 8 := by omega
          simp [e2, e3]
        · have e1 : 8 * (n + 1) - 1 - i = 8 * n - 1 - (i - 8) := by omega
          rw [e1, hlo _ (by omega)]
          congr 1
          simp only
          omega
      · intro m hm
        have e1 : m + 8 * (n + 1) = m + 8 + 8 * n := by omega
        rw [e1, hhi _ (by omega)]
        have e2 : m + 8 < 32 := by omega
        have e3 : ¬ m + 8 < 8 := by omega
        simp only [BitVec.getLsbD_or, BitVec.getLsbD_shiftLeft, BitVec.getLsbD_setWidth]
        rw [BitVec.getLsbD_of_ge b (m + 8) (by omega)]
        simp [e2]

/-- A fill: up to four octets, big-endian and right-justified, with the pulls it makes (41_reader.md R107). -/
theorem fill_spec (r : Reader) :
    r.fill =
      { r with
        acc := bitsWord (srcBits r.src (8 * r.srcPos) (8 * fillCount 4 r))
        held := 8 * fillCount 4 r
        srcPos := r.srcPos + fillCount 4 r
        pulls := r.pulls + (if fillCount 4 r = 4 then 4 else fillCount 4 r + 1) } := by
  obtain ⟨acc', e, hlo, hhi⟩ := fillLoop_spec 4 0 0#32 r (by omega)
  have hacc : acc' = bitsWord (srcBits r.src (8 * r.srcPos) (8 * fillCount 4 r)) := by
    apply eq_bitsWord
    · exact hlo
    · intro i hi
      by_cases h32 : i < 32
      · have := hhi (i - 8 * fillCount 4 r) (by omega)
        rw [show i - 8 * fillCount 4 r + 8 * fillCount 4 r = i by omega] at this
        simpa using this
      · exact BitVec.getLsbD_of_ge _ _ (by omega)
  unfold Reader.fill
  rw [e, hacc]
  simp

/-- The bits of a freshly filled accumulator. -/
theorem getLsbD_srcWord (src : List Byte) (t k i : Nat) (hk : k ≤ 32) (hi : i < k) :
    (bitsWord (srcBits src t k)).getLsbD (k - 1 - i) = srcBit src (t + i) := by
  rw [bitsWord, BitVec.getLsbD_ofNat, testBit_bitsValue]
  have h1 : k - 1 - i < 32 := by omega
  have h2 : k - 1 - i < k := by omega
  have h3 : k - 1 - (k - 1 - i) = i := by omega
  simp only [length_srcBits, h1, h2, h3, decide_true, Bool.true_and, if_true]
  rw [List.getD_eq_getElem _ _ (by simpa using hi)]
  simp [srcBits]

theorem consume_ok (k : Nat) (x : Word) (r : Reader) (h : r.held ≤ 32) :
    r.consume k x = .done x { r with tell := r.tell + k, budget := r.budget - k } := by
  have : ¬ 32 < r.held := by omega
  simp [Reader.consume, this]

/-- A read within the held bits: nothing is pulled and the accumulator stays (41_reader.md R105, R106). -/
theorem pread_held (r : Reader) (k : Nat) (h : r.Ok) (hb : k ≤ r.budget) (hk : k ≤ r.held) :
    r.pread k = .done (bitsWord (srcBits r.src r.tell k))
      { r with held := r.held - k, tell := r.tell + k, budget := r.budget - k } := by
  obtain ⟨h1, h2, h3, h4, h5, h6, h7⟩ := h
  have hbb : ¬ r.budget < k := by omega
  unfold Reader.pread
  rw [if_neg hbb, if_pos hk, consume_ok _ _ _ (by simp only; omega)]
  congr 1
  apply eq_bitsWord
  · intro i hi
    have e1 : k - 1 - i < 32 := by omega
    have e2 : k - 1 - i < k := by omega
    have e3 : r.held - k + (k - 1 - i) = r.held - 1 - i := by omega
    simp [e1, e2, e3, h6 i (by omega)]
  · intro i hi
    have : ¬ i < k := by omega
    simp [this]

/-- The primitive read on a sound reader with budget returns the next bits of the stream, and changes nothing but the
position (41_reader.md R105, R108, R121). -/
theorem pread_spec (r : Reader) (k : Nat) (h : r.Ok) (hk1 : 1 ≤ k) (hk : k ≤ 32) (hb : k ≤ r.budget) :
    ∃ r', r.pread k = .done (bitsWord (srcBits r.src r.tell k)) r' ∧ r.Consumed r' k := by
  have hok := h
  obtain ⟨h1, h2, h3, h4, h5, h6, h7⟩ := h
  by_cases hin : k ≤ r.held
  · refine ⟨_, pread_held r k hok hb hin, rfl, by simp only; omega, ?_, rfl, rfl, rfl, rfl⟩
    refine ⟨by simp only; omega, by simp only; omega, h3, h4, by simp only; omega, ?_, h7⟩
    intro i hi
    simp only at hi ⊢
    have e1 : r.held - k - 1 - i = r.held - 1 - (k + i) := by omega
    rw [e1, h6 _ (by omega)]
    congr 1
    omega
  · have hbb : ¬ r.budget < k := by omega
    have hn : fillCount 4 r ≤ 4 := by simp only [fillCount]; omega
    have hn2 : fillCount 4 r = 4 ∨ r.srcPos + fillCount 4 r = r.src.length := by simp only [fillCount]; omega
    have hn3 : r.srcPos + fillCount 4 r ≤ r.src.length := by simp only [fillCount]; omega
    unfold Reader.pread
    rw [if_neg hbb, if_neg hin, fill_spec]
    generalize fillCount 4 r = n at *
    unfold Reader.readFresh
    by_cases hneed : k - r.held ≤ 8 * n
    · rw [if_pos (show k - r.held ≤ 8 * n from hneed), consume_ok _ _ _ (by simp only; omega)]
      have hA : 8 * r.srcPos = r.tell + r.held := by omega
      refine ⟨_, congrArg (fun x => Prim.done x _) ?_, rfl, by simp only; omega, ?_, rfl, rfl, rfl, rfl⟩
      · apply eq_bitsWord
        · intro i hi
          simp only [BitVec.getLsbD_or, BitVec.getLsbD_shiftLeft, BitVec.getLsbD_and, getLsbD_mask,
            BitVec.getLsbD_ushiftRight]
          have e0 : k - 1 - i < 32 := by omega
          by_cases hi2 : i < r.held
          · have e1 : ¬ k - 1 - i < k - r.held := by omega
            have e2 : k - 1 - i - (k - r.held) = r.held - 1 - i := by omega
            have e3 : r.held - 1 - i < 32 := by omega
            have e4 : r.held - 1 - i < r.held := by omega
            simp [e0, e1, e2, e3, e4, h6 i hi2, -BitVec.getLsbD_eq_getElem]
          · have e1 : k - 1 - i < k - r.held := by omega
            have e2 : 8 * n - (k - r.held) + (k - 1 - i) = 8 * n - 1 - (i - r.held) := by omega
            rw [e2, getLsbD_srcWord _ _ _ _ (by omega) (by omega)]
            have e3 : 8 * r.srcPos + (i - r.held) = r.tell + i := by omega
            simp [e0, e1, e3]
        · intro i hi
          simp only [BitVec.getLsbD_or, BitVec.getLsbD_shiftLeft, BitVec.getLsbD_and, getLsbD_mask,
            BitVec.getLsbD_ushiftRight]
          have e1 : ¬ i < k - r.held := by omega
          have e2 : ¬ i - (k - r.held) < r.held := by omega
          simp [e1, e2]
      · refine ⟨by simp only; omega, by simp only; omega, h3, hn3, by simp only; omega, ?_, h7⟩
        intro i hi
        simp only at hi ⊢
        have e1 : 8 * n - (k - r.held) - 1 - i = 8 * n - 1 - (k - r.held + i) := by omega
        rw [e1, getLsbD_srcWord _ _ _ _ (by omega) (by omega)]
        congr 1
        omega
    · rw [if_neg (show ¬ k - r.held ≤ 8 * n from hneed), consume_ok _ _ _ (by simp only; omega)]
      have hend : r.srcPos + n = r.src.length := by omega
      refine ⟨_, congrArg (fun x => Prim.done x _) ?_, rfl, by simp only; omega, ?_, rfl, rfl, rfl, rfl⟩
      · apply eq_bitsWord
        · intro i hi
          simp only [BitVec.getLsbD_or, BitVec.getLsbD_shiftLeft, BitVec.getLsbD_and, getLsbD_mask]
          have e0 : k - 1 - i < 32 := by omega
          by_cases hi2 : i < r.held
          · have e1 : ¬ k - 1 - i < k - r.held := by omega
            have e2 : k - 1 - i - (k - r.held) = r.held - 1 - i := by omega
            have e3 : r.held - 1 - i < 32 := by omega
            have e4 : r.held - 1 - i < r.held := by omega
            have e5 : ¬ k - 1 - i - (k - r.held - 8 * n) < 8 * n := by omega
            simp [e0, e1, e2, e3, e4, e5, h6 i hi2, -BitVec.getLsbD_eq_getElem]
          · have e1 : k - 1 - i < k - r.held := by omega
            by_cases hz : k - 1 - i < k - r.held - 8 * n
            · have hs : srcBit r.src (r.tell + i) = false := srcBit_past _ _ (by omega)
              simp [e0, e1, hz, hs]
            · have hA : 8 * r.srcPos = r.tell + r.held := by omega
              have e2 : k - 1 - i - (k - r.held - 8 * n) = 8 * n - 1 - (i - r.held) := by omega
              have e3 : 8 * n - 1 - (i - r.held) < 8 * n := by omega
              have e4 : 8 * n - 1 - (i - r.held) < 32 := by omega
              have e5 : 8 * r.srcPos + (i - r.held) = r.tell + i := by omega
              rw [e2, getLsbD_srcWord _ _ _ _ (by omega) (by omega), e5]
              simp [e0, e1, hz, e3, e4]
        · intro i hi
          simp only [BitVec.getLsbD_or, BitVec.getLsbD_shiftLeft, BitVec.getLsbD_and, getLsbD_mask]
          have e2 : ¬ i - (k - r.held) < r.held := by omega
          have e3 : ¬ i - (k - r.held - 8 * n) < 8 * n := by omega
          simp [e2, e3]
      · refine ⟨by simp only; omega, by simp only; omega, h3, hn3, Or.inr ⟨rfl, hend, by simp only; omega⟩, ?_, h7⟩
        intro i hi
        exact absurd hi (Nat.not_lt_zero i)

/-- A read past the budget is an EOF_ERROR, and changes nothing (41_reader.md R104). -/
theorem pread_eof (r : Reader) (k : Nat) (hb : r.budget < k) :
    r.pread k = .raised (errorResponse .eofError (dataPair k r.tell)) r := by
  simp [Reader.pread, hb, raiseError]

/-- Reads one after another consume as one. -/
theorem Reader.Consumed.trans {r r1 r2 : Reader} {j k : Nat} (h1 : r.Consumed r1 j) (h2 : r1.Consumed r2 k) :
    r.Consumed r2 (j + k) := by
  obtain ⟨a1, a2, -, a4, a5, a6, a7⟩ := h1
  obtain ⟨b1, b2, b3, b4, b5, b6, b7⟩ := h2
  exact ⟨by omega, by omega, b3, by rw [b4, a4], by rw [b5, a5], by rw [b6, a6], by rw [b7, a7]⟩

end Sys2Proof.Machine
end

