-- ==== Sys2Proof/Laws/State.lean ====
section
/-! SUPPORT. One lemma per field per update of the system's state, and what an update does to the observations. -/

namespace Sys2Proof.Machine

@[simp] theorem State.setWriter_writers (s : State) (id : Nat) (w : Writer) :
    (s.setWriter id w).writers = tablePut s.writers id w := rfl
@[simp] theorem State.setWriter_readers (s : State) (id : Nat) (w : Writer) : (s.setWriter id w).readers = s.readers := rfl
@[simp] theorem State.setWriter_input (s : State) (id : Nat) (w : Writer) : (s.setWriter id w).input = s.input := rfl
@[simp] theorem State.setWriter_port (s : State) (id : Nat) (w : Writer) : (s.setWriter id w).port = s.port := rfl
@[simp] theorem State.setWriter_transcript (s : State) (id : Nat) (w : Writer) :
    (s.setWriter id w).transcript = s.transcript := rfl

@[simp] theorem State.setReader_writers (s : State) (id : Nat) (r : Reader) : (s.setReader id r).writers = s.writers := rfl
@[simp] theorem State.setReader_readers (s : State) (id : Nat) (r : Reader) :
    (s.setReader id r).readers = tablePut s.readers id r := rfl
@[simp] theorem State.setReader_input (s : State) (id : Nat) (r : Reader) : (s.setReader id r).input = s.input := rfl
@[simp] theorem State.setReader_port (s : State) (id : Nat) (r : Reader) : (s.setReader id r).port = s.port := rfl
@[simp] theorem State.setReader_transcript (s : State) (id : Nat) (r : Reader) :
    (s.setReader id r).transcript = s.transcript := rfl

@[simp] theorem State.respond_writers (s : State) (resp : Response) : (s.respond resp).writers = s.writers := rfl
@[simp] theorem State.respond_readers (s : State) (resp : Response) : (s.respond resp).readers = s.readers := rfl
@[simp] theorem State.respond_input (s : State) (resp : Response) : (s.respond resp).input = s.input := rfl
@[simp] theorem State.respond_port (s : State) (resp : Response) : (s.respond resp).port = s.port := rfl
@[simp] theorem State.respond_transcript (s : State) (resp : Response) :
    (s.respond resp).transcript = .returned s.port resp :: s.transcript := rfl

@[simp] theorem State.startRun_writers (s : State) (p : Port) : (s.startRun p).writers = s.writers := rfl
@[simp] theorem State.startRun_readers (s : State) (p : Port) : (s.startRun p).readers = s.readers := rfl
@[simp] theorem State.startRun_input (s : State) (p : Port) : (s.startRun p).input = s.input := rfl
@[simp] theorem State.startRun_port (s : State) (p : Port) : (s.startRun p).port = s.port := rfl
@[simp] theorem State.startRun_transcript (s : State) (p : Port) :
    (s.startRun p).transcript = .constructed p :: s.transcript := rfl

@[simp] theorem State.take_writers (s : State) (p : Port) (rest : List HostAction) : (s.take p rest).writers = s.writers := rfl
@[simp] theorem State.take_readers (s : State) (p : Port) (rest : List HostAction) : (s.take p rest).readers = s.readers := rfl
@[simp] theorem State.take_input (s : State) (p : Port) (rest : List HostAction) : (s.take p rest).input = rest := rfl
@[simp] theorem State.take_port (s : State) (p : Port) (rest : List HostAction) : (s.take p rest).port = p := rfl
@[simp] theorem State.take_transcript (s : State) (p : Port) (rest : List HostAction) :
    (s.take p rest).transcript = s.transcript := rfl

@[simp] theorem State.addWriter_writers (s : State) (id : Nat) (w : Writer) :
    (s.addWriter id w).writers = tablePut s.writers id w := rfl
@[simp] theorem State.addWriter_readers (s : State) (id : Nat) (w : Writer) : (s.addWriter id w).readers = s.readers := rfl
@[simp] theorem State.addWriter_input (s : State) (id : Nat) (w : Writer) : (s.addWriter id w).input = s.input := rfl
@[simp] theorem State.addWriter_port (s : State) (id : Nat) (w : Writer) : (s.addWriter id w).port = s.port := rfl
@[simp] theorem State.addWriter_transcript (s : State) (id : Nat) (w : Writer) :
    (s.addWriter id w).transcript = .constructed (.writer id) :: s.transcript := rfl

@[simp] theorem State.addReader_readers (s : State) (id : Nat) (r : Reader) :
    (s.addReader id r).readers = tablePut s.readers id r := rfl
@[simp] theorem State.addReader_writers (s : State) (id : Nat) (r : Reader) : (s.addReader id r).writers = s.writers := rfl
@[simp] theorem State.addReader_input (s : State) (id : Nat) (r : Reader) : (s.addReader id r).input = s.input := rfl
@[simp] theorem State.addReader_port (s : State) (id : Nat) (r : Reader) : (s.addReader id r).port = s.port := rfl
@[simp] theorem State.addReader_transcript (s : State) (id : Nat) (r : Reader) :
    (s.addReader id r).transcript = .constructed (.reader id) :: s.transcript := rfl

/-! ## Observations -/

/-- A response is the newest of its port's run. -/
theorem observation_respond (s : State) (resp : Response) :
    (s.respond resp).observation s.port = s.observation s.port ++ [resp] := by
  simp [State.observation, runResponses]

/-- A response leaves every other port's observation as it is. -/
theorem observation_respond_other (s : State) (resp : Response) (p : Port) (h : s.port ≠ p) :
    (s.respond resp).observation p = s.observation p := by
  simp [State.observation, runResponses, h]

/-- A run starts with nothing observed. -/
theorem observation_startRun (s : State) (p : Port) : (s.startRun p).observation p = [] := by
  simp [State.observation, runResponses]

/-- The start of a run leaves every other port's observation as it is. -/
theorem observation_startRun_other (s : State) (p q : Port) (h : p ≠ q) :
    (s.startRun p).observation q = s.observation q := by
  simp [State.observation, runResponses, h]

end Sys2Proof.Machine
end

