-- ==== Sys2Proof/Laws/Writer.lean ====
section
/-! SUPPORT. The writer's primitives on a sound writer: the primitive write appends its field, a rewind truncates, a close
stores the stream, and each keeps the writer sound. -/

namespace Sys2Proof.Machine

/-- The stream bits of a writer, from the buffer below the word cursor and from the accumulator above it. -/
theorem streamBit_eq (w : Writer) (i : Nat) (h : i < 8 * w.cursor + 32) :
    w.streamBit i =
      if i < 8 * w.cursor then (readByte w.buf (i / 8)).getLsbD (7 - i % 8) else w.acc.getLsbD (31 - (i - 8 * w.cursor)) := by
  unfold Writer.streamBit Writer.outByte
  by_cases hi : i < 8 * w.cursor
  · rw [if_pos hi, if_pos (by omega)]
  · rw [if_neg hi, if_neg (by omega), getLsbD_byteOf _ _ _ (by omega)]
    have h1 : 7 - i % 8 < 8 := by omega
    have h2 : 24 - 8 * (i / 8 - w.cursor) + (7 - i % 8) = 31 - (i - 8 * w.cursor) := by omega
    simp [h1, h2]

/-- A writer's stream is another's with bits appended, bit by bit. -/
theorem stream_append (w w' : Writer) (bits : List Bool) (hlen : w'.tell = w.tell + bits.length)
    (hold : ∀ i < w.tell, w'.streamBit i = w.streamBit i)
    (hnew : ∀ i, (h : i < bits.length) → w'.streamBit (w.tell + i) = bits[i]) : w'.stream = w.stream ++ bits := by
  apply List.ext_getElem
  · simp [hlen]
  · intro i h1 h2
    simp only [length_stream] at h1
    by_cases h : i < w.tell
    · rw [List.getElem_append_left (by simpa using h)]
      simp [Writer.stream, hold i h]
    · rw [List.getElem_append_right (by simpa using h)]
      simp only [length_stream]
      rw [← hnew (i - w.tell) (by omega)]
      simp only [Writer.stream, List.getElem_map, List.getElem_range]
      congr 1
      omega

theorem readByte_store_flush (m : Memory) (c : Nat) (v : Word) (i : Nat) (h0 : 8 * c ≤ i) (h1 : i < 8 * c + 32) :
    (readByte (storeBytes m c v 4) (i / 8)).getLsbD (7 - i % 8) = v.getLsbD (31 - (i - 8 * c)) := by
  rw [readByte_storeBytes, if_pos (by omega), getLsbD_byteOf _ _ _ (by omega)]
  have h2 : 7 - i % 8 < 8 := by omega
  have h3 : 24 - 8 * (i / 8 - c) + (7 - i % 8) = 31 - (i - 8 * c) := by omega
  simp [h2, h3]

theorem getElem_fieldBits (v : Word) (k i : Nat) (h : i < (fieldBits v k).length) :
    (fieldBits v k)[i] = v.getLsbD (k - 1 - i) := by simp [fieldBits]

/-- The fit case of the primitive write (40_writer.md R80). -/
theorem pwrite_fit (w : Writer) (v : Word) (k : Nat) (h : w.Ok) (hc : w.tell + k ≤ 8 * w.cap)
    (hf : k ≤ 32 - w.held) :
    w.pwrite v k = .done () { w with
      acc := w.acc ||| ((v &&& mask k) <<< (32 - w.held - k)), held := w.held + k, tell := w.tell + k } := by
  obtain ⟨h1, -⟩ := h
  have a : ¬ 8 * w.cap < w.tell + k := by omega
  have b : ¬ 32 < w.held + k := by omega
  simp [Writer.pwrite, a, hf, Writer.checkHeld, b]

/-- The straddle case of the primitive write (40_writer.md R81). -/
theorem pwrite_straddle (w : Writer) (v : Word) (k : Nat) (h : w.Ok) (hk : k ≤ 32) (hc : w.tell + k ≤ 8 * w.cap)
    (hf : ¬ k ≤ 32 - w.held) :
    w.pwrite v k = .done () { w with
      buf := storeBytes w.buf w.cursor (w.acc ||| ((v &&& mask k) >>> (k - (32 - w.held)))) 4
      acc := ((v &&& mask k) &&& mask (k - (32 - w.held))) <<< (32 - (k - (32 - w.held)))
      cursor := w.cursor + 4
      held := k - (32 - w.held)
      tell := w.tell + k } := by
  obtain ⟨h1, h2, h3, h4, h5, h6, -⟩ := h
  have a : ¬ 8 * w.cap < w.tell + k := by omega
  have b : ¬ 32 < k - (32 - w.held) := by omega
  have c : w.cursor + 4 ≤ w.cap := by omega
  simp [Writer.pwrite, a, hf, Writer.checkHeld, b, Writer.memWrite, c, primBind]

/-- The primitive write on a sound writer with room appends its field to the stream and changes nothing else (40_writer.md
R78, R100). -/
theorem pwrite_spec (w : Writer) (v : Word) (k : Nat) (h : w.Ok) (hk : 1 ≤ k) (hk2 : k ≤ 32)
    (hc : w.tell + k ≤ 8 * w.cap) : ∃ w', w.pwrite v k = .done () w' ∧ w.Appended w' (fieldBits v k) := by
  have hok := h
  obtain ⟨h1, h2, h3, h4, h5, h6, h7, h8, h9, h10⟩ := h
  rw [and_mask_eq_zero_iff] at h5
  by_cases hf : k ≤ 32 - w.held
  · refine ⟨_, pwrite_fit w v k hok hc hf, ?_⟩
    have hcur : 4 * ((w.tell + k - 1) / 32) = w.cursor := by omega
    have hheld : w.tell + k - 32 * ((w.tell + k - 1) / 32) = w.held + k := by omega
    refine ⟨?_, by rw [length_fieldBits], by rw [length_fieldBits, hcur], by rw [length_fieldBits, hheld], ?_,
      ⟨rfl, rfl, rfl, rfl, rfl⟩, fun a _ => rfl⟩
    · apply stream_append
      · simp
      · intro i hi
        rw [streamBit_eq _ _ (by simp only; omega), streamBit_eq _ _ (by omega)]
        by_cases hb : i < 8 * w.cursor
        · rw [if_pos (show i < 8 * w.cursor from hb), if_pos hb]
        · rw [if_neg (show ¬ i < 8 * w.cursor from hb), if_neg hb]
          simp only [BitVec.getLsbD_or, BitVec.getLsbD_shiftLeft, BitVec.getLsbD_and, getLsbD_mask]
          have e : ¬ 31 - (i - 8 * w.cursor) - (32 - w.held - k) < k := by omega
          simp [e]
      · intro i hi
        simp only [length_fieldBits] at hi
        rw [streamBit_eq _ _ (by simp only; omega), getElem_fieldBits]
        rw [if_neg (show ¬ w.tell + i < 8 * w.cursor by omega)]
        simp only [BitVec.getLsbD_or, BitVec.getLsbD_shiftLeft, BitVec.getLsbD_and, getLsbD_mask]
        rw [h5 _ (by omega)]
        have e0 : 31 - (w.tell + i - 8 * w.cursor) < 32 := by omega
        have e1 : ¬ 31 - (w.tell + i - 8 * w.cursor) < 32 - w.held - k := by omega
        have e2 : 31 - (w.tell + i - 8 * w.cursor) - (32 - w.held - k) = k - 1 - i := by omega
        have e3 : k - 1 - i < 32 := by omega
        have e4 : k - 1 - i < k := by omega
        simp [e0, e1, e2, e3, e4]
    · refine ⟨by simp only; omega, h2, by simp only; omega, by simp only; omega, ?_, h6, h7, h8, h9, h10⟩
      rw [and_mask_eq_zero_iff]
      intro i hi
      simp only at hi
      simp only [BitVec.getLsbD_or, BitVec.getLsbD_shiftLeft]
      rw [h5 _ (by omega)]
      have e1 : i < 32 - w.held - k := by omega
      simp [e1]
  · refine ⟨_, pwrite_straddle w v k hok hk2 hc hf, ?_⟩
    have hcur : 4 * ((w.tell + k - 1) / 32) = w.cursor + 4 := by omega
    have hheld : w.tell + k - 32 * ((w.tell + k - 1) / 32) = k - (32 - w.held) := by omega
    have hcap : w.cursor + 4 ≤ w.cap := by omega
    refine ⟨?_, by rw [length_fieldBits], by rw [length_fieldBits, hcur], by rw [length_fieldBits, hheld], ?_,
      ⟨rfl, rfl, rfl, rfl, rfl⟩, ?_⟩
    · apply stream_append
      · simp
      · intro i hi
        rw [streamBit_eq _ _ (by simp only; omega), streamBit_eq _ _ (by omega), if_pos (by simp only; omega)]
        split
        · rw [readByte_storeBytes, if_neg (by omega)]
        · rw [readByte_store_flush _ _ _ _ (by omega) (by omega)]
          simp only [BitVec.getLsbD_or, BitVec.getLsbD_ushiftRight, BitVec.getLsbD_and, getLsbD_mask]
          have e : ¬ k - (32 - w.held) + (31 - (i - 8 * w.cursor)) < k := by omega
          simp [e]
      · intro i hi
        simp only [length_fieldBits] at hi
        rw [streamBit_eq _ _ (by simp only; omega), getElem_fieldBits]
        by_cases hlo : i < 32 - w.held
        · rw [if_pos (by simp only; omega)]
          simp only
          rw [readByte_store_flush _ _ _ _ (by omega) (by omega)]
          simp only [BitVec.getLsbD_or, BitVec.getLsbD_ushiftRight, BitVec.getLsbD_and, getLsbD_mask]
          rw [h5 _ (by omega)]
          have e2 : k - (32 - w.held) + (31 - (w.tell + i - 8 * w.cursor)) = k - 1 - i := by omega
          have e3 : k - 1 - i < 32 := by omega
          have e4 : k - 1 - i < k := by omega
          simp [e2, e3, e4]
        · rw [if_neg (by simp only; omega)]
          simp only [BitVec.getLsbD_shiftLeft, BitVec.getLsbD_and, getLsbD_mask]
          have e0 : 31 - (w.tell + i - 8 * (w.cursor + 4)) < 32 := by omega
          have e1 : ¬ 31 - (w.tell + i - 8 * (w.cursor + 4)) < 32 - (k - (32 - w.held)) := by omega
          have e2 : 31 - (w.tell + i - 8 * (w.cursor + 4)) - (32 - (k - (32 - w.held))) = k - 1 - i := by omega
          have e3 : k - 1 - i < 32 := by omega
          have e4 : k - 1 - i < k := by omega
          have e5 : k - 1 - i < k - (32 - w.held) := by omega
          simp [e0, e1, e2, e3, e4, e5]
    · refine ⟨by simp only; omega, by simp only; omega, by simp only; omega, by simp only; omega, ?_, h6, h7,
        memWf_storeBytes _ _ _ _ h8, memBelow_storeBytes _ _ _ _ _ hcap h9, h10⟩
      rw [and_mask_eq_zero_iff]
      intro i hi
      simp only at hi
      simp only [BitVec.getLsbD_shiftLeft]
      simp [hi]
    · intro a ha
      simp only [length_fieldBits] at ha
      simp only
      rw [readByte_storeBytes, if_neg (by omega)]

/-- A primitive write past the capacity is the fatal fault, and changes nothing else (40_writer.md R79). -/
theorem pwrite_overflow (w : Writer) (v : Word) (k : Nat) (hc : 8 * w.cap < w.tell + k) :
    w.pwrite v k = .raised (errorResponse .faultCapacityOverflow (dataPair k w.tell)) { w with fault := 0x81#8 } := by
  simp [Writer.pwrite, hc, writerFatal, takeFatal, statusCode]

/-- Runs of bits committed one after another are one run (40_writer.md R100). -/
theorem Writer.Appended.trans {w w1 w2 : Writer} {a b : List Bool} (h0 : w.Ok) (ha : a ≠ []) (hb : b ≠ [])
    (h1 : w.Appended w1 a) (h2 : w1.Appended w2 b) : w.Appended w2 (a ++ b) := by
  obtain ⟨s1, t1, c1, d1, o1, ⟨f1, f2, f3, f4, f5⟩, m1⟩ := h1
  obtain ⟨s2, t2, c2, d2, o2, ⟨g1, g2, g3, g4, g5⟩, m2⟩ := h2
  obtain ⟨k1, k2, k3, -⟩ := h0
  have la : 1 ≤ a.length := List.length_pos_of_ne_nil ha
  have lb : 1 ≤ b.length := List.length_pos_of_ne_nil hb
  have e : w1.tell + b.length = w.tell + (a ++ b).length := by rw [List.length_append]; omega
  refine ⟨by rw [s2, s1, List.append_assoc], by omega, by rw [c2, e], by rw [d2, e], o2,
    ⟨by rw [g1, f1], by rw [g2, f2], by rw [g3, f3], by rw [g4, f4], by rw [g5, f5]⟩, fun x hx => ?_⟩
  rw [← e] at hx
  rw [m2 x (by omega), m1 x (by omega)]

/-! ## Rewind and close -/

theorem getLsbD_loadWord (m : Memory) (a d : Nat) (hd : d < 32) :
    (loadWord m a).getLsbD (31 - d) = (readByte m (a + d / 8)).getLsbD (7 - d % 8) := by
  unfold loadWord
  simp only [BitVec.getLsbD_append]
  have hq : d / 8 = 0 ∨ d / 8 = 1 ∨ d / 8 = 2 ∨ d / 8 = 3 := by omega
  rcases hq with q | q | q | q <;> rw [q]
  · rw [if_neg (by omega), if_neg (by omega), if_neg (by omega)]
    congr 1; omega
  · rw [if_neg (by omega), if_neg (by omega), if_pos (by omega)]
    congr 1; omega
  · rw [if_neg (by omega), if_pos (by omega)]
    congr 1; omega
  · rw [if_pos (by omega)]
    congr 1; omega

/-- The pending flush of a rewind on a sound writer (40_writer.md R95). -/
theorem flushPending_eq (w : Writer) (h : w.Ok) :
    w.flushPending = .done () { w with buf := if 0 < w.held then storeBytes w.buf w.cursor w.acc 4 else w.buf } := by
  obtain ⟨h1, h2, h3, h4, h5, h6, -⟩ := h
  unfold Writer.flushPending Writer.memWrite
  by_cases hh : 0 < w.held
  · have c : w.cursor + 4 ≤ w.cap := by omega
    simp [hh, c]
  · simp [hh]

theorem readByte_flushed (w : Writer) (a : Nat) (h : w.held = 0 ∨ a < w.cursor ∨ w.cursor + 4 ≤ a) :
    readByte (if 0 < w.held then storeBytes w.buf w.cursor w.acc 4 else w.buf) a = readByte w.buf a := by
  split
  · rw [readByte_storeBytes, if_neg (by omega)]
  · rfl

/-- After the pending flush every committed bit stands in the buffer (40_writer.md R95). -/
theorem flushed_streamBit (w : Writer) (h : w.Ok) (i : Nat) (hi : i < w.tell) :
    (readByte (if 0 < w.held then storeBytes w.buf w.cursor w.acc 4 else w.buf) (i / 8)).getLsbD (7 - i % 8) =
      w.streamBit i := by
  obtain ⟨h1, h2, h3, -⟩ := h
  rw [streamBit_eq _ _ (by omega)]
  by_cases hb : i < 8 * w.cursor
  · rw [if_pos hb, readByte_flushed _ _ (by omega)]
  · rw [if_neg hb, if_pos (by omega), readByte_store_flush _ _ _ _ (by omega) (by omega)]

/-- A writer's stream is another's cut at `p`, bit by bit. -/
theorem stream_take (w w' : Writer) (p : Nat) (hp : p ≤ w.tell) (hlen : w'.tell = p)
    (hold : ∀ i < p, w'.streamBit i = w.streamBit i) : w'.stream = w.stream.take p := by
  apply List.ext_getElem
  · simp [hlen]; omega
  · intro i h1 h2
    simp only [length_stream] at h1
    simp [Writer.stream, hold i (by omega)]

/-- An accepted rewind cuts the stream at its target and changes no bit before it (40_writer.md R93 to R95, R100). -/
theorem rewindTo_spec (w : Writer) (p : Nat) (h : w.Ok) (hp : p ≤ w.tell) :
    ∃ w', w.rewindTo p = .done () w' ∧ w.Rewound w' p := by
  have hok := h
  have hfl := flushed_streamBit w h
  have hfr := readByte_flushed w
  obtain ⟨h1, h2, h3, h4, h5, h6, h7, h8, h9, h10⟩ := h
  unfold Writer.rewindTo
  rw [flushPending_eq w hok]
  generalize hbuf : (if 0 < w.held then storeBytes w.buf w.cursor w.acc 4 else w.buf) = buf at *
  have hwf : memWf buf = true := by
    rw [← hbuf]; split
    · exact memWf_storeBytes _ _ _ _ h8
    · exact h8
  have hbelow : memBelow w.cap buf = true := by
    rw [← hbuf]; split
    · exact memBelow_storeBytes _ _ _ _ _ (by omega) h9
    · exact h9
  simp only [primBind, Writer.reload]
  by_cases hz : p % 32 = 0
  · rw [if_pos hz]
    refine ⟨_, rfl, ?_, rfl, rfl, hz.symm, ?_, ⟨rfl, rfl, rfl, rfl, rfl⟩, hfr⟩
    · apply stream_take _ _ _ hp rfl
      intro i hi
      rw [streamBit_eq _ _ (by simp only; omega), if_pos (by simp only; omega)]
      exact hfl i (by omega)
    · exact ⟨by simp only; omega, by simp only; omega, by simp only; omega, by simp only; omega, by simp, h6, h7, hwf,
        hbelow, h10⟩
  · rw [if_neg hz]
    have hc : 4 * (p / 32) + 4 ≤ w.cap := by omega
    simp only [Writer.memRead, if_pos hc]
    refine ⟨_, rfl, ?_, rfl, rfl, rfl, ?_, ⟨rfl, rfl, rfl, rfl, rfl⟩, hfr⟩
    · apply stream_take _ _ _ hp rfl
      intro i hi
      rw [streamBit_eq _ _ (by simp only; omega)]
      by_cases hb : i < 8 * (4 * (p / 32))
      · rw [if_pos (show i < 8 * (4 * (p / 32)) from hb)]
        exact hfl i (by omega)
      · rw [if_neg (show ¬ i < 8 * (4 * (p / 32)) from hb)]
        simp only [BitVec.getLsbD_shiftLeft, BitVec.getLsbD_ushiftRight]
        have e0 : 31 - (i - 8 * (4 * (p / 32))) < 32 := by omega
        have e1 : ¬ 31 - (i - 8 * (4 * (p / 32))) < 32 - p % 32 := by omega
        have e2 : 32 - p % 32 + (31 - (i - 8 * (4 * (p / 32))) - (32 - p % 32)) = 31 - (i - 8 * (4 * (p / 32))) := by omega
        rw [e2, getLsbD_loadWord _ _ _ (by omega), ← hfl i (by omega)]
        have e3 : 4 * (p / 32) + (i - 8 * (4 * (p / 32))) / 8 = i / 8 := by omega
        have e4 : (i - 8 * (4 * (p / 32))) % 8 = i % 8 := by omega
        simp [e0, e1, e3, e4]
    · refine ⟨by simp only; omega, by simp only; omega, by simp only; omega, by simp only; omega, ?_, h6, h7, hwf, hbelow,
        h10⟩
      rw [and_mask_eq_zero_iff]
      intro i hi
      simp only at hi
      simp [BitVec.getLsbD_shiftLeft, hi]

/-- Closing a sound writer stores its committed bytes and leaves its logical stream as it was (40_writer.md R96). -/
theorem close_spec (w : Writer) (h : w.Ok) : ∃ w', w.close = .done () w' ∧ w.ClosedAs w' := by
  obtain ⟨h1, h2, h3, h4, h5, h6, h7, h8, h9, h10⟩ := h
  have hcap : w.cursor + ceilDiv w.held 8 ≤ w.cap := by unfold ceilDiv; omega
  have hb : ∀ a, readByte (storeBytes w.buf w.cursor w.acc (ceilDiv w.held 8)) a =
      if w.cursor ≤ a ∧ a < w.cursor + ceilDiv w.held 8 then byteOf w.acc (a - w.cursor) else readByte w.buf a :=
    fun a => readByte_storeBytes _ _ _ _ _
  have hclose : w.close = .done () { w with
      buf := storeBytes w.buf w.cursor w.acc (ceilDiv w.held 8), closed := true } := by
    unfold Writer.close Writer.memWrite
    by_cases hz : ceilDiv w.held 8 = 0
    · simp [hz, primBind, storeBytes]
    · simp [hz, primBind, hcap]
  have hlen : w.tell = 8 * w.cursor + w.held := h3
  refine ⟨_, hclose, rfl, rfl, rfl, rfl, rfl, rfl, rfl, rfl, rfl, ?_, ?_, ?_, ?_⟩
  · exact ⟨h1, h2, h3, h4, h5, h6, h7, memWf_storeBytes _ _ _ _ h8, memBelow_storeBytes _ _ _ _ _ hcap h9, h10⟩
  · unfold Writer.out
    apply List.map_congr_left
    intro i hi
    unfold Writer.outByte
    by_cases hlt : i < w.cursor
    · rw [if_pos (show i < w.cursor from hlt), if_pos hlt]
      simp only
      rw [hb, if_neg (by omega)]
    · rw [if_neg (show ¬ i < w.cursor from hlt), if_neg hlt]
  · intro i hi
    simp only
    unfold ceilDiv at hi
    rw [hb]
    unfold Writer.outByte
    by_cases hlt : i < w.cursor
    · rw [if_neg (by omega), if_pos hlt]
    · rw [if_pos (by unfold ceilDiv; omega), if_neg hlt]
  · intro a ha
    simp only
    rw [hb, if_neg (by omega)]

end Sys2Proof.Machine
end

