-- ==== Sys2Proof/Laws/Command.lean ====
section
/-! SUPPORT. The shared operations of the commands: prologues, the end of a command, tags and field bodies, each said once. -/

namespace Sys2Proof.Machine

/-! ## Prologues -/

/-- An open writer's prologue lets a writer command through, W_COPY if it is paired (40_writer.md R76). -/
theorem writer_prologue_pass (w : Writer) (op : BitVec 8) (hf : w.fault = 0#8) (hop : isWriterOp op = true)
    (hp : op = 0x0D#8 → w.pair ≠ none) (hc : w.closed = true → runsAfterClose op = true) : w.prologue op = .pass := by
  unfold Writer.prologue
  rw [if_neg (by simp [hf]), if_neg (by simp [hop]), if_neg (by tauto)]
  by_cases h : w.closed = true
  · simp [h, hc h]
  · simp [h]

/-- An unfaulted reader's prologue lets a reader command through (41_reader.md R102). -/
theorem reader_prologue_pass (r : Reader) (op : BitVec 8) (hf : r.fault = 0#8) (hop : isReaderOp op = true) :
    r.prologue op = .pass := by simp [Reader.prologue, hf, hop]

/-- Every way a writer's prologue can end. -/
theorem writer_prologue_cases (w : Writer) (op : BitVec 8) :
    (w.fault ≠ 0#8 ∧ w.prologue op = .ended (faultedResponse w.fault) w) ∨
    (w.fault = 0#8 ∧ (isWriterOp op = false ∨ (op = 0x0D#8 ∧ w.pair = none)) ∧
      w.prologue op = .ended (illegalResponse op) w) ∨
    (w.fault = 0#8 ∧ isWriterOp op = true ∧ w.closed = true ∧ runsAfterClose op = false ∧
      w.prologue op = .ended (errorResponse .faultUseAfterClose 0#64) { w with fault := 0x82#8 }) ∨
    (w.fault = 0#8 ∧ isWriterOp op = true ∧ (op = 0x0D#8 → w.pair ≠ none) ∧
      (w.closed = true → runsAfterClose op = true) ∧ w.prologue op = .pass) := by
  unfold Writer.prologue
  by_cases h1 : w.fault = 0#8
  · by_cases h2 : isWriterOp op = true
    · by_cases h3 : op = 0x0D#8 ∧ w.pair = none
      · exact .inr (.inl ⟨h1, .inr h3, by simp [h1, h3, isWriterOp]⟩)
      · by_cases h4 : w.closed = true ∧ runsAfterClose op = false
        · refine .inr (.inr (.inl ⟨h1, h2, h4.1, h4.2, ?_⟩))
          rw [if_neg (by simp [h1]), if_neg (by simp [h2]), if_neg h3, if_pos h4]
          rfl
        · refine .inr (.inr (.inr ⟨h1, h2, by tauto, ?_, ?_⟩))
          · intro hc; by_contra hr; exact h4 ⟨hc, by simpa using hr⟩
          · rw [if_neg (by simp [h1]), if_neg (by simp [h2]), if_neg h3, if_neg h4]
    · exact .inr (.inl ⟨h1, .inl (by simpa using h2), by simp [h1, h2]⟩)
  · exact .inl ⟨h1, by simp [h1]⟩

/-- Every way a reader's prologue can end. -/
theorem reader_prologue_cases (r : Reader) (op : BitVec 8) :
    (r.fault ≠ 0#8 ∧ r.prologue op = .ended (faultedResponse r.fault) r) ∨
    (r.fault = 0#8 ∧ isReaderOp op = false ∧ r.prologue op = .ended (illegalResponse op) r) ∨
    (r.fault = 0#8 ∧ isReaderOp op = true ∧ r.prologue op = .pass) := by
  unfold Reader.prologue
  by_cases h1 : r.fault = 0#8
  · by_cases h2 : isReaderOp op = true
    · exact .inr (.inr ⟨h1, h2, by simp [h1, h2]⟩)
    · exact .inr (.inl ⟨h1, by simpa using h2, by simp [h1, h2]⟩)
  · exact .inl ⟨h1, by simp [h1]⟩

/-- A command on a writer's port: the prologue's end, or the writer body. -/
theorem present_writer (op : BitVec 8) (s : State) (id : Nat) (w : Writer) (h : s.AtWriter id w)
    (fw : Nat → Writer → Host.Outcome State Fault Refusal) (fr : Nat → Reader → Host.Outcome State Fault Refusal) :
    present op s fw fr =
      match w.prologue op with
      | .ended resp w' => .next ((s.setWriter id w').respond resp)
      | .pass => fw id w := by
  cases hw : w.prologue op <;> simp [present, h.1, h.2, hw]

/-- A command on a reader's port: the prologue's end, or the reader body. -/
theorem present_reader (op : BitVec 8) (s : State) (id : Nat) (r : Reader) (h : s.AtReader id r)
    (fw : Nat → Writer → Host.Outcome State Fault Refusal) (fr : Nat → Reader → Host.Outcome State Fault Refusal) :
    present op s fw fr =
      match r.prologue op with
      | .ended resp r' => .next ((s.setReader id r').respond resp)
      | .pass => fr id r := by
  cases hw : r.prologue op <;> simp [present, h.1, h.2, hw]

/-- A writer command on an open writer runs its body. -/
theorem writerCommand_open (op : BitVec 8) (body : Writer → Prim Writer Response) (s : State) (id : Nat) (w : Writer)
    (h : s.AtWriter id w) (hf : w.fault = 0#8) (hc : w.closed = true → runsAfterClose op = true)
    (hop : isWriterOp op = true) (h13 : op ≠ 0x0D#8) :
    writerCommand op body s = finish (s.setWriter id) (body w) := by
  rw [writerCommand, present_writer op s id w h, writer_prologue_pass w op hf hop (fun e => absurd e h13) hc]

/-- A reader command on an unfaulted reader runs its body. -/
theorem readerCommand_open (op : BitVec 8) (body : Reader → Prim Reader Response) (s : State) (id : Nat) (r : Reader)
    (h : s.AtReader id r) (hf : r.fault = 0#8) (hop : isReaderOp op = true) :
    readerCommand op body s = finish (s.setReader id) (body r) := by
  rw [readerCommand, present_reader op s id r h, reader_prologue_pass r op hf hop]

/-- Putting a unit back as it is changes nothing. -/
theorem setWriter_self (s : State) (id : Nat) (w : Writer) (hwf : tableWf s.writers = true) (h : s.writer? id = some w) :
    s.setWriter id w = s := by simp [State.setWriter, tablePut_get hwf h]

theorem setReader_self (s : State) (id : Nat) (r : Reader) (hwf : tableWf s.readers = true) (h : s.reader? id = some r) :
    s.setReader id r = s := by simp [State.setReader, tablePut_get hwf h]

/-- A sound system's units are sound. -/
theorem State.Ok.writer {s : State} (h : s.Ok) {id : Nat} {w : Writer} (hw : s.writer? id = some w) : w.Ok :=
  (h.2.2.1 (id, w) (mem_of_tableGet hw)).1

theorem State.Ok.reader {s : State} (h : s.Ok) {id : Nat} {r : Reader} (hr : s.reader? id = some r) : r.Ok :=
  h.2.2.2 (id, r) (mem_of_tableGet hr)

/-! ## Tags -/

theorem tagCode_mask (t : TagType) : tagCode t &&& mask 4 = tagCode t := by cases t <;> decide

theorem width_mask (n : Nat) (h : n < 128) : BitVec.ofNat 32 n &&& mask 7 = BitVec.ofNat 32 n := by
  apply BitVec.eq_of_getLsbD_eq
  intro i hi
  simp only [BitVec.getLsbD_and, getLsbD_mask, BitVec.getLsbD_ofNat, hi, decide_true, Bool.true_and]
  by_cases h7 : i < 7
  · simp [h7]
  · have : n < 2 ^ i := lt_of_lt_of_le h (Nat.pow_le_pow_right (n := 2) (by omega) (show 7 ≤ i by omega))
    simp [h7, Nat.testBit_lt_two_pow this]

@[simp] theorem length_tagBits (debug : Bool) (t : TagType) (width : Nat) :
    (tagBits debug t width).length = tagWidth debug := by
  cases debug <;> simp [tagBits, tagWidth]

/-- The tag step of a writer: nothing on a plain writer, 11 bits appended on a debug one (42_debug_tags.md R129). -/
theorem tag_spec (w : Writer) (t : TagType) (n : Nat) (h : w.Ok) (hc : w.tell + tagWidth w.debug ≤ 8 * w.cap) :
    ∃ w1, w.tag t n = .done () w1 ∧
      ((w.debug = false ∧ w1 = w) ∨ (w.debug = true ∧ w.Appended w1 (tagBits w.debug t n))) := by
  unfold Writer.tag
  cases hd : w.debug with
  | false => exact ⟨w, by simp, .inl ⟨rfl, rfl⟩⟩
  | true =>
    simp only [tagWidth, hd, if_true] at hc
    obtain ⟨w1, e1, a1⟩ := pwrite_spec w (tagCode t) 4 h (by omega) (by omega) (by omega)
    have ht := a1.2.1
    have hcap : w1.cap = w.cap := a1.2.2.2.2.2.1.1
    simp only [length_fieldBits] at ht
    obtain ⟨w2, e2, a2⟩ := pwrite_spec w1 (BitVec.ofNat 32 n) 7 a1.2.2.2.2.1 (by omega) (by omega) (by omega)
    refine ⟨w2, by simp [e1, e2, primBind], .inr ⟨rfl, ?_⟩⟩
    have := Writer.Appended.trans h (by simp [fieldBits, List.range_succ]) (by simp [fieldBits, List.range_succ]) a1 a2
    simpa [tagBits] using this

/-- Bits committed after a tag step come after the tag's. -/
theorem appended_after_tag {w w1 w2 : Writer} {t : TagType} {n : Nat} {bits : List Bool} (h : w.Ok) (hb : bits ≠ [])
    (ht : (w.debug = false ∧ w1 = w) ∨ (w.debug = true ∧ w.Appended w1 (tagBits w.debug t n)))
    (h2 : w1.Appended w2 bits) : w.Appended w2 (tagBits w.debug t n ++ bits) := by
  rcases ht with ⟨hd, rfl⟩ | ⟨hd, ha⟩
  · simpa [tagBits, hd] using h2
  · exact Writer.Appended.trans h (by simp [tagBits, hd, fieldBits, List.range_succ]) hb ha h2

theorem after_tag_room {w w1 : Writer} {t : TagType} {n : Nat} (h : w.Ok)
    (ht : (w.debug = false ∧ w1 = w) ∨ (w.debug = true ∧ w.Appended w1 (tagBits w.debug t n))) :
    w1.Ok ∧ w1.tell = w.tell + tagWidth w.debug ∧ w1.cap = w.cap := by
  rcases ht with ⟨hd, rfl⟩ | ⟨hd, ha⟩
  · exact ⟨h, by simp [tagWidth, hd], rfl⟩
  · exact ⟨ha.2.2.2.2.1, by rw [ha.2.1, length_tagBits], ha.2.2.2.2.2.1.1⟩

theorem fieldBits_ne_nil (v : Word) (k : Nat) (h : 1 ≤ k) : fieldBits v k ≠ [] := by
  intro e
  have := congrArg List.length e
  simp at this
  omega

/-! ## Field bodies -/

/-- A tagged unsigned field on a sound writer with room (40_writer.md R84, 42_debug_tags.md R131). -/
theorem putUnsigned_spec (w : Writer) (t : TagType) (v : Word) (k : Nat) (h : w.Ok) (hk : 1 ≤ k) (hk2 : k ≤ 32)
    (hc : w.tell + tagWidth w.debug + k ≤ 8 * w.cap) :
    ∃ w', w.putUnsigned t v k = .done (okResponse 0#64) w' ∧ w.Appended w' (tagBits w.debug t k ++ fieldBits v k) := by
  obtain ⟨w1, e1, a1⟩ := tag_spec w t k h (by omega)
  obtain ⟨o1, t1, c1⟩ := after_tag_room h a1
  obtain ⟨w2, e2, a2⟩ := pwrite_spec w1 v k o1 hk hk2 (by omega)
  exact ⟨w2, by simp [Writer.putUnsigned, e1, e2, primBind], appended_after_tag h (fieldBits_ne_nil v k hk) a1 a2⟩

/-- A tagged sign-magnitude field on a sound writer with room (40_writer.md R83, R85). -/
theorem putSigned_spec (w : Writer) (t : TagType) (v : Int) (k : Nat) (h : w.Ok) (hk : 2 ≤ k) (hk2 : k ≤ 32)
    (hc : w.tell + tagWidth w.debug + k ≤ 8 * w.cap) :
    ∃ w', w.putSigned t v k = .done (okResponse 0#64) w' ∧ w.Appended w' (tagBits w.debug t k ++ signedBits v k) := by
  obtain ⟨w1, e1, a1⟩ := tag_spec w t k h (by omega)
  obtain ⟨o1, t1, c1⟩ := after_tag_room h a1
  obtain ⟨w2, e2, a2⟩ := pwrite_spec w1 (sencSign v) 1 o1 (by omega) (by omega) (by omega)
  have t2 := a2.2.1
  have c2 : w2.cap = w1.cap := a2.2.2.2.2.2.1.1
  simp only [length_fieldBits] at t2
  obtain ⟨w3, e3, a3⟩ := pwrite_spec w2 (sencMagnitude v k) (k - 1) a2.2.2.2.2.1 (by omega) (by omega) (by omega)
  have a23 := Writer.Appended.trans o1 (fieldBits_ne_nil _ 1 (by omega)) (fieldBits_ne_nil _ (k - 1) (by omega)) a2 a3
  refine ⟨w3, by simp [Writer.putSigned, e1, e2, e3, primBind], ?_⟩
  have := appended_after_tag h (by simp [fieldBits_ne_nil _ 1 (le_refl 1)]) a1 a23
  rwa [sencSign_bits] at this

/-- A tagged 64-bit field on a sound writer with room (40_writer.md R91). -/
theorem putDouble_spec (w : Writer) (v : BitVec 64) (h : w.Ok) (hc : w.tell + tagWidth w.debug + 64 ≤ 8 * w.cap) :
    ∃ w', w.putDouble v = .done (okResponse 0#64) w' ∧
      w.Appended w' (tagBits w.debug .uint64 64 ++
        (fieldBits (v.extractLsb' 32 32) 32 ++ fieldBits (v.extractLsb' 0 32) 32)) := by
  obtain ⟨w1, e1, a1⟩ := tag_spec w .uint64 64 h (by omega)
  obtain ⟨o1, t1, c1⟩ := after_tag_room h a1
  obtain ⟨w2, e2, a2⟩ := pwrite_spec w1 (v.extractLsb' 32 32) 32 o1 (by omega) (by omega) (by omega)
  have t2 := a2.2.1
  have c2 : w2.cap = w1.cap := a2.2.2.2.2.2.1.1
  simp only [length_fieldBits] at t2
  obtain ⟨w3, e3, a3⟩ := pwrite_spec w2 (v.extractLsb' 0 32) 32 a2.2.2.2.2.1 (by omega) (by omega) (by omega)
  have a23 := Writer.Appended.trans o1 (fieldBits_ne_nil _ 32 (by omega)) (fieldBits_ne_nil _ 32 (by omega)) a2 a3
  exact ⟨w3, by simp [Writer.putDouble, e1, e2, e3, primBind],
    appended_after_tag h (by simp [fieldBits_ne_nil _ 32 (show 1 ≤ 32 by omega)]) a1 a23⟩

/-- The tag check on a sound reader with budget for the tag: it passes exactly when the next bits are the expected tag, and
consumes them either way (42_debug_tags.md R132, R134). -/
theorem checkTag_spec (r : Reader) (t : TagType) (n : Nat) (h : r.Ok) (hn : n < 128) (hb : tagWidth r.debug ≤ r.budget) :
    ∃ r1, r.Consumed r1 (tagWidth r.debug) ∧
      (r.TagMatches t n → r.checkTag t n = .done () r1) ∧
      (¬ r.TagMatches t n → r.checkTag t n =
        .raised (errorResponse .debugTagMismatch (dataTags (bitsWord (srcBits r.src r.tell 4))
          (bitsWord (srcBits r.src (r.tell + 4) 7)) (tagCode t) (BitVec.ofNat 32 n))) r1) := by
  unfold Reader.checkTag
  by_cases hd : r.debug = true
  · rw [if_pos hd]
    have hw : tagWidth r.debug = 11 := by simp [tagWidth, hd]
    rw [hw] at hb
    obtain ⟨r1, e1, a1⟩ := pread_spec r 4 h (by omega) (by omega) (by omega)
    obtain ⟨r2, e2, a2⟩ := pread_spec r1 7 a1.2.2.1 (by omega) (by omega) (by have := a1.2.1; omega)
    refine ⟨r2, hw ▸ Reader.Consumed.trans a1 a2, ?_⟩
    have hs : r1.src = r.src := a1.2.2.2.2.2.1
    have ht : r1.tell = r.tell + 4 := a1.1
    rw [hs, ht] at e2
    have key : (r.TagMatches t n) ↔ (bitsWord (srcBits r.src r.tell 4) = tagCode t ∧
        bitsWord (srcBits r.src (r.tell + 4) 7) = BitVec.ofNat 32 n) := by
      simp only [Reader.TagMatches, hd, tagWidth, tagBits, if_true]
      rw [show (11 : Nat) = 4 + 7 from rfl, srcBits_append]
      constructor
      · intro e
        obtain ⟨x, y⟩ := List.append_inj e (by simp)
        rw [x, y, bitsWord_fieldBits _ _ (by omega), bitsWord_fieldBits _ _ (by omega), tagCode_mask, width_mask n hn]
        exact ⟨rfl, rfl⟩
      · rintro ⟨x, y⟩
        rw [← x, ← y]
        have f1 := fieldBits_bitsWord (srcBits r.src r.tell 4) (by simp)
        have f2 := fieldBits_bitsWord (srcBits r.src (r.tell + 4) 7) (by simp)
        simp only [length_srcBits] at f1 f2
        rw [f1, f2]
    simp only [e1, e2, primBind, raiseError]
    exact ⟨fun hm => by rw [if_pos (key.mp hm)], fun hm => by rw [if_neg (fun hc => hm (key.mpr hc))]⟩
  · refine ⟨r, ⟨by simp [tagWidth, hd], by simp [tagWidth, hd], h, rfl, rfl, rfl, rfl⟩, ?_⟩
    simp [hd, tagWidth, tagBits, srcBits]

/-- A tagged unsigned field read on a sound reader whose next bits are the tag, with budget for all (41_reader.md R111,
R121). -/
theorem getUnsigned_spec (r : Reader) (t : TagType) (k : Nat) (h : r.Ok) (hk : 1 ≤ k) (hk2 : k ≤ 32)
    (hb : tagWidth r.debug + k ≤ r.budget) (hm : r.TagMatches t k) :
    ∃ r', r.getUnsigned t k =
        .done (unsignedResponse (bitsWord (srcBits r.src (r.tell + tagWidth r.debug) k))) r' ∧
      r.Consumed r' (tagWidth r.debug + k) := by
  obtain ⟨r1, a1, e1⟩ := checkTag_spec r t k h (by omega) (by omega)
  replace e1 := e1.1 hm
  obtain ⟨r2, e2, a2⟩ := pread_spec r1 k a1.2.2.1 hk hk2 (by have := a1.2.1; omega)
  rw [a1.2.2.2.2.2.1, a1.1] at e2
  exact ⟨r2, by simp [Reader.getUnsigned, e1, e2, primBind], Reader.Consumed.trans a1 a2⟩

theorem sdec_bits (src : List Byte) (t k : Nat) (hk : 2 ≤ k) (hk2 : k ≤ 32) :
    sdec (bitsWord (srcBits src t 1)) (bitsWord (srcBits src (t + 1) (k - 1))) = signedValue (srcBits src t k) := by
  obtain ⟨j, rfl⟩ : ∃ j, k = 1 + j := ⟨k - 1, by omega⟩
  rw [srcBits_append, show 1 + j - 1 = j by omega]
  have h1 : srcBits src t 1 = [srcBit src t] := by simp [srcBits, List.range_succ]
  have hv : ((bitsWord (srcBits src (t + 1) j)).toNat : Int) = (bitsValue (srcBits src (t + 1) j) : Int) := by
    rw [toNat_bitsWord _ (by simp; omega)]
  rw [h1]
  unfold sdec
  rw [hv]
  cases srcBit src t <;> simp [signedValue, bitsWord, bitsValue]

/-- A tagged sign-magnitude field read on a sound reader whose next bits are the tag, with budget for all (41_reader.md
R109, R112). -/
theorem getSigned_spec (r : Reader) (t : TagType) (k : Nat) (h : r.Ok) (hk : 2 ≤ k) (hk2 : k ≤ 32)
    (hb : tagWidth r.debug + k ≤ r.budget) (hm : r.TagMatches t k) :
    ∃ r', r.getSigned t k =
        .done (signedResponse (signedValue (srcBits r.src (r.tell + tagWidth r.debug) k))) r' ∧
      r.Consumed r' (tagWidth r.debug + k) := by
  obtain ⟨r1, a1, e1⟩ := checkTag_spec r t k h (by omega) (by omega)
  replace e1 := e1.1 hm
  have b1 := a1.2.1
  obtain ⟨r2, e2, a2⟩ := pread_spec r1 1 a1.2.2.1 (by omega) (by omega) (by omega)
  have b2 := a2.2.1
  obtain ⟨r3, e3, a3⟩ := pread_spec r2 (k - 1) a2.2.2.1 (by omega) (by omega) (by omega)
  rw [a2.2.2.2.2.2.1, a2.1, a1.2.2.2.2.2.1, a1.1] at e3
  rw [a1.2.2.2.2.2.1, a1.1] at e2
  refine ⟨r3, ?_, ?_⟩
  · simp [Reader.getSigned, e1, e2, e3, primBind, sdec_bits _ _ _ hk hk2]
  · have := Reader.Consumed.trans a1 (Reader.Consumed.trans a2 a3)
    rwa [show tagWidth r.debug + (1 + (k - 1)) = tagWidth r.debug + k by omega] at this

/-- A tagged 64-bit field read on a sound reader whose next bits are the tag, with budget for all (41_reader.md R118). -/
theorem getDouble_spec (r : Reader) (h : r.Ok) (hb : tagWidth r.debug + 64 ≤ r.budget) (hm : r.TagMatches .uint64 64) :
    ∃ r', r.getDouble =
        .done (okResponse (BitVec.ofNat 64 (bitsValue (srcBits r.src (r.tell + tagWidth r.debug) 64)))) r' ∧
      r.Consumed r' (tagWidth r.debug + 64) := by
  obtain ⟨r1, a1, e1⟩ := checkTag_spec r .uint64 64 h (by omega) (by omega)
  replace e1 := e1.1 hm
  have b1 := a1.2.1
  obtain ⟨r2, e2, a2⟩ := pread_spec r1 32 a1.2.2.1 (by omega) (by omega) (by omega)
  have b2 := a2.2.1
  obtain ⟨r3, e3, a3⟩ := pread_spec r2 32 a2.2.2.1 (by omega) (by omega) (by omega)
  rw [a2.2.2.2.2.2.1, a2.1, a1.2.2.2.2.2.1, a1.1] at e3
  rw [a1.2.2.2.2.2.1, a1.1] at e2
  refine ⟨r3, ?_, Reader.Consumed.trans a1 (Reader.Consumed.trans a2 a3)⟩
  have hv : (bitsWord (srcBits r.src (r.tell + tagWidth r.debug) 32) ++
      bitsWord (srcBits r.src (r.tell + tagWidth r.debug + 32) 32) : BitVec 64) =
      BitVec.ofNat 64 (bitsValue (srcBits r.src (r.tell + tagWidth r.debug) 64)) := by
    have hs : srcBits r.src (r.tell + tagWidth r.debug) 64 = srcBits r.src (r.tell + tagWidth r.debug) 32 ++
        srcBits r.src (r.tell + tagWidth r.debug + 32) 32 := srcBits_append _ _ 32 32
    rw [hs, bitsValue_append]
    apply BitVec.eq_of_toNat_eq
    have l1 := bitsValue_lt (srcBits r.src (r.tell + tagWidth r.debug) 32)
    have l2 := bitsValue_lt (srcBits r.src (r.tell + tagWidth r.debug + 32) 32)
    simp only [length_srcBits] at l1 l2
    rw [BitVec.toNat_append, toNat_bitsWord _ (by simp), toNat_bitsWord _ (by simp), BitVec.toNat_ofNat, length_srcBits,
      Nat.shiftLeft_eq, Nat.mod_eq_of_lt (by omega), Nat.mul_comm, ← Nat.two_pow_add_eq_or_of_lt l2]
  simp [Reader.getDouble, e1, e2, e3, primBind, hv]

end Sys2Proof.Machine
end

