-- ==== Sys2Proof/Laws/PerInstr.lean ====
section
/-! SUPPORT. The fields of every command's word are the command's own: OP, N and V of `encode i`. -/

namespace Sys2Proof.Laws.EncodedFields

/-- OP, N and V stand where 30_encoding.md R60 puts them in the word of a command. -/
def Statement (i : Instr) : Prop :=
  wordOp (encode i) = i.op ∧ wordN (encode i) = i.nField.toNat ∧ wordV (encode i) = i.vField

/-- The fields of a word put together from them. -/
theorem fields_of_commandWord (op : BitVec 8) (n : BitVec 32) (v : BitVec 64) :
    wordOp (commandWord op n v) = op ∧ wordN (commandWord op n v) = n.toNat ∧ wordV (commandWord op n v) = v := by
  refine ⟨?_, congrArg BitVec.toNat ?_, ?_⟩ <;> ext i hi <;>
    simp only [wordOp, wordV, commandWord, BitVec.getElem_extractLsb', BitVec.getLsbD_append]
  · simp [hi, show ¬ 96 + i < 64 by omega, show ¬ 96 + i - 64 < 32 by omega, show 96 + i - 64 - 32 = i by omega]
  · simp [hi, show ¬ 64 + i < 64 by omega, show 64 + i - 64 = i by omega]
  · simp [hi]

/-- Every command's word has the command's fields. -/
theorem of_encode (i : Instr) : Statement i := fields_of_commandWord i.op i.nField i.vField

theorem wBits (value : Word) (count : Nat) : Statement (Instr.wBits value count) := of_encode _
theorem wSbits (v : Int) (count : Nat) : Statement (Instr.wSbits v count) := of_encode _
theorem wU8 (v : BitVec 8) : Statement (Instr.wU8 v) := of_encode _
theorem wU16 (v : BitVec 16) : Statement (Instr.wU16 v) := of_encode _
theorem wU32 (v : BitVec 32) : Statement (Instr.wU32 v) := of_encode _
theorem wI16 (v : Int) : Statement (Instr.wI16 v) := of_encode _
theorem wI32 (v : Int) : Statement (Instr.wI32 v) := of_encode _
theorem wU64 (v : BitVec 64) : Statement (Instr.wU64 v) := of_encode _
theorem wTell : Statement (Instr.wTell) := of_encode _
theorem wRewind (position : Nat) : Statement (Instr.wRewind position) := of_encode _
theorem wClose : Statement (Instr.wClose) := of_encode _
theorem wOctets : Statement (Instr.wOctets) := of_encode _
theorem wCopy (bitCount : Nat) : Statement (Instr.wCopy bitCount) := of_encode _
theorem rBits (count : Nat) : Statement (Instr.rBits count) := of_encode _
theorem rSbits (count : Nat) : Statement (Instr.rSbits count) := of_encode _
theorem rU8 : Statement (Instr.rU8) := of_encode _
theorem rU16 : Statement (Instr.rU16) := of_encode _
theorem rU32 : Statement (Instr.rU32) := of_encode _
theorem rI16 : Statement (Instr.rI16) := of_encode _
theorem rI32 : Statement (Instr.rI32) := of_encode _
theorem rU64 : Statement (Instr.rU64) := of_encode _
theorem rTell : Statement (Instr.rTell) := of_encode _

end Sys2Proof.Laws.EncodedFields
end

