-- ==== Sys2Proof/Tests/Slice0.lean ====
section
/-! SUPPORT. Tests whose expected results are those of spec/95_test_vectors.md or worked by hand from the rules, and for every
statement with hypotheses a witness that meets them. -/

namespace Sys2Proof.Tests

open Sys2Proof.Machine

set_option Elab.async false

/-! ## Helpers -/

/-- A new writer, paired with reader 0. -/
def newWriter (cap : Nat) (debug : Bool) : Writer := Writer.construct cap debug (some 0) []

/-- The source octets of the S and X vectors. -/
def caSrc : List Byte := [0xCA#8, 0xFE#8, 0xDB#8, 0xEE#8, 0xF0#8]

/-- The stream of vector D4. -/
def d4Src : List Byte := [0x12#8, 0x17#8, 0xDD#8, 0xE0#8]

/-- The source octets of vector R-C10. -/
def c10Src : List Byte := [0x01#8, 0x23#8, 0x45#8, 0x67#8, 0x89#8, 0xAB#8, 0xCD#8, 0xEF#8]

/-- A writer after step 1 of vector S1. -/
def afterS1a : Writer := { newWriter 8 false with acc := 0xCAFED000#32, held := 20, tell := 20 }

/-- A writer after step 2 of vector S1. -/
def afterS1b : Writer :=
  { newWriter 8 false with
    acc := 0xF0000000#32, held := 4, cursor := 4, tell := 36
    buf := [(0, 0xCA#8), (1, 0xFE#8), (2, 0xDB#8), (3, 0xEE#8)] }

/-- A writer that is full, its last word not flushed (vector W-F1). -/
def fullWriter : Writer := { newWriter 4 false with acc := 1#32, held := 32, tell := 32 }

/-- A reader after vector R-B1. -/
def afterRB1 : Reader :=
  { Reader.construct 36 caSrc false with
    acc := 0xCAFEDBEE#32, held := 12, tell := 20, budget := 16, srcPos := 4, pulls := 4 }

/-- Writer 1 and reader 0, with a port selected. -/
def sys (p : Port) (w : Writer) (r : Reader) : State :=
  { State.reset with writers := [(1, w)], readers := [(0, r)], port := p }

/-- A system whose port is the writer's. -/
def onW (w : Writer) : State := sys (.writer 1) w (Reader.construct 36 caSrc false)

/-- A system whose port is the reader's. -/
def onR (r : Reader) : State := sys (.reader 0) (newWriter 8 false) r

/-- The system with one word to run on its port. -/
def give (s : State) (w : CommandWord) : State := { s with input := [.command s.port w] }

/-- The newest response of an outcome: the status code, DATA and BYTES. -/
def answer (o : Host.Outcome State Fault Refusal) : Option (Nat × Nat × List Byte) :=
  match o with
  | .next s =>
    match s.transcript with
    | .returned _ r :: _ => some ((statusCode r.status).toNat, r.data.toNat, r.bytes)
    | .constructed _ :: _ => none
    | [] => none
  | .fault _ => none
  | .refused _ => none

/-- Writer 1 after an outcome. -/
def writerOf (o : Host.Outcome State Fault Refusal) : Option Writer :=
  match o with
  | .next s => s.writer? 1
  | .fault _ => none
  | .refused _ => none

/-- Reader 0 after an outcome. -/
def readerOf (o : Host.Outcome State Fault Refusal) : Option Reader :=
  match o with
  | .next s => s.reader? 0
  | .fault _ => none
  | .refused _ => none

/-- ACC, HELD, CURSOR and TELL of writer 1 after an outcome. -/
def writerRegs (o : Host.Outcome State Fault Refusal) : Option (Nat × Nat × Nat × Nat) :=
  (writerOf o).map fun w => (w.acc.toNat, w.held, w.cursor, w.tell)

/-- ACC, HELD, TELL, BUDGET, SRCPOS and the pulls of reader 0 after an outcome. -/
def readerRegs (o : Host.Outcome State Fault Refusal) : Option (Nat × Nat × Nat × Nat × Nat × Nat) :=
  (readerOf o).map fun r => (r.acc.toNat, r.held, r.tell, r.budget, r.srcPos, r.pulls)

/-- The observation on a port after an outcome. -/
def observed (p : Port) (o : Host.Outcome State Fault Refusal) : Option (List Response) :=
  match o with
  | .next s => some (s.observation p)
  | .fault _ => none
  | .refused _ => none

/-- The logical stream of writer 1 after an outcome. -/
def outOf (o : Host.Outcome State Fault Refusal) : Option (List Byte) := (writerOf o).map Writer.out

/-! ## Well-formed commands -/

/-- The ends of the operand ranges are well formed (30_encoding.md R61, R62). -/
theorem test_wellFormed_accepts_bounds :
    (Instr.wRewind 4294967295).wellFormed = true ∧ (Instr.wI32 (-2147483648)).wellFormed = true ∧
      (Instr.wI16 32767).wellFormed = true := by decide

/-- N has 32 bits (30_encoding.md R61). -/
theorem test_wellFormed_refuses_wide_n : (Instr.rBits 4294967296).wellFormed = false := by decide

/-- `s32` ends at `2^31 - 1` and at `-2^31` (00_scope.md R12). -/
theorem test_wellFormed_refuses_wide_s32 :
    (Instr.wSbits 2147483648 8).wellFormed = false ∧ (Instr.wI32 (-2147483649)).wellFormed = false := by decide

/-- `s16` ends at `2^15 - 1` and at `-2^15` (00_scope.md R12). -/
theorem test_wellFormed_refuses_wide_s16 :
    (Instr.wI16 32768).wellFormed = false ∧ (Instr.wI16 (-32769)).wellFormed = false := by decide

/-! ## Decoding: one word of every command, written from 30_encoding.md R64, R65 and the hex of 95_test_vectors.md -/

theorem test_decode_wBits :
    decode 0x0100000014_00000000000CAFED#104 = .command (.wBits 0xCAFED#32 20) := by decide

theorem test_decode_wSbits :
    decode 0x0200000008_FFFFFFFFFFFFFFFB#104 = .command (.wSbits (-5) 8) := by decide

theorem test_decode_wU8 :
    decode 0x0300000000_00000000000001FF#104 = .command (.wU8 0xFF#8) := by decide

theorem test_decode_wU16 :
    decode 0x0400000000_000000000000BEEF#104 = .command (.wU16 0xBEEF#16) := by decide

theorem test_decode_wU32 :
    decode 0x0500000000_000000000000CAFE#104 = .command (.wU32 0xCAFE#32) := by decide

theorem test_decode_wI16 :
    decode 0x0600000000_FFFFFFFFFFFF8000#104 = .command (.wI16 (-32768)) := by decide

theorem test_decode_wI32 :
    decode 0x0700000000_FFFFFFFFFFFFFFFE#104 = .command (.wI32 (-2)) := by decide

theorem test_decode_wU64 :
    decode 0x0800000000_0123456789ABCDEF#104 = .command (.wU64 0x0123456789ABCDEF#64) := by decide

theorem test_decode_wTell : decode 0x0900000000_0000000000000000#104 = .command .wTell := by decide

theorem test_decode_wRewind :
    decode 0x0AFFFFFFFF_0000000000000000#104 = .command (.wRewind 4294967295) := by decide

theorem test_decode_wClose : decode 0x0B00000000_0000000000000000#104 = .command .wClose := by decide

theorem test_decode_wOctets :
    decode 0x0C00000000_0000000000000000#104 = .command .wOctets := by decide

theorem test_decode_wCopy :
    decode 0x0D00000028_0000000000000000#104 = .command (.wCopy 40) := by decide

theorem test_decode_rBits :
    decode 0x2100000010_0000000000000000#104 = .command (.rBits 16) := by decide

theorem test_decode_rSbits :
    decode 0x2200000008_0000000000000000#104 = .command (.rSbits 8) := by decide

theorem test_decode_rU8 : decode 0x2300000000_0000000000000000#104 = .command .rU8 := by decide

theorem test_decode_rU16 : decode 0x2400000000_0000000000000000#104 = .command .rU16 := by decide

theorem test_decode_rU32 : decode 0x2500000000_0000000000000000#104 = .command .rU32 := by decide

theorem test_decode_rI16 : decode 0x2600000000_0000000000000000#104 = .command .rI16 := by decide

theorem test_decode_rI32 : decode 0x2700000000_0000000000000000#104 = .command .rI32 := by decide

theorem test_decode_rU64 : decode 0x2800000000_0000000000000000#104 = .command .rU64 := by decide

theorem test_decode_rTell : decode 0x2900000000_0000000000000000#104 = .command .rTell := by decide

/-- Unused bits of N and V are ignored (30_encoding.md R63; V of vector W-C8). -/
theorem test_decode_ignores_unused_bits :
    decode 0x06DEADBEEF_0000000000012345#104 = .command (.wI16 9029) := by decide

/-- The ends of the illegal OP ranges (30_encoding.md R66). -/
theorem test_decode_illegal_edges :
    decode 0x0000000000_0000000000000000#104 = .illegal 0x00#8 ∧
      decode 0x0E00000000_0000000000000000#104 = .illegal 0x0E#8 ∧
      decode 0x2000000000_0000000000000000#104 = .illegal 0x20#8 ∧
      decode 0x2A00000000_0000000000000000#104 = .illegal 0x2A#8 ∧
      decode 0xFF00000000_0000000000000000#104 = .illegal 0xFF#8 := by decide

/-! ## Assembler lines (30_encoding.md R69) -/

theorem test_asm_signed :
    asmAction (.writer 0) "W_SBITS -5, 8".toList =
      some (.command (.writer 0) 0x0200000008_FFFFFFFFFFFFFFFB#104) := by decide

theorem test_asm_instance_and_comment :
    asmAction (.writer 0) "w1: W_COPY 40 ; one chunk: copied".toList =
      some (.command (.writer 1) 0x0D00000028_0000000000000000#104) := by decide

theorem test_asm_binary_operand :
    asmAction (.writer 0) "w0: W_BITS 0b101, 3".toList =
      some (.command (.writer 0) 0x0100000003_0000000000000005#104) := by decide

theorem test_asm_operand_out_of_range : asmAction (.writer 0) "W_REWIND 4294967296".toList = none := by decide

/-! ## Writer commands -/

/-- S1 step 2. -/
theorem test_wBits_straddles :
    answer (step (give (onW afterS1a) 0x0100000010_000000000000BEEF#104)) = some (0, 0, []) ∧
      writerRegs (step (give (onW afterS1a) 0x0100000010_000000000000BEEF#104)) = some (0xF0000000, 4, 4, 36) ∧
      outOf (step (give (onW afterS1a) 0x0100000010_000000000000BEEF#104)) = some [0xCA#8, 0xFE#8, 0xDB#8, 0xEE#8, 0xF0#8] := by decide +kernel

/-- W-B2: the full word is flushed first. -/
theorem test_wBits_after_full_word :
    answer (step (give (onW { newWriter 8 false with acc := 0xFFFFFFFF#32, held := 32, tell := 32 }) 0x0100000001_0000000000000001#104)) = some (0, 0, []) ∧
      writerRegs (step (give (onW { newWriter 8 false with acc := 0xFFFFFFFF#32, held := 32, tell := 32 }) 0x0100000001_0000000000000001#104)) = some (0x80000000, 1, 4, 33) ∧
      outOf (step (give (onW { newWriter 8 false with acc := 0xFFFFFFFF#32, held := 32, tell := 32 }) 0x0100000001_0000000000000001#104)) = some [0xFF#8, 0xFF#8, 0xFF#8, 0xFF#8, 0x80#8] := by decide +kernel

/-- W-S3. -/
theorem test_wSbits_negative_zero :
    writerRegs (step (give (onW (newWriter 8 false)) 0x0200000008_FFFFFFFFFFFFFF80#104)) = some (0x80000000, 8, 0, 8) ∧
      outOf (step (give (onW (newWriter 8 false)) 0x0200000008_FFFFFFFFFFFFFF80#104)) = some [0x80#8] := by decide +kernel

/-- D2. -/
theorem test_wSbits_tagged :
    writerRegs (step (give (onW (newWriter 16 true)) 0x0200000008_FFFFFFFFFFFFFFFB#104)) = some (0x6110A000, 19, 0, 19) ∧
      outOf (step (give (onW (newWriter 16 true)) 0x0200000008_FFFFFFFFFFFFFFFB#104)) = some [0x61#8, 0x10#8, 0xA0#8] := by decide +kernel

/-- W-C1. -/
theorem test_wU8_ignores_upper_bits :
    writerRegs (step (give (onW (newWriter 8 false)) 0x0300000000_00000000000001FF#104)) = some (0xFF000000, 8, 0, 8) ∧
      outOf (step (give (onW (newWriter 8 false)) 0x0300000000_00000000000001FF#104)) = some [0xFF#8] := by decide +kernel

/-- D3. -/
theorem test_wU8_tagged :
    outOf (step (give (onW (newWriter 16 true)) 0x0300000000_00000000000000A5#104)) = some [0x51#8, 0x14#8, 0xA0#8] := by decide +kernel

/-- W-C2. -/
theorem test_wU16_straddles :
    writerRegs (step (give (onW afterS1a) 0x0400000000_000000000000BEEF#104)) = some (0xF0000000, 4, 4, 36) ∧
      outOf (step (give (onW afterS1a) 0x0400000000_000000000000BEEF#104)) = some [0xCA#8, 0xFE#8, 0xDB#8, 0xEE#8, 0xF0#8] := by decide +kernel

/-- D4. -/
theorem test_wU16_tagged :
    outOf (step (give (onW (newWriter 16 true)) 0x0400000000_000000000000BEEF#104)) = some [0x12#8, 0x17#8, 0xDD#8, 0xE0#8] := by decide +kernel

/-- W-F1. -/
theorem test_wU32_fills_a_word :
    answer (step (give (onW (newWriter 4 false)) 0x0500000000_0000000000000001#104)) = some (0, 0, []) ∧
      writerRegs (step (give (onW (newWriter 4 false)) 0x0500000000_0000000000000001#104)) = some (1, 32, 0, 32) := by decide +kernel

/-- D5. -/
theorem test_wU32_tagged :
    outOf (step (give (onW (newWriter 16 true)) 0x0500000000_000000000000CAFE#104)) = some [0x34#8, 0x00#8, 0x00#8, 0x19#8, 0x5F#8, 0xC0#8] := by decide +kernel

/-- W-C4. -/
theorem test_wI16_minus_one :
    outOf (step (give (onW (newWriter 8 false)) 0x0600000000_FFFFFFFFFFFFFFFF#104)) = some [0x80#8, 0x01#8] := by decide +kernel

/-- D6. -/
theorem test_wI16_tagged :
    outOf (step (give (onW (newWriter 16 true)) 0x0600000000_FFFFFFFFFFFFFFFF#104)) = some [0x22#8, 0x10#8, 0x00#8, 0x20#8] := by decide +kernel

/-- W-C10. -/
theorem test_wI32_minimum :
    outOf (step (give (onW (newWriter 8 false)) 0x0700000000_FFFFFFFF80000000#104)) = some [0x80#8, 0x00#8, 0x00#8, 0x00#8] := by decide +kernel

/-- D7. -/
theorem test_wI32_tagged :
    outOf (step (give (onW (newWriter 16 true)) 0x0700000000_FFFFFFFFFFFFFFFE#104)) = some [0x94#8, 0x10#8, 0x00#8, 0x00#8, 0x00#8, 0x40#8] := by decide +kernel

/-- W-C13. -/
theorem test_wU64_upper_word_first :
    answer (step (give (onW { newWriter 12 false with acc := 0xA0000000#32, held := 4, tell := 4 }) 0x0800000000_0123456789ABCDEF#104)) = some (0, 0, []) ∧
      writerRegs (step (give (onW { newWriter 12 false with acc := 0xA0000000#32, held := 4, tell := 4 }) 0x0800000000_0123456789ABCDEF#104)) = some (0xF0000000, 4, 8, 68) ∧
      outOf (step (give (onW { newWriter 12 false with acc := 0xA0000000#32, held := 4, tell := 4 }) 0x0800000000_0123456789ABCDEF#104)) = some [0xA0#8, 0x12#8, 0x34#8, 0x56#8, 0x78#8, 0x9A#8, 0xBC#8, 0xDE#8, 0xF0#8] := by decide +kernel

/-- W-F5: fatal capacity fault at the second half. -/
theorem test_wU64_keeps_its_upper_half :
    answer (step (give (onW (newWriter 4 false)) 0x0800000000_0123456789ABCDEF#104)) = some (0x81, 0x0000002000000020, []) ∧
      writerRegs (step (give (onW (newWriter 4 false)) 0x0800000000_0123456789ABCDEF#104)) = some (0x01234567, 32, 0, 32) := by decide +kernel

/-- W-T1. -/
theorem test_wTell_counts_bits :
    answer (step (give (onW afterS1b) 0x0900000000_0000000000000000#104)) = some (0, 0x24, []) ∧
      writerRegs (step (give (onW afterS1b) 0x0900000000_0000000000000000#104)) = some (0xF0000000, 4, 4, 36) := by decide +kernel

/-- W-K2. -/
theorem test_wTell_of_a_closed_writer :
    answer (step (give (onW { newWriter 8 false with closed := true }) 0x0900000000_0000000000000000#104)) = some (0, 0, []) := by decide +kernel

/-- W-R5. -/
theorem test_wRewind_reloads :
    answer (step (give (onW afterS1b) 0x0A00000014_0000000000000000#104)) = some (0, 0, []) ∧
      writerRegs (step (give (onW afterS1b) 0x0A00000014_0000000000000000#104)) = some (0xCAFED000, 20, 0, 20) := by decide +kernel

/-- W-R3. -/
theorem test_wRewind_forward_is_rejected :
    answer (step (give (onW { newWriter 8 false with acc := 0xAB000000#32, held := 8, tell := 8 }) 0x0A00000009_0000000000000000#104)) = some (3, 0x0000000900000008, []) ∧
      writerRegs (step (give (onW { newWriter 8 false with acc := 0xAB000000#32, held := 8, tell := 8 }) 0x0A00000009_0000000000000000#104)) = some (0xAB000000, 8, 0, 8) := by decide +kernel

/-- S2 step 3. -/
theorem test_wClose_stores_the_held_byte :
    answer (step (give (onW { newWriter 8 false with
        acc := 0xC0000000#32, held := 2, cursor := 4, tell := 34, buf := [(2, 0xCA#8), (3, 0xFE#8)] }) 0x0B00000000_0000000000000000#104)) = some (0, 0, []) ∧
      (writerOf (step (give (onW { newWriter 8 false with
        acc := 0xC0000000#32, held := 2, cursor := 4, tell := 34, buf := [(2, 0xCA#8), (3, 0xFE#8)] }) 0x0B00000000_0000000000000000#104))).map (fun w => (w.closed, w.buf)) =
        some (true, [(2, 0xCA#8), (3, 0xFE#8), (4, 0xC0#8)]) := by decide +kernel

/-- W-K5. -/
theorem test_wClose_twice_is_use_after_close :
    answer (step (give (onW { newWriter 8 false with closed := true }) 0x0B00000000_0000000000000000#104)) = some (0x82, 0, []) ∧
      (writerOf (step (give (onW { newWriter 8 false with closed := true }) 0x0B00000000_0000000000000000#104))).map (fun w => w.fault) = some 0x82#8 := by decide +kernel

/-- S1 step 3. -/
theorem test_wOctets_returns_the_stream :
    answer (step (give (onW afterS1b) 0x0C00000000_0000000000000000#104)) = some (0, 5, caSrc) ∧
      writerRegs (step (give (onW afterS1b) 0x0C00000000_0000000000000000#104)) = some (0xF0000000, 4, 4, 36) := by decide +kernel

/-- W-O3. -/
theorem test_wOctets_of_an_empty_writer :
    answer (step (give (onW (newWriter 4 false)) 0x0C00000000_0000000000000000#104)) = some (0, 0, []) := by decide +kernel

/-- X1: 36 bits copied, the last chunk of 4. -/
theorem test_wCopy_all :
    answer (step (give (onW (newWriter 8 false)) 0x0D00000024_0000000000000000#104)) = some (0, 0, []) ∧
      outOf (step (give (onW (newWriter 8 false)) 0x0D00000024_0000000000000000#104)) = some caSrc ∧
      readerRegs (step (give (onW (newWriter 8 false)) 0x0D00000024_0000000000000000#104)) =
        some (0xF0, 4, 36, 0, 5, 6) := by decide +kernel

/-- X2: the first chunk stays when the second meets the budget. -/
theorem test_wCopy_past_budget :
    answer (step (give (onW (newWriter 8 false)) 0x0D00000028_0000000000000000#104)) = some (2, 0x0000000800000020, []) ∧
      writerRegs (step (give (onW (newWriter 8 false)) 0x0D00000028_0000000000000000#104)) =
        some (0xCAFEDBEE, 32, 0, 32) ∧
      readerRegs (step (give (onW (newWriter 8 false)) 0x0D00000028_0000000000000000#104)) =
        some (0xCAFEDBEE, 0, 32, 4, 4, 4) := by decide +kernel

/-! ## Reader commands -/

/-- R-B1. -/
theorem test_rBits_fills :
    answer (step (give (onR (Reader.construct 36 caSrc false)) 0x2100000014_0000000000000000#104)) = some (0, 0xCAFED, []) ∧
      readerRegs (step (give (onR (Reader.construct 36 caSrc false)) 0x2100000014_0000000000000000#104)) = some (0xCAFEDBEE, 12, 20, 16, 4, 4) := by decide +kernel

/-- R-B7. -/
theorem test_rBits_pads_past_the_source :
    answer (step (give (onR (Reader.construct 32 [0xAB#8] false)) 0x2100000020_0000000000000000#104)) = some (0, 0xAB000000, []) ∧
      readerRegs (step (give (onR (Reader.construct 32 [0xAB#8] false)) 0x2100000020_0000000000000000#104)) = some (0xAB, 0, 32, 0, 1, 2) := by decide +kernel

/-- R-S1. -/
theorem test_rSbits_minus_five :
    answer (step (give (onR (Reader.construct 8 [0x85#8] false)) 0x2200000008_0000000000000000#104)) = some (0, 0xFFFFFFFFFFFFFFFB, []) := by decide +kernel

/-- R-S7: the sign bit stays consumed. -/
theorem test_rSbits_past_budget :
    answer (step (give (onR (Reader.construct 4 [0x85#8] false)) 0x2200000008_0000000000000000#104)) = some (2, 0x0000000700000001, []) ∧
      readerRegs (step (give (onR (Reader.construct 4 [0x85#8] false)) 0x2200000008_0000000000000000#104)) = some (0x85, 7, 1, 3, 1, 2) := by decide +kernel

/-- R-C1. -/
theorem test_rU8_reads_a_byte :
    answer (step (give (onR (Reader.construct 8 [0xC0#8] false)) 0x2300000000_0000000000000000#104)) = some (0, 0xC0, []) ∧
      readerRegs (step (give (onR (Reader.construct 8 [0xC0#8] false)) 0x2300000000_0000000000000000#104)) = some (0xC0, 0, 8, 0, 1, 2) := by decide +kernel

/-- R-B2. -/
theorem test_rU16_straddles :
    answer (step (give (onR afterRB1) 0x2400000000_0000000000000000#104)) = some (0, 0xBEEF, []) ∧
      readerRegs (step (give (onR afterRB1) 0x2400000000_0000000000000000#104)) = some (0xF0, 4, 36, 0, 5, 6) := by decide +kernel

/-- D13. -/
theorem test_rU16_tagged :
    answer (step (give (onR (Reader.construct 27 d4Src true)) 0x2400000000_0000000000000000#104)) = some (0, 0xBEEF, []) := by decide +kernel

/-- R-C2. -/
theorem test_rU32_reads_a_word :
    answer (step (give (onR (Reader.construct 34 [0x00#8, 0x00#8, 0xCA#8, 0xFE#8, 0xC0#8] false)) 0x2500000000_0000000000000000#104)) = some (0, 0xCAFE, []) := by decide +kernel

/-- R-C5. -/
theorem test_rI16_minimum :
    answer (step (give (onR (Reader.construct 16 [0xFF#8, 0xFF#8] false)) 0x2600000000_0000000000000000#104)) = some (0, 0xFFFFFFFFFFFF8001, []) := by decide +kernel

/-- D16. -/
theorem test_rI16_tag_mismatch :
    answer (step (give (onR (Reader.construct 27 d4Src true)) 0x2600000000_0000000000000000#104)) = some (4, 0x10021001, []) ∧
      readerRegs (step (give (onR (Reader.construct 27 d4Src true)) 0x2600000000_0000000000000000#104)) = some (0x1217DDE0, 21, 11, 16, 4, 4) := by decide +kernel

/-- R-C8. -/
theorem test_rI32_negative_zero :
    answer (step (give (onR (Reader.construct 32 [0x80#8, 0x00#8, 0x00#8, 0x00#8] false)) 0x2700000000_0000000000000000#104)) = some (0, 0, []) := by decide +kernel

/-- R-C9. -/
theorem test_rI32_minimum :
    answer (step (give (onR (Reader.construct 32 [0xFF#8, 0xFF#8, 0xFF#8, 0xFF#8] false)) 0x2700000000_0000000000000000#104)) = some (0, 0xFFFFFFFF80000001, []) := by decide +kernel

/-- R-C10. -/
theorem test_rU64_upper_word_first :
    answer (step (give (onR (Reader.construct 64 c10Src false)) 0x2800000000_0000000000000000#104)) = some (0, 0x0123456789ABCDEF, []) ∧
      readerRegs (step (give (onR (Reader.construct 64 c10Src false)) 0x2800000000_0000000000000000#104)) = some (0x89ABCDEF, 0, 64, 0, 8, 8) := by decide +kernel

/-- R-C11: the upper half stays consumed. -/
theorem test_rU64_past_budget :
    answer (step (give (onR (Reader.construct 48 c10Src false)) 0x2800000000_0000000000000000#104)) = some (2, 0x0000002000000020, []) ∧
      readerRegs (step (give (onR (Reader.construct 48 c10Src false)) 0x2800000000_0000000000000000#104)) = some (0x01234567, 0, 32, 16, 4, 4) := by decide +kernel

/-- 41_reader.md R119, from the state of R-B1. -/
theorem test_rTell_counts_bits :
    answer (step (give (onR afterRB1) 0x2900000000_0000000000000000#104)) = some (0, 20, []) ∧
      readerRegs (step (give (onR afterRB1) 0x2900000000_0000000000000000#104)) = some (0xCAFEDBEE, 12, 20, 16, 4, 4) := by decide +kernel

/-! ## Illegal words, faulted units and construction -/

/-- W-I2. -/
theorem test_illegal_on_a_writer :
    answer (step (give (onW (newWriter 8 false)) 0x0E00000000_0000000000000000#104)) = some (5, 0x0E, []) ∧
      writerRegs (step (give (onW (newWriter 8 false)) 0x0E00000000_0000000000000000#104)) = some (0, 0, 0, 0) := by decide +kernel

/-- R-I1. -/
theorem test_illegal_on_a_reader :
    answer (step (give (onR (Reader.construct 36 caSrc false)) 0x0100000000_0000000000000000#104)) = some (5, 1, []) ∧
      readerRegs (step (give (onR (Reader.construct 36 caSrc false)) 0x0100000000_0000000000000000#104)) = some (0, 0, 0, 36, 0, 0) := by decide +kernel

/-- W-I6. -/
theorem test_illegal_before_closed :
    answer (step (give (onW { newWriter 8 false with closed := true }) 0x2200000000_0000000000000000#104)) = some (5, 0x22, []) := by decide +kernel

/-- P5 step 5. -/
theorem test_faulted_before_illegal :
    answer (step (give (onW { newWriter 8 false with fault := 0x81#8 }) 0x0E00000000_0000000000000000#104)) = some (0xFF, 0x81, []) := by decide +kernel

/-- 00_scope.md R8: a CAP that is not a multiple of 4 is refused. -/
theorem test_illegal_capacity :
    step { State.reset with input := [.constructWriter 0 6 false none []] } = .refused (.illegalCapacity 6) := rfl

/-- 00_scope.md R9: L ends at `2^32 - 1`. -/
theorem test_illegal_budget :
    step { State.reset with input := [.constructReader 0 4294967296 [] false] } = .refused (.illegalBudget 4294967296) := rfl

/-- 70_reset_and_hazards.md R165, R169: constructing reader 0 again starts a run of which nothing is observed. -/
theorem test_new_run_observes_nothing :
    observed (.reader 0)
      (step { give (onR afterRB1) 0#104 with
        input := [.constructReader 0 8 [0xC0#8] false]
        transcript := [.returned (.reader 0) (okResponse 5#64)] }) = some [] := by decide +kernel

/-- 70_reset_and_hazards.md R169: a run's observation goes back to its construction, and to its own port, and no further. -/
theorem test_observation_is_the_runs :
    observed (.reader 0)
      (step { give (onR afterRB1) 0x2900000000_0000000000000000#104 with
        transcript := [.returned (.writer 0) (okResponse 6#64), .constructed (.reader 0),
          .returned (.reader 0) (okResponse 5#64)] }) = some [okResponse 20#64] := by decide +kernel

/-- A command placed by `State.withFetchWord` on the reset state runs as its first (log 12). -/
theorem test_first_command : answer (step (State.reset.withFetchWord 104 (0x21 * 2 ^ 96 + 16 * 2 ^ 64))) =
    some (0, 0xCAFE, []) := by decide +kernel

/-! ## Witnesses: the hypotheses of each statement met together, at the ends of their ranges -/

theorem witness_DecodeEncodeRoundTrip :
    (Instr.wSbits (-2147483648) 4294967295).wellFormed = true := by decide +kernel

theorem witness_UnusedFieldBitsAreIgnored :
    decode 0x0300000000_0000000000000005#104 = .command (.wU8 5#8) ∧
      wordOp 0x03FFFFFFFF_FFFFFFFFFFFFFF05#104 = wordOp 0x0300000000_0000000000000005#104 ∧
      (usesN (.wU8 5#8) = true →
        wordN 0x03FFFFFFFF_FFFFFFFFFFFFFF05#104 = wordN 0x0300000000_0000000000000005#104) ∧
      (wordV 0x03FFFFFFFF_FFFFFFFFFFFFFF05#104).setWidth (usedV (.wU8 5#8)) =
        (wordV 0x0300000000_0000000000000005#104).setWidth (usedV (.wU8 5#8)) := by decide +kernel

theorem witness_IllegalOpcodesAreRejected :
    ∀ op : BitVec 8, (op = 0#8 ∨ op = 0x0E#8 ∨ op = 0x20#8 ∨ op = 0x2A#8 ∨ op = 0xFF#8) →
      decode (commandWord op 0#32 0#64) = .illegal op := by
  rintro op (h | h | h | h | h) <;> subst h <;> decide +kernel

theorem witness_DecodedCommandsAreWellFormed :
    decode 0x06FFFFFFFF_FFFFFFFFFFFF8000#104 = .command (.wI16 (-32768)) := by decide +kernel

theorem witness_AssembledLinesEncode :
    (Instr.wBits 0xFFFFFFFF#32 4294967295).wellFormed = true := by decide +kernel

theorem witness_PayloadFieldsStandAsListed :
    4294967295 < 2 ^ 32 := by decide +kernel

theorem witness_StepRunsDecodedCommand :
    (give (onW (newWriter 8 false)) 0x0100000001_0000000000000001#104).input =
        .command (.writer 1) 0x0100000001_0000000000000001#104 :: [] ∧
      decode 0x0100000001_0000000000000001#104 = .command (.wBits 1#32 1) ∧ (Instr.wBits 1#32 1).wellFormed = true := by decide +kernel

theorem witness_IllegalWordsAreAnswered :
    (give (onW (newWriter 8 false)) 0x0E00000000_0000000000000000#104).Ok ∧
      (give (onW (newWriter 8 false)) 0x0E00000000_0000000000000000#104).input = .command (.writer 1) 0x0E00000000_0000000000000000#104 :: [] ∧
      decode 0x0E00000000_0000000000000000#104 = .illegal 0x0E#8 ∧
      (give (onW (newWriter 8 false)) 0x0E00000000_0000000000000000#104).writer? 1 = some (newWriter 8 false) := by decide +kernel

theorem witness_IllegalWordsAreAnswered_reader :
    (give (onR afterRB1) 0x0E00000000_0000000000000000#104).Ok ∧
      (give (onR afterRB1) 0x0E00000000_0000000000000000#104).input = .command (.reader 0) 0x0E00000000_0000000000000000#104 :: [] ∧
      decode 0x0E00000000_0000000000000000#104 = .illegal 0x0E#8 ∧ (give (onR afterRB1) 0x0E00000000_0000000000000000#104).reader? 0 = some afterRB1 := by decide +kernel

theorem witness_ForeignCommandsAreIllegal :
    (onW { afterS1b with closed := true }).Ok ∧
      (onW { afterS1b with closed := true }).AtWriter 1 { afterS1b with closed := true } ∧ afterS1b.fault = 0#8 ∧
      Instr.isWriterCommand .rTell = false := by decide +kernel

theorem witness_ForeignCommandsAreIllegal_reader :
    (onR afterRB1).Ok ∧ (onR afterRB1).AtReader 0 afterRB1 ∧ afterRB1.fault = 0#8 ∧
      Instr.isWriterCommand (.wCopy 1) = true := by decide +kernel

theorem witness_ForeignCommandsAreIllegal_unpaired :
    (onW { newWriter 8 false with pair := none }).Ok ∧
      (onW { newWriter 8 false with pair := none }).AtWriter 1 { newWriter 8 false with pair := none } ∧
      (newWriter 8 false).fault = 0#8 := by decide +kernel

theorem witness_FaultedUnitsAnswerFaulted :
    (onW { fullWriter with fault := 0x81#8 }).Ok ∧ (onW { fullWriter with fault := 0x81#8 }).AtWriter 1 { fullWriter with fault := 0x81#8 } ∧
      ({ fullWriter with fault := 0x81#8 } : Writer).fault ≠ 0#8 := by decide +kernel

theorem witness_FaultedUnitsAnswerFaulted_reader :
    (onR { afterRB1 with fault := 0x80#8 }).Ok ∧ (onR { afterRB1 with fault := 0x80#8 }).AtReader 0 { afterRB1 with fault := 0x80#8 } ∧
      ({ afterRB1 with fault := 0x80#8 } : Reader).fault ≠ 0#8 := by decide +kernel

theorem witness_FaultedUnitsAnswerFaulted_pair :
    (sys (.writer 1) afterS1b { afterRB1 with fault := 0x80#8 }).Ok ∧
      (sys (.writer 1) afterS1b { afterRB1 with fault := 0x80#8 }).AtWriter 1 afterS1b ∧ afterS1b.fault = 0#8 ∧ afterS1b.closed = false ∧
      afterS1b.pair = some 0 ∧ (sys (.writer 1) afterS1b { afterRB1 with fault := 0x80#8 }).reader? 0 = some { afterRB1 with fault := 0x80#8 } ∧
      ({ afterRB1 with fault := 0x80#8 } : Reader).fault ≠ 0#8 := by decide +kernel

theorem witness_ClosedWritersTakeUseAfterClose :
    (onW { afterS1b with closed := true }).AtWriter 1 { afterS1b with closed := true } ∧
      ({ afterS1b with closed := true } : Writer).fault = 0#8 ∧ ({ afterS1b with closed := true } : Writer).closed = true ∧
      Instr.isWriterCommand (.wCopy 0) = true ∧ Instr.wCopy 0 ≠ .wTell ∧ Instr.wCopy 0 ≠ .wOctets ∧
      ∀ n, Instr.wCopy 0 = .wCopy n → ({ afterS1b with closed := true } : Writer).pair ≠ none := by
  refine ⟨by decide +kernel, by decide, by decide, by decide, by decide, by decide, fun n _ => by decide⟩

theorem witness_WriterConstructionResets :
    ({ onR afterRB1 with input := [.constructWriter 1 (2 ^ 28) true (some 0) caSrc] } : State).input =
        .constructWriter 1 (2 ^ 28) true (some 0) caSrc :: [] ∧
      2 ^ 28 % 4 = 0 ∧ 2 ^ 28 ≤ 2 ^ 28 ∧
      ∀ rid, some 0 = some rid →
        (({ onR afterRB1 with input := [.constructWriter 1 (2 ^ 28) true (some 0) caSrc] } : State).reader? rid).isSome =
          true := by
  refine ⟨rfl, by decide, by decide, fun rid h => ?_⟩
  cases h
  decide +kernel

theorem witness_ReaderConstructionResets :
    ({ onR afterRB1 with input := [.constructReader 0 (2 ^ 32 - 1) caSrc true] } : State).input =
        .constructReader 0 (2 ^ 32 - 1) caSrc true :: [] ∧ 2 ^ 32 - 1 ≤ 2 ^ 32 - 1 := ⟨rfl, by decide⟩

theorem witness_IllegalConstructionsAreRefused :
    constructWriter 0 (2 ^ 28 + 4) false none [] State.reset = .refused (.illegalCapacity (2 ^ 28 + 4)) ∧
      constructWriter 0 6 false none [] State.reset = .refused (.illegalCapacity 6) ∧
      constructWriter 0 8 false (some 3) [] State.reset = .refused (.illegalPair 3) ∧
      constructReader 0 (2 ^ 32) [] false State.reset = .refused (.illegalBudget (2 ^ 32)) := ⟨rfl, rfl, rfl, rfl⟩

theorem witness_SignMagnitudeEncoding :
    (2 ≤ 2 ∧ 2 ≤ 32 ∧ sencMagnitude (-2) 2 = 0#32) ∧ 2 ≤ 32 ∧ 32 ≤ 32 ∧
      (sencMagnitude (-2147483647) 32).toNat = 2147483647 := by decide +kernel

theorem witness_SignMagnitudeDecoding :
    2 ≤ 2 ∧ 2 ≤ 32 ∧ (1#32).toNat < 2 ^ (2 - 1) ∧ 32 ≤ 32 ∧ (0x7FFFFFFF#32).toNat < 2 ^ (32 - 1) := by decide +kernel

theorem witness_WBitsAppendsItsField :
    (onW (newWriter 4 false)).AtWriter 1 (newWriter 4 false) ∧ Writer.Open (newWriter 4 false) ∧
      1 ≤ 32 ∧ 32 ≤ 32 ∧ Writer.tell (newWriter 4 false) + tagWidth (Writer.debug (newWriter 4 false)) + 32 ≤ 8 * Writer.cap (newWriter 4 false) := by decide +kernel

theorem witness_WBitsAppendsItsField_debug :
    (onW (newWriter 4 true)).AtWriter 1 (newWriter 4 true) ∧ Writer.Open (newWriter 4 true) ∧
      1 ≤ 21 ∧ 21 ≤ 32 ∧ Writer.tell (newWriter 4 true) + tagWidth (Writer.debug (newWriter 4 true)) + 21 ≤ 8 * Writer.cap (newWriter 4 true) := by decide +kernel

theorem witness_WSbitsAppendsItsField :
    (onW (newWriter 4 true)).AtWriter 1 (newWriter 4 true) ∧ Writer.Open (newWriter 4 true) ∧
      2 ≤ 2 ∧ 2 ≤ 32 ∧ Writer.tell (newWriter 4 true) + tagWidth (Writer.debug (newWriter 4 true)) + 2 ≤ 8 * Writer.cap (newWriter 4 true) := by decide +kernel

theorem witness_UnsignedCompositesAppendTheirFields :
    (onW (newWriter 8 false)).AtWriter 1 (newWriter 8 false) ∧ Writer.Open (newWriter 8 false) ∧
      Writer.tell (newWriter 8 false) + tagWidth (Writer.debug (newWriter 8 false)) + 64 ≤
        8 * Writer.cap (newWriter 8 false) := by decide +kernel

theorem witness_UnsignedCompositesAppendTheirFields_debug :
    (onW (newWriter 12 true)).AtWriter 1 (newWriter 12 true) ∧ Writer.Open (newWriter 12 true) ∧
      Writer.tell (newWriter 12 true) + tagWidth (Writer.debug (newWriter 12 true)) + 64 ≤
        8 * Writer.cap (newWriter 12 true) := by decide +kernel

theorem witness_SignedCompositesAppendTheirFields :
    (onW (newWriter 4 false)).AtWriter 1 (newWriter 4 false) ∧ Writer.Open (newWriter 4 false) ∧
      Writer.tell (newWriter 4 false) + tagWidth (Writer.debug (newWriter 4 false)) + 32 ≤ 8 * Writer.cap (newWriter 4 false) := by decide +kernel

theorem witness_TellsAnswerThePosition :
    (onW { afterS1b with closed := true }).Ok ∧ (onW { afterS1b with closed := true }).AtWriter 1 { afterS1b with closed := true } ∧
      ({ afterS1b with closed := true } : Writer).fault = 0#8 := by decide +kernel

theorem witness_TellsAnswerThePosition_reader :
    (onR afterRB1).Ok ∧ (onR afterRB1).AtReader 0 afterRB1 ∧ afterRB1.fault = 0#8 := by decide +kernel

theorem witness_WRewindCutsTheStream :
    (onW afterS1b).AtWriter 1 afterS1b ∧ Writer.Open afterS1b ∧
      36 ≤ Writer.tell afterS1b ∧ 0 ≤ Writer.tell afterS1b := by decide +kernel

theorem witness_ForwardRewindsAreRejected :
    (onW fullWriter).Ok ∧ (onW fullWriter).AtWriter 1 fullWriter ∧ fullWriter.fault = 0#8 ∧
      fullWriter.closed = false ∧ fullWriter.tell < 33 ∧ 8 * fullWriter.cap < 33 := by decide +kernel

theorem witness_WCloseStoresTheStream :
    (onW fullWriter).AtWriter 1 fullWriter ∧ Writer.Open fullWriter ∧
      Writer.held fullWriter = 32 := by decide +kernel

theorem witness_WOctetsReturnsTheStream :
    (onW { afterS1b with closed := true }).Ok ∧ (onW { afterS1b with closed := true }).AtWriter 1 { afterS1b with closed := true } ∧
      ({ afterS1b with closed := true } : Writer).fault = 0#8 := by decide +kernel

theorem witness_WCopyMovesTheBits :
    (sys (.writer 1) (newWriter 8 false) (Reader.construct 36 caSrc false)).AtWriter 1 (newWriter 8 false) ∧ Writer.Open (newWriter 8 false) ∧
      Writer.pair (newWriter 8 false) = some 0 ∧ (sys (.writer 1) (newWriter 8 false) (Reader.construct 36 caSrc false)).reader? 0 = some (Reader.construct 36 caSrc false) ∧
      Reader.Open (Reader.construct 36 caSrc false) ∧ 36 ≤ Reader.budget (Reader.construct 36 caSrc false) ∧
      Writer.tell (newWriter 8 false) + 36 ≤ 8 * Writer.cap (newWriter 8 false) := by decide +kernel

theorem witness_WCopyMovesTheBits_empty :
    (sys (.writer 1) fullWriter (Reader.construct 36 caSrc false)).AtWriter 1 fullWriter ∧ Writer.Open fullWriter ∧
      Writer.pair fullWriter = some 0 ∧ (sys (.writer 1) fullWriter (Reader.construct 36 caSrc false)).reader? 0 = some (Reader.construct 36 caSrc false) ∧
      Reader.Open (Reader.construct 36 caSrc false) ∧ 0 ≤ Reader.budget (Reader.construct 36 caSrc false) ∧
      Writer.tell fullWriter + 0 ≤ 8 * Writer.cap fullWriter := by decide +kernel

theorem witness_IllegalCountsAreWidthErrors :
    (onW afterS1b).Ok ∧ (onW afterS1b).AtWriter 1 afterS1b ∧ afterS1b.fault = 0#8 ∧ afterS1b.closed = false ∧
      (0 < 1 ∨ 32 < 0) ∧ (33 < 1 ∨ 32 < 33) ∧ (1 < 2 ∨ 32 < 1) := by decide +kernel

theorem witness_IllegalCountsAreWidthErrors_reader :
    (onR afterRB1).Ok ∧ (onR afterRB1).AtReader 0 afterRB1 ∧ afterRB1.fault = 0#8 ∧
      (0 < 1 ∨ 32 < 0) ∧ (33 < 1 ∨ 32 < 33) ∧ (1 < 2 ∨ 32 < 1) := by decide +kernel

theorem witness_OverflowKeepsEarlierWrites :
    (onW (newWriter 4 false)).AtWriter 1 (newWriter 4 false) ∧ Writer.Open (newWriter 4 false) ∧
      writerField (.wU64 5#64) = some (.uint64, 64, [fieldBits 0#32 32, fieldBits 5#32 32]) ∧
      8 * Writer.cap (newWriter 4 false) < Writer.tell (newWriter 4 false) + tagWidth (Writer.debug (newWriter 4 false)) +
        [fieldBits 0#32 32, fieldBits 5#32 32].flatten.length := by decide +kernel

theorem witness_OverflowKeepsEarlierWrites_first :
    (onW fullWriter).AtWriter 1 fullWriter ∧ Writer.Open fullWriter ∧
      writerField (.wBits 1#32 1) = some (.unsigned, 1, [fieldBits 1#32 1]) ∧
      8 * Writer.cap fullWriter < Writer.tell fullWriter + tagWidth (Writer.debug fullWriter) +
        [fieldBits 1#32 1].flatten.length := by decide +kernel

theorem witness_WCopyPastBudgetKeepsItsChunks :
    (sys (.writer 1) (newWriter 4 false) (Reader.construct 36 caSrc false)).AtWriter 1 (newWriter 4 false) ∧ Writer.Open (newWriter 4 false) ∧
      Writer.pair (newWriter 4 false) = some 0 ∧ (sys (.writer 1) (newWriter 4 false) (Reader.construct 36 caSrc false)).reader? 0 = some (Reader.construct 36 caSrc false) ∧
      Reader.Open (Reader.construct 36 caSrc false) ∧ Reader.budget (Reader.construct 36 caSrc false) < 37 ∧
      Writer.tell (newWriter 4 false) + 32 * (Reader.budget (Reader.construct 36 caSrc false) / 32) ≤ 8 * Writer.cap (newWriter 4 false) := by decide +kernel

theorem witness_WCopyPastBudgetKeepsItsChunks_none :
    (sys (.writer 1) (newWriter 0 false) (Reader.construct 0 caSrc false)).AtWriter 1 (newWriter 0 false) ∧ Writer.Open (newWriter 0 false) ∧
      Writer.pair (newWriter 0 false) = some 0 ∧ (sys (.writer 1) (newWriter 0 false) (Reader.construct 0 caSrc false)).reader? 0 = some (Reader.construct 0 caSrc false) ∧
      Reader.Open (Reader.construct 0 caSrc false) ∧ Reader.budget (Reader.construct 0 caSrc false) < 1 ∧
      Writer.tell (newWriter 0 false) + 32 * (Reader.budget (Reader.construct 0 caSrc false) / 32) ≤ 8 * Writer.cap (newWriter 0 false) := by decide +kernel

theorem witness_WCopyPastCapacityLosesOneChunk :
    (sys (.writer 1) (newWriter 4 false) (Reader.construct 36 caSrc false)).AtWriter 1 (newWriter 4 false) ∧ Writer.Open (newWriter 4 false) ∧
      Writer.pair (newWriter 4 false) = some 0 ∧ (sys (.writer 1) (newWriter 4 false) (Reader.construct 36 caSrc false)).reader? 0 = some (Reader.construct 36 caSrc false) ∧
      Reader.Open (Reader.construct 36 caSrc false) ∧ 8 * Writer.cap (newWriter 4 false) < Writer.tell (newWriter 4 false) + 36 ∧
      1 = (8 * Writer.cap (newWriter 4 false) - Writer.tell (newWriter 4 false)) / 32 ∧ 4 = (if 1 < 36 / 32 then 32 else 36 % 32) ∧
      32 * 1 + 4 ≤ Reader.budget (Reader.construct 36 caSrc false) := by decide +kernel

theorem witness_WCopyPastCapacityLosesOneChunk_past_budget :
    (sys (.writer 1) fullWriter (Reader.construct 36 caSrc false)).AtWriter 1 fullWriter ∧ Writer.Open fullWriter ∧
      Writer.pair fullWriter = some 0 ∧ (sys (.writer 1) fullWriter (Reader.construct 36 caSrc false)).reader? 0 = some (Reader.construct 36 caSrc false) ∧
      Reader.Open (Reader.construct 36 caSrc false) ∧ 8 * Writer.cap fullWriter < Writer.tell fullWriter + 37 ∧
      0 = (8 * Writer.cap fullWriter - Writer.tell fullWriter) / 32 ∧ 32 = (if 0 < 37 / 32 then 32 else 37 % 32) ∧
      32 * 0 + 32 ≤ Reader.budget (Reader.construct 36 caSrc false) ∧ Reader.budget (Reader.construct 36 caSrc false) < 37 := by decide +kernel

theorem witness_WCopyPastCapacityLosesOneChunk_no_chunk :
    (sys (.writer 1) fullWriter (Reader.construct 36 caSrc false)).AtWriter 1 fullWriter ∧ Writer.Open fullWriter ∧
      Writer.pair fullWriter = some 0 ∧ (sys (.writer 1) fullWriter (Reader.construct 36 caSrc false)).reader? 0 = some (Reader.construct 36 caSrc false) ∧
      Reader.Open (Reader.construct 36 caSrc false) ∧ 8 * Writer.cap fullWriter < Writer.tell fullWriter + 1 ∧
      0 = (8 * Writer.cap fullWriter - Writer.tell fullWriter) / 32 ∧ 1 = (if 0 < 1 / 32 then 32 else 1 % 32) ∧
      32 * 0 + 1 ≤ Reader.budget (Reader.construct 36 caSrc false) := by decide +kernel

theorem witness_RBitsReturnsTheNextBits :
    (onR (Reader.construct 32 [0xAB#8] false)).AtReader 0 (Reader.construct 32 [0xAB#8] false) ∧ Reader.Open (Reader.construct 32 [0xAB#8] false) ∧
      1 ≤ 32 ∧ 32 ≤ 32 ∧ tagWidth (Reader.debug (Reader.construct 32 [0xAB#8] false)) + 32 ≤ Reader.budget (Reader.construct 32 [0xAB#8] false) ∧
      Reader.TagMatches (Reader.construct 32 [0xAB#8] false) .unsigned 32 := by decide +kernel

theorem witness_RBitsReturnsTheNextBits_debug :
    (onR (Reader.construct 16 [0x70#8, 0xB5#8] true)).AtReader 0 (Reader.construct 16 [0x70#8, 0xB5#8] true) ∧ Reader.Open (Reader.construct 16 [0x70#8, 0xB5#8] true) ∧
      1 ≤ 5 ∧ 5 ≤ 32 ∧
      tagWidth (Reader.debug (Reader.construct 16 [0x70#8, 0xB5#8] true)) + 5 ≤ Reader.budget (Reader.construct 16 [0x70#8, 0xB5#8] true) ∧
      Reader.TagMatches (Reader.construct 16 [0x70#8, 0xB5#8] true) .unsigned 5 := by decide +kernel

theorem witness_RSbitsReturnsTheNextValue :
    (onR (Reader.construct 19 [0x61#8, 0x10#8, 0xA0#8] true)).AtReader 0 (Reader.construct 19 [0x61#8, 0x10#8, 0xA0#8] true) ∧ Reader.Open (Reader.construct 19 [0x61#8, 0x10#8, 0xA0#8] true) ∧
      2 ≤ 8 ∧ 8 ≤ 32 ∧
      tagWidth (Reader.debug (Reader.construct 19 [0x61#8, 0x10#8, 0xA0#8] true)) + 8 ≤ Reader.budget (Reader.construct 19 [0x61#8, 0x10#8, 0xA0#8] true) ∧
      Reader.TagMatches (Reader.construct 19 [0x61#8, 0x10#8, 0xA0#8] true) .signed 8 := by decide +kernel

theorem witness_UnsignedCompositesReturnTheNextBits_debug :
    (onR (Reader.construct 27 d4Src true)).AtReader 0 (Reader.construct 27 d4Src true) ∧ Reader.Open (Reader.construct 27 d4Src true) ∧
      tagWidth (Reader.debug (Reader.construct 27 d4Src true)) + 16 ≤ Reader.budget (Reader.construct 27 d4Src true) ∧
      Reader.TagMatches (Reader.construct 27 d4Src true) .uint16 16 := by decide +kernel

theorem witness_UnsignedCompositesReturnTheNextBits :
    (onR (Reader.construct 64 c10Src false)).AtReader 0 (Reader.construct 64 c10Src false) ∧ Reader.Open (Reader.construct 64 c10Src false) ∧
      tagWidth (Reader.debug (Reader.construct 64 c10Src false)) + 64 ≤ Reader.budget (Reader.construct 64 c10Src false) ∧
      Reader.TagMatches (Reader.construct 64 c10Src false) .uint64 64 ∧ Reader.TagMatches (Reader.construct 64 c10Src false) .uint8 8 ∧
      Reader.TagMatches (Reader.construct 64 c10Src false) .uint32 32 := by decide +kernel

theorem witness_SignedCompositesReturnTheNextValue :
    (onR (Reader.construct 27 [0x22#8, 0x10#8, 0x00#8, 0x20#8] true)).AtReader 0 (Reader.construct 27 [0x22#8, 0x10#8, 0x00#8, 0x20#8] true) ∧ Reader.Open (Reader.construct 27 [0x22#8, 0x10#8, 0x00#8, 0x20#8] true) ∧
      tagWidth (Reader.debug (Reader.construct 27 [0x22#8, 0x10#8, 0x00#8, 0x20#8] true)) + 16 ≤ Reader.budget (Reader.construct 27 [0x22#8, 0x10#8, 0x00#8, 0x20#8] true) ∧
      Reader.TagMatches (Reader.construct 27 [0x22#8, 0x10#8, 0x00#8, 0x20#8] true) .int16 16 := by decide +kernel

theorem witness_SignedCompositesReturnTheNextValue_plain :
    (onR (Reader.construct 32 [0xAB#8] false)).AtReader 0 (Reader.construct 32 [0xAB#8] false) ∧ Reader.Open (Reader.construct 32 [0xAB#8] false) ∧
      tagWidth (Reader.debug (Reader.construct 32 [0xAB#8] false)) + 32 ≤ Reader.budget (Reader.construct 32 [0xAB#8] false) ∧ Reader.TagMatches (Reader.construct 32 [0xAB#8] false) .int32 32 := by decide +kernel

theorem witness_EofKeepsEarlierReads :
    (onR (Reader.construct 20 d4Src true)).AtReader 0 (Reader.construct 20 d4Src true) ∧ Reader.Open (Reader.construct 20 d4Src true) ∧
      readerField .rU16 = some (.uint16, 16, [16]) ∧
      Reader.budget (Reader.construct 20 d4Src true) < tagWidth (Reader.debug (Reader.construct 20 d4Src true)) + [16].sum ∧
      (tagWidth (Reader.debug (Reader.construct 20 d4Src true)) ≤ Reader.budget (Reader.construct 20 d4Src true) →
        Reader.TagMatches (Reader.construct 20 d4Src true) .uint16 16) := by decide +kernel

theorem witness_EofKeepsEarlierReads_tag :
    (onR (Reader.construct 3 d4Src true)).AtReader 0 (Reader.construct 3 d4Src true) ∧ Reader.Open (Reader.construct 3 d4Src true) ∧
      readerField .rU16 = some (.uint16, 16, [16]) ∧
      Reader.budget (Reader.construct 3 d4Src true) < tagWidth (Reader.debug (Reader.construct 3 d4Src true)) + [16].sum ∧
      (tagWidth (Reader.debug (Reader.construct 3 d4Src true)) ≤ Reader.budget (Reader.construct 3 d4Src true) →
        Reader.TagMatches (Reader.construct 3 d4Src true) .uint16 16) := by decide +kernel

theorem witness_WrongTagsAreMismatches :
    (onR (Reader.construct 27 d4Src true)).AtReader 0 (Reader.construct 27 d4Src true) ∧ Reader.Open (Reader.construct 27 d4Src true) ∧
      Reader.debug (Reader.construct 27 d4Src true) = true ∧
      readerField .rI16 = some (.int16, 16, [1, 15]) ∧ 11 ≤ Reader.budget (Reader.construct 27 d4Src true) ∧
      ¬ Reader.TagMatches (Reader.construct 27 d4Src true) .int16 16 := by decide +kernel

theorem witness_ReadsWithinHeldBitsPullNothing :
    (onR afterRB1).AtReader 0 afterRB1 ∧ Reader.Open afterRB1 ∧
      afterRB1.debug = false ∧ 1 ≤ 12 ∧ 12 ≤ 32 ∧ 12 ≤ afterRB1.held ∧ 12 ≤ afterRB1.budget := by decide +kernel

theorem witness_StraddlingReadsFillOnce :
    (onR afterRB1).AtReader 0 afterRB1 ∧ Reader.Open afterRB1 ∧
      afterRB1.debug = false ∧ 1 ≤ 16 ∧ 16 ≤ 32 ∧ afterRB1.held < 16 ∧ 16 ≤ afterRB1.budget ∧
      1 = min 4 (afterRB1.src.length - afterRB1.srcPos) := by decide +kernel

theorem witness_StraddlingReadsFillOnce_four :
    (onR (Reader.construct 64 c10Src false)).AtReader 0 (Reader.construct 64 c10Src false) ∧ Reader.Open (Reader.construct 64 c10Src false) ∧
      Reader.debug (Reader.construct 64 c10Src false) = false ∧ 1 ≤ 32 ∧ 32 ≤ 32 ∧
      Reader.held (Reader.construct 64 c10Src false) < 32 ∧ 32 ≤ Reader.budget (Reader.construct 64 c10Src false) ∧
      4 = min 4 (List.length (Reader.src (Reader.construct 64 c10Src false)) - Reader.srcPos (Reader.construct 64 c10Src false)) := by decide +kernel

theorem witness_PlainWriterCompositesArePrimitives :
    (onW afterS1b).AtWriter 1 afterS1b ∧ afterS1b.debug = false ∧ afterS1b.Ok := by decide +kernel

theorem witness_PlainReaderCompositesArePrimitives :
    (onR (Reader.construct 64 c10Src false)).AtReader 0 (Reader.construct 64 c10Src false) ∧
      Reader.debug (Reader.construct 64 c10Src false) = false ∧ Reader.Open (Reader.construct 64 c10Src false) ∧ 64 ≤ Reader.budget (Reader.construct 64 c10Src false) := by decide +kernel

theorem witness_WriterStreamLaw :
    8 % 4 = 0 ∧ 8 ≤ 2 ^ 28 ∧ opsLegal [.write 0x15#32 5, .write 0x7FF#32 11, .rewind 5] = true ∧
      Writer.runOps [.write 0x15#32 5, .write 0x7FF#32 11, .rewind 5] (Writer.construct 8 false none caSrc) =
        .done () { Writer.construct 8 false none caSrc with
          acc := 0xA8000000#32, held := 5, tell := 5
          buf := [(0, 0xAF#8), (1, 0xFF#8), (4, 0xF0#8)] } := by decide +kernel

theorem witness_OutputLengthLaw :
    4 % 4 = 0 ∧ 4 ≤ 2 ^ 28 ∧ (∀ f ∈ [(1#32, 20), (3#32, 12)], 1 ≤ f.2 ∧ f.2 ≤ 32) ∧
      32 = ([(1#32, 20), (3#32, 12)].map fun f => f.2).sum ∧ 32 ≤ 8 * 4 := by decide +kernel

theorem witness_ReaderStreamLaw :
    64 ≤ 2 ^ 32 - 1 ∧ (∀ k ∈ [12, 32, 20], 1 ≤ k ∧ k ≤ 32) ∧ [12, 32, 20].sum ≤ 64 := by decide +kernel

theorem witness_DeclaredLengthDecidesEof :
    8 ≤ 2 ^ 32 - 1 ∧ (∀ j ∈ [8], 1 ≤ j ∧ j ≤ 32) ∧ [8].sum ≤ 8 ∧ 8 < [8].sum + 1 := by decide +kernel

theorem witness_UnsignedRoundTrip :
    4 % 4 = 0 ∧ 4 ≤ 2 ^ 28 ∧ 1 ≤ 21 ∧ 21 ≤ 32 ∧ tagWidth true + 21 ≤ 8 * 4 ∧ tagWidth true + 21 ≤ 32 ∧ 32 ≤ 2 ^ 32 - 1 := by decide +kernel

theorem witness_SignedRoundTrip :
    4 % 4 = 0 ∧ 4 ≤ 2 ^ 28 ∧ 2 ≤ 32 ∧ 32 ≤ 32 ∧ -((2 : Int) ^ (32 - 1) - 1) ≤ -2147483647 ∧
      (-2147483647 : Int) ≤ 2 ^ (32 - 1) - 1 ∧ tagWidth false + 32 ≤ 8 * 4 ∧ tagWidth false + 32 ≤ 32 ∧ 32 ≤ 2 ^ 32 - 1 := by decide +kernel

theorem witness_StepKeepsStateSound :
    (give (onW afterS1b) 0x0D00000028_0000000000000000#104).Ok ∧
      ∃ t, step (give (onW afterS1b) 0x0D00000028_0000000000000000#104) = .next t := ⟨by decide +kernel, _, rfl⟩

theorem witness_SoundStepsNeverFault :
    (give (onW fullWriter) 0x0D00000028_0000000000000000#104).Ok := by decide +kernel

theorem witness_EveryCommandIsAnswered :
    (give (onW afterS1b) 0x0D00000028_0000000000000000#104).Ok ∧
      (give (onW afterS1b) 0x0D00000028_0000000000000000#104).input = .command (.writer 1) 0x0D00000028_0000000000000000#104 :: [] ∧
      (∀ id, Port.writer 1 = .writer id → ((give (onW afterS1b) 0x0D00000028_0000000000000000#104).writer? id).isSome = true) ∧
      ∀ id, Port.writer 1 = .reader id → ((give (onW afterS1b) 0x0D00000028_0000000000000000#104).reader? id).isSome = true := by
  refine ⟨by decide +kernel, rfl, fun id h => ?_, fun id h => ?_⟩ <;> cases h
  decide +kernel

theorem witness_AccumulatorFaultIsUnreachable :
    (give (onW afterS1b) 0x0D00000028_0000000000000000#104).Ok ∧
      (give (onW afterS1b) 0x0D00000028_0000000000000000#104).input = .command (.writer 1) 0x0D00000028_0000000000000000#104 :: [] ∧
      ∃ t, step (give (onW afterS1b) 0x0D00000028_0000000000000000#104) = .next t := ⟨by decide +kernel, rfl, _, rfl⟩

theorem witness_CommandsTouchOnlyTheirUnits :
    ∃ t, exec (.wCopy 4) (onW afterS1b) = .next t := ⟨_, rfl⟩

theorem witness_ConfigurationNeverChanges :
    (give (onW afterS1b) 0x0D00000028_0000000000000000#104).input = .command (.writer 1) 0x0D00000028_0000000000000000#104 :: [] ∧
      (∃ t, step (give (onW afterS1b) 0x0D00000028_0000000000000000#104) = .next t) ∧
      (give (onW afterS1b) 0x0D00000028_0000000000000000#104).writer? 1 = some afterS1b ∧
      ((give (onW afterS1b) 0x0D00000028_0000000000000000#104).reader? 0).isSome = true := 
    ⟨rfl, ⟨_, rfl⟩, by decide +kernel, by decide +kernel⟩

theorem witness_FaultAndClosedAreSticky :
    (give (onW afterS1b) 0x0D00000028_0000000000000000#104).input = .command (.writer 1) 0x0D00000028_0000000000000000#104 :: [] ∧
      (∃ t, step (give (onW afterS1b) 0x0D00000028_0000000000000000#104) = .next t) ∧
      (give (onW afterS1b) 0x0D00000028_0000000000000000#104).writer? 1 = some afterS1b ∧
      ((give (onW afterS1b) 0x0D00000028_0000000000000000#104).reader? 0).isSome = true := 
    ⟨rfl, ⟨_, rfl⟩, by decide +kernel, by decide +kernel⟩

theorem witness_ReadersOnlyAdvance :
    (give (onW afterS1b) 0x0D00000028_0000000000000000#104).input = .command (.writer 1) 0x0D00000028_0000000000000000#104 :: [] ∧
      (∃ t, step (give (onW afterS1b) 0x0D00000028_0000000000000000#104) = .next t) ∧
      (give (onW afterS1b) 0x0D00000028_0000000000000000#104).writer? 1 = some afterS1b ∧
      ((give (onW afterS1b) 0x0D00000028_0000000000000000#104).reader? 0).isSome = true := 
    ⟨rfl, ⟨_, rfl⟩, by decide +kernel, by decide +kernel⟩

theorem witness_FlushedBytesStay :
    (∃ t, exec (.wBits 5#32 32) (onW afterS1b) = .next t) ∧ (onW afterS1b).writer? 1 = some afterS1b ∧
      0 < afterS1b.cursor := ⟨⟨_, rfl⟩, by decide +kernel, by decide⟩

theorem witness_ResponsesShowOnlyCommittedBits :
    (give (onW fullWriter) 0x0D00000028_0000000000000000#104).Ok ∧
      (give (onW fullWriter.flushedFull) 0x0D00000028_0000000000000000#104).Ok ∧
      (give (onW fullWriter) 0x0D00000028_0000000000000000#104).Alike (give (onW fullWriter.flushedFull) 0x0D00000028_0000000000000000#104) ∧
      (∃ t, step (give (onW fullWriter) 0x0D00000028_0000000000000000#104) = .next t) ∧ fullWriter.Ok ∧ fullWriter.held = 32 := by
  refine ⟨by decide +kernel, by decide +kernel,
    ⟨rfl, rfl, rfl, rfl, .cons ⟨rfl, by decide +kernel⟩ .nil⟩, ⟨_, rfl⟩, by decide +kernel, rfl⟩

end Sys2Proof.Tests
end

section
/-! Constructions: what the host's construction of a writer or a reader gives, legal or not, and the settling of O16. -/

namespace Sys2Proof.Machine

/-! ## One equation per outcome of a construction -/

section
variable {id cap len : Nat} {debug : Bool} {pair : Option Nat} {fill src : List Byte} {s : State}

/-- The legal arguments of 00_scope.md R8; every value of PAIR but a number of no constructed reader is one of them. -/
theorem constructWriter_legal (hcap : cap % 4 = 0 ∧ cap ≤ 2 ^ 28)
    (hpair : ∀ rid, pair = some rid → (s.reader? rid).isSome = true) :
    constructWriter id cap debug pair fill s = .next (s.addWriter id (Writer.construct cap debug pair fill)) := by
  refine (if_pos hcap).trans ?_
  cases pair with
  | none => rfl
  | some rid =>
    obtain ⟨r, hr⟩ := Option.isSome_iff_exists.mp (hpair rid rfl)
    simp only [hr]

/-- The capacity is looked at first, whatever PAIR is. -/
theorem constructWriter_illegalCapacity (hcap : ¬ (cap % 4 = 0 ∧ cap ≤ 2 ^ 28)) :
    constructWriter id cap debug pair fill s = .refused (.illegalCapacity cap) := if_neg hcap

theorem constructWriter_illegalPair {rid : Nat} (hcap : cap % 4 = 0 ∧ cap ≤ 2 ^ 28) (hrid : s.reader? rid = none) :
    constructWriter id cap debug (some rid) fill s = .refused (.illegalPair rid) :=
  (if_pos hcap).trans (by simp only [hrid])

theorem constructReader_legal (hlen : len ≤ 2 ^ 32 - 1) :
    constructReader id len src debug s = .next (s.addReader id (Reader.construct len src debug)) := if_pos hlen

theorem constructReader_illegalBudget (hlen : ¬ len ≤ 2 ^ 32 - 1) :
    constructReader id len src debug s = .refused (.illegalBudget len) := if_neg hlen

/-! ## When a construction is refused -/

theorem constructWriter_refused_iff :
    (∃ why, constructWriter id cap debug pair fill s = .refused why) ↔
      (cap % 4 ≠ 0 ∨ 2 ^ 28 < cap ∨ ∃ rid, pair = some rid ∧ s.reader? rid = none) := by
  by_cases hcap : cap % 4 = 0 ∧ cap ≤ 2 ^ 28
  · have ⟨hmul, hmax⟩ := hcap
    constructor
    · rintro ⟨why, h⟩
      by_contra! hlegal
      obtain ⟨-, -, hpair⟩ := hlegal
      rw [constructWriter_legal hcap fun rid hrid => Option.isSome_iff_ne_none.mpr (hpair rid hrid)] at h
      cases h
    · rintro (hodd | hbig | ⟨rid, rfl, hrid⟩)
      · exact absurd hmul hodd
      · exact absurd hmax hbig.not_ge
      · exact ⟨_, constructWriter_illegalPair hcap hrid⟩
  · exact iff_of_true ⟨_, constructWriter_illegalCapacity hcap⟩ (by omega)

theorem constructReader_refused_iff :
    (∃ why, constructReader id len src debug s = .refused why) ↔ 2 ^ 32 - 1 < len := by
  by_cases hlen : len ≤ 2 ^ 32 - 1
  · simpa [constructReader_legal hlen] using hlen
  · exact iff_of_true ⟨_, constructReader_illegalBudget hlen⟩ (not_le.mp hlen)

end

/-- Settles O16: the outcome of each construction, read off its equations. -/
theorem illegalConstructionsAreRefused : Obligations.IllegalConstructionsAreRefused := by
  unfold Obligations.IllegalConstructionsAreRefused
  intro s id n debug pair bytes
  exact ⟨constructWriter_refused_iff, constructReader_refused_iff⟩

end Sys2Proof.Machine
end

section
/-! Simulation of primitives. What every command body is made of is said once (`WriterBody`, `ReaderBody`), and what
the primitives keep of two runs side by side, every body keeps of them. A property of one run is the diagonal case. -/

namespace Sys2Proof.Machine

/-! ## Two outcomes side by side -/

/-- Two outcomes of a primitive that are the same but for the units they leave, which stand in the relation `R`. -/
inductive Prim.Sim {σ α : Type} (R : σ → σ → Prop) : Prim σ α → Prim σ α → Prop where
  | done (a : α) {u v : σ} (h : R u v) : Prim.Sim R (.done a u) (.done a v)
  | raised (resp : Response) {u v : σ} (h : R u v) : Prim.Sim R (.raised resp u) (.raised resp v)
  | stopped (f : Fault) : Prim.Sim R (.stopped f) (.stopped f)

/-- The same unit twice, with a property: the relation under which a simulation says what one run keeps. -/
abbrev Diag {σ : Type} (Q : σ → Prop) (u v : σ) : Prop := v = u ∧ Q u

/-- Whatever units a primitive ends with, `Q` holds of them. -/
abbrev Prim.Keeps {σ α : Type} (Q : σ → Prop) (p : Prim σ α) : Prop := p.Sim (Diag Q) p

/-- A command's primitives end with this response and these units, whether they succeeded or raised it. -/
def Prim.EndsIn {σ : Type} (p : Prim σ Response) (resp : Response) (u : σ) : Prop :=
  p = .done resp u ∨ p = .raised resp u

section
variable {σ τ α β : Type} {R : σ → σ → Prop} {T : τ → τ → Prop}

theorem Prim.Sim.bind {p q : Prim σ α} {f g : α → σ → Prim σ β} (h : p.Sim R q)
    (hfg : ∀ a u v, R u v → (f a u).Sim R (g a v)) : (primBind p f).Sim R (primBind q g) := by
  cases h with
  | done a h => exact hfg a _ _ h
  | raised resp h => exact .raised resp h
  | stopped f => exact .stopped f

theorem Prim.Sim.lift {p q : Prim σ α} {f g : σ → τ} (h : p.Sim R q) (hfg : ∀ u v, R u v → T (f u) (g v)) :
    (primLift f p).Sim T (primLift g q) := by
  cases h with
  | done a h => exact .done a (hfg _ _ h)
  | raised resp h => exact .raised resp (hfg _ _ h)
  | stopped f => exact .stopped f

theorem Prim.Sim.raiseError {u v : σ} (st : Status) (data : Data) (h : R u v) :
    (Machine.raiseError st data u : Prim σ α).Sim R (Machine.raiseError st data v) := .raised _ h

/-- A run simulated by itself ends with units that stand in the relation to themselves. -/
theorem Prim.Sim.endsIn {p : Prim σ Response} {resp : Response} {u : σ} (h : p.Sim R p) (he : p.EndsIn resp u) :
    R u u := by
  rcases he with rfl | rfl
  · cases h with | done _ h => exact h
  · cases h with | raised _ h => exact h

end

/-! ## The bodies of the commands -/

/-- What a writer command does behind its prologue (40_writer.md R84 to R96, R99), its count already found legal or
not. -/
inductive WriterBody : (Writer → Prim Writer Response) → Prop where
  | rejectCount (n : Nat) : WriterBody fun w => raiseError .widthError (dataCount n) w
  | unsigned (t : TagType) (v : Word) {k : Nat} (hk : 1 ≤ k) (hk2 : k ≤ 32) : WriterBody fun w => w.putUnsigned t v k
  | signed (t : TagType) (v : Int) {k : Nat} (hk : 2 ≤ k) (hk2 : k ≤ 32) : WriterBody fun w => w.putSigned t v k
  | double (v : BitVec 64) : WriterBody fun w => w.putDouble v
  | tell : WriterBody fun w => .done (countResponse w.tell) w
  | rewind (p : Nat) : WriterBody fun w =>
      if w.tell < p then raiseError .rewindOutOfRange (dataPair p w.tell) w
      else primBind (w.rewindTo p) fun _ w1 => .done (okResponse 0#64) w1
  | close : WriterBody fun w => primBind w.close fun _ w1 => .done (okResponse 0#64) w1
  | octets : WriterBody Writer.octets

/-- What a reader command does behind its prologue (41_reader.md R111 to R119), its count already found legal or not. -/
inductive ReaderBody : (Reader → Prim Reader Response) → Prop where
  | rejectCount (n : Nat) : ReaderBody fun r => raiseError .widthError (dataCount n) r
  | unsigned (t : TagType) {k : Nat} (hk : 1 ≤ k) (hk2 : k ≤ 32) : ReaderBody fun r => r.getUnsigned t k
  | signed (t : TagType) {k : Nat} (hk : 2 ≤ k) (hk2 : k ≤ 32) : ReaderBody fun r => r.getSigned t k
  | double : ReaderBody fun r => r.getDouble
  | tell : ReaderBody fun r => .done (countResponse r.tell) r

/-! ## What the primitives keep, the bodies keep -/

/-- A relation between writers that every primitive a body is made of keeps, and that fixes what a body looks at. -/
structure Writer.Simulation (R : Writer → Writer → Prop) : Prop where
  tell {w w' : Writer} (h : R w w') : w'.tell = w.tell
  debug {w w' : Writer} (h : R w w') : w'.debug = w.debug
  pwrite {w w' : Writer} (v : Word) {k : Nat} (hk : 1 ≤ k) (hk2 : k ≤ 32) (h : R w w') :
    (w.pwrite v k).Sim R (w'.pwrite v k)
  rewindTo {w w' : Writer} {p : Nat} (hp : p ≤ w.tell) (h : R w w') : (w.rewindTo p).Sim R (w'.rewindTo p)
  close {w w' : Writer} (h : R w w') : w.close.Sim R w'.close
  octets {w w' : Writer} (h : R w w') : w.octets.Sim R w'.octets

/-- A relation between readers that the primitive read keeps, and that fixes what a body looks at. -/
structure Reader.Simulation (S : Reader → Reader → Prop) : Prop where
  tell {r r' : Reader} (h : S r r') : r'.tell = r.tell
  debug {r r' : Reader} (h : S r r') : r'.debug = r.debug
  pread {r r' : Reader} {k : Nat} (hk : 1 ≤ k) (hk2 : k ≤ 32) (h : S r r') : (r.pread k).Sim S (r'.pread k)

/-- A property of one reader is a simulation as soon as the primitive read keeps it. -/
theorem Reader.Simulation.diag {Q : Reader → Prop}
    (hQ : ∀ r k, 1 ≤ k → k ≤ 32 → Q r → (r.pread k).Keeps Q) : Reader.Simulation (Diag Q) where
  tell := by rintro _ _ ⟨rfl, -⟩; rfl
  debug := by rintro _ _ ⟨rfl, -⟩; rfl
  pread := by rintro _ _ _ hk hk2 ⟨rfl, hq⟩; exact hQ _ _ hk hk2 hq

section
variable {R : Writer → Writer → Prop} {S : Reader → Reader → Prop} {w w' : Writer} {r r' : Reader}

theorem Writer.Simulation.tag (hR : Writer.Simulation R) (t : TagType) (n : Nat) (h : R w w') :
    (w.tag t n).Sim R (w'.tag t n) := by
  unfold Writer.tag
  rw [hR.debug h]
  split
  · exact (hR.pwrite _ (by omega) (by omega) h).bind fun _ _ _ h1 => hR.pwrite _ (by omega) (by omega) h1
  · exact .done () h

theorem Reader.Simulation.checkTag (hS : Reader.Simulation S) (t : TagType) (n : Nat) (h : S r r') :
    (r.checkTag t n).Sim S (r'.checkTag t n) := by
  unfold Reader.checkTag
  rw [hS.debug h]
  split
  · refine (hS.pread (by omega) (by omega) h).bind fun _ _ _ h1 =>
      (hS.pread (by omega) (by omega) h1).bind fun _ _ _ h2 => ?_
    split
    · exact .done () h2
    · exact .raiseError _ _ h2
  · exact .done () h

/-- What every primitive of a writer keeps, every command body keeps. -/
theorem WriterBody.sim {body : Writer → Prim Writer Response} (hb : WriterBody body) (hR : Writer.Simulation R)
    (h : R w w') : (body w).Sim R (body w') := by
  cases hb with
  | rejectCount n => exact .raiseError _ _ h
  | unsigned t v hk hk2 =>
    exact (hR.tag t _ h).bind fun _ _ _ h1 => (hR.pwrite v hk hk2 h1).bind fun _ _ _ h2 => .done _ h2
  | signed t v hk hk2 =>
    exact (hR.tag t _ h).bind fun _ _ _ h1 => (hR.pwrite _ (by omega) (by omega) h1).bind fun _ _ _ h2 =>
      (hR.pwrite _ (by omega) (by omega) h2).bind fun _ _ _ h3 => .done _ h3
  | double v =>
    exact (hR.tag _ _ h).bind fun _ _ _ h1 => (hR.pwrite _ (by omega) (by omega) h1).bind fun _ _ _ h2 =>
      (hR.pwrite _ (by omega) (by omega) h2).bind fun _ _ _ h3 => .done _ h3
  | tell =>
    simp only [hR.tell h]
    exact .done _ h
  | rewind p =>
    simp only [hR.tell h]
    split
    · exact .raiseError _ _ h
    · exact (hR.rewindTo (by omega) h).bind fun _ _ _ h1 => .done _ h1
  | close => exact (hR.close h).bind fun _ _ _ h1 => .done _ h1
  | octets => exact hR.octets h

/-- What the primitive read keeps, every command body of a reader keeps. -/
theorem ReaderBody.sim {body : Reader → Prim Reader Response} (hb : ReaderBody body) (hS : Reader.Simulation S)
    (h : S r r') : (body r).Sim S (body r') := by
  cases hb with
  | rejectCount n => exact .raiseError _ _ h
  | unsigned t hk hk2 =>
    exact (hS.checkTag t _ h).bind fun _ _ _ h1 => (hS.pread hk hk2 h1).bind fun _ _ _ h2 => .done _ h2
  | signed t hk hk2 =>
    exact (hS.checkTag t _ h).bind fun _ _ _ h1 => (hS.pread (by omega) (by omega) h1).bind fun _ _ _ h2 =>
      (hS.pread (by omega) (by omega) h2).bind fun _ _ _ h3 => .done _ h3
  | double =>
    exact (hS.checkTag _ _ h).bind fun _ _ _ h1 => (hS.pread (by omega) (by omega) h1).bind fun _ _ _ h2 =>
      (hS.pread (by omega) (by omega) h2).bind fun _ _ _ h3 => .done _ h3
  | tell =>
    simp only [hS.tell h]
    exact .done _ h

/-- A writer and a reader related side by side. -/
abbrev BothRel (R : Writer → Writer → Prop) (S : Reader → Reader → Prop) (u v : Writer × Reader) : Prop :=
  R u.1 v.1 ∧ S u.2 v.2

variable {u v : Writer × Reader}

theorem copyChunk_sim (hR : Writer.Simulation R) (hS : Reader.Simulation S) {k : Nat} (hk : 1 ≤ k) (hk2 : k ≤ 32)
    (h : BothRel R S u v) : (copyChunk k u).Sim (BothRel R S) (copyChunk k v) := by
  obtain ⟨hw, hr⟩ := h
  refine ((hS.pread hk hk2 hr).lift fun _ _ hr1 => ⟨hw, hr1⟩).bind fun x u1 v1 h1 => ?_
  exact (hR.pwrite x hk hk2 h1.1).lift fun _ _ hw1 => ⟨hw1, h1.2⟩

theorem copyWords_sim (hR : Writer.Simulation R) (hS : Reader.Simulation S) (j : Nat) (h : BothRel R S u v) :
    (copyWords j u).Sim (BothRel R S) (copyWords j v) := by
  induction j generalizing u v with
  | zero => exact .done () h
  | succ j ih => exact (copyChunk_sim hR hS (by omega) (by omega) h).bind fun _ _ _ h1 => ih h1

/-- What the primitives keep of a writer and of a reader, a copy keeps of both. -/
theorem copyBits_sim (hR : Writer.Simulation R) (hS : Reader.Simulation S) (n : Nat) (h : BothRel R S u v) :
    (copyBits n u).Sim (BothRel R S) (copyBits n v) := by
  refine (copyWords_sim hR hS _ h).bind fun _ _ _ h1 => ?_
  split
  · exact (copyChunk_sim hR hS (by omega) (by omega) h1).bind fun _ _ _ h2 => .done _ h2
  · exact .done _ h1

end

end Sys2Proof.Machine
end

section
/-! What a command can do to the system, said once: its meaning is one of a few shapes over command bodies, and its
next state is one of a few updates of the units. -/

namespace Sys2Proof.Machine

/-! ## The meanings of the commands -/

/-- The meanings of the commands of one unit: every command but W_COPY, and every illegal word. -/
inductive UnitMeaning : (State → Host.Outcome State Fault Refusal) → Prop where
  | writer (op : BitVec 8) {body : Writer → Prim Writer Response} (hb : WriterBody body) :
      UnitMeaning (writerCommand op body)
  | reader (op : BitVec 8) {body : Reader → Prim Reader Response} (hb : ReaderBody body) :
      UnitMeaning (readerCommand op body)
  | illegal (op : BitVec 8) : UnitMeaning (illegalCommand op)

theorem unitMeaning_execWBits (v : Word) (n : Nat) : UnitMeaning (execWBits v n) := by
  unfold execWBits
  split
  · exact .writer _ (.rejectCount n)
  · exact .writer _ (.unsigned _ v (by omega) (by omega))

theorem unitMeaning_execWSbits (v : Int) (n : Nat) : UnitMeaning (execWSbits v n) := by
  unfold execWSbits
  split
  · exact .writer _ (.rejectCount n)
  · exact .writer _ (.signed _ v (by omega) (by omega))

theorem unitMeaning_execRBits (n : Nat) : UnitMeaning (execRBits n) := by
  unfold execRBits
  split
  · exact .reader _ (.rejectCount n)
  · exact .reader _ (.unsigned _ (by omega) (by omega))

theorem unitMeaning_execRSbits (n : Nat) : UnitMeaning (execRSbits n) := by
  unfold execRSbits
  split
  · exact .reader _ (.rejectCount n)
  · exact .reader _ (.signed _ (by omega) (by omega))

theorem exec_unitMeaning (i : Instr) : UnitMeaning (exec i) ∨ ∃ n, i = .wCopy n := by
  cases i with
  | wBits v n => exact .inl (unitMeaning_execWBits v n)
  | wSbits v n => exact .inl (unitMeaning_execWSbits v n)
  | wU8 v => exact .inl (.writer _ (.unsigned .uint8 _ (k := 8) (by omega) (by omega)))
  | wU16 v => exact .inl (.writer _ (.unsigned .uint16 _ (k := 16) (by omega) (by omega)))
  | wU32 v => exact .inl (.writer _ (.unsigned .uint32 _ (k := 32) (by omega) (by omega)))
  | wI16 v => exact .inl (.writer _ (.signed .int16 v (k := 16) (by omega) (by omega)))
  | wI32 v => exact .inl (.writer _ (.signed .int32 v (k := 32) (by omega) (by omega)))
  | wU64 v => exact .inl (.writer _ (.double v))
  | wTell => exact .inl (.writer _ .tell)
  | wRewind p => exact .inl (.writer _ (.rewind p))
  | wClose => exact .inl (.writer _ .close)
  | wOctets => exact .inl (.writer _ .octets)
  | wCopy n => exact .inr ⟨n, rfl⟩
  | rBits n => exact .inl (unitMeaning_execRBits n)
  | rSbits n => exact .inl (unitMeaning_execRSbits n)
  | rU8 => exact .inl (.reader _ (.unsigned .uint8 (k := 8) (by omega) (by omega)))
  | rU16 => exact .inl (.reader _ (.unsigned .uint16 (k := 16) (by omega) (by omega)))
  | rU32 => exact .inl (.reader _ (.unsigned .uint32 (k := 32) (by omega) (by omega)))
  | rI16 => exact .inl (.reader _ (.signed .int16 (k := 16) (by omega) (by omega)))
  | rI32 => exact .inl (.reader _ (.signed .int32 (k := 32) (by omega) (by omega)))
  | rU64 => exact .inl (.reader _ .double)
  | rTell => exact .inl (.reader _ .tell)

theorem runWord_unitMeaning (word : CommandWord) : UnitMeaning (runWord word) ∨ ∃ n, runWord word = execWCopy n := by
  cases hd : decode word with
  | command i =>
    have hrun : runWord word = exec i := by funext s; simp only [runWord, hd]
    rw [hrun]
    exact (exec_unitMeaning i).imp_right fun ⟨n, hi⟩ => ⟨n, by rw [hi]; rfl⟩
  | illegal op =>
    have hrun : runWord word = illegalCommand op := by funext s; simp only [runWord, hd]
    exact .inl (hrun ▸ .illegal op)

/-! ## What a command leaves -/

/-- How a command of its own can leave a writer: as it was, when its prologue answers FAULTED or ILLEGAL_COMMAND; with
the use-after-close fault; or as a body leaves it. -/
inductive Writer.Answers (w : Writer) : Writer → Prop where
  | unchanged : w.Answers w
  | useAfterClose (hf : w.fault = 0#8) : w.Answers { w with fault := 0x82#8 }
  | ran {body : Writer → Prim Writer Response} {resp : Response} {w' : Writer} (hf : w.fault = 0#8)
      (hb : WriterBody body) (he : (body w).EndsIn resp w') : w.Answers w'

/-- How a command of its own can leave a reader: as it was, or as a body leaves it. -/
inductive Reader.Answers (r : Reader) : Reader → Prop where
  | unchanged : r.Answers r
  | ran {body : Reader → Prim Reader Response} {resp : Response} {r' : Reader} (hf : r.fault = 0#8)
      (hb : ReaderBody body) (he : (body r).EndsIn resp r') : r.Answers r'

/-- The next states of a command that changes at most the unit it was presented to. -/
inductive UnitEffect (s : State) : State → Prop where
  | none (resp : Response) : UnitEffect s (s.respond resp)
  | writer {id : Nat} {w w' : Writer} (resp : Response) (hat : s.AtWriter id w) (ha : w.Answers w') :
      UnitEffect s (s.withWriter id w' resp)
  | reader {id : Nat} {r r' : Reader} (resp : Response) (hat : s.AtReader id r) (ha : r.Answers r') :
      UnitEffect s (s.withReader id r' resp)

/-- The next states of a W_COPY of `n` bits that runs. -/
inductive PairEffect (s : State) (n : Nat) : State → Prop where
  | copied {id rid : Nat} {w w' : Writer} {r r' : Reader} {resp : Response} (hat : s.AtWriter id w)
      (hp : w.pair = some rid) (hr : s.reader? rid = some r) (hwf : w.fault = 0#8) (hrf : r.fault = 0#8)
      (he : (copyBits n (w, r)).EndsIn resp (w', r')) : PairEffect s n (s.withPair id w' rid r' resp)

section
variable {s t : State}

/-- A command that is answered ends in its prologue, or behind it in what stands for its port. -/
theorem present_next {op : BitVec 8} {fw : Nat → Writer → Host.Outcome State Fault Refusal}
    {fr : Nat → Reader → Host.Outcome State Fault Refusal} (h : present op s fw fr = .next t) :
    UnitEffect s t ∨ (∃ id w, s.AtWriter id w ∧ w.fault = 0#8 ∧ fw id w = .next t) ∨
      ∃ id r, s.AtReader id r ∧ r.fault = 0#8 ∧ fr id r = .next t := by
  cases hport : s.port with
  | writer id =>
    cases hw : s.writer? id with
    | none => simp [present, hport, hw] at h
    | some w =>
      have hat : s.AtWriter id w := ⟨hport, hw⟩
      rw [present_writer op s id w hat] at h
      obtain ⟨-, e⟩ | ⟨-, -, e⟩ | ⟨hf, -, -, -, e⟩ | ⟨hf, -, -, -, e⟩ := writer_prologue_cases w op <;> rw [e] at h
      · cases h; exact .inl (.writer _ hat .unchanged)
      · cases h; exact .inl (.writer _ hat .unchanged)
      · cases h; exact .inl (.writer _ hat (.useAfterClose hf))
      · exact .inr (.inl ⟨id, w, hat, hf, h⟩)
  | reader id =>
    cases hr : s.reader? id with
    | none => simp [present, hport, hr] at h
    | some r =>
      have hat : s.AtReader id r := ⟨hport, hr⟩
      rw [present_reader op s id r hat] at h
      obtain ⟨-, e⟩ | ⟨-, -, e⟩ | ⟨hf, -, e⟩ := reader_prologue_cases r op <;> rw [e] at h
      · cases h; exact .inl (.reader _ hat .unchanged)
      · cases h; exact .inl (.reader _ hat .unchanged)
      · exact .inr (.inr ⟨id, r, hat, hf, h⟩)

theorem finish_next {σ : Type} {commit : σ → State} {p : Prim σ Response} (h : finish commit p = .next t) :
    ∃ resp u, p.EndsIn resp u ∧ t = (commit u).respond resp := by
  cases p with
  | done resp u => cases h; exact ⟨resp, u, .inl rfl, rfl⟩
  | raised resp u => cases h; exact ⟨resp, u, .inr rfl, rfl⟩
  | stopped f => cases h

theorem answerIllegal_next {op : BitVec 8} (h : answerIllegal op s = .next t) : UnitEffect s t := by
  cases h; exact .none _

theorem UnitMeaning.effect {m : State → Host.Outcome State Fault Refusal} (hm : UnitMeaning m) (h : m s = .next t) :
    UnitEffect s t := by
  cases hm with
  | writer op hb =>
    obtain he | ⟨id, w, hat, hf, hrun⟩ | ⟨_, _, _, _, hrun⟩ := present_next h
    · exact he
    · obtain ⟨resp, w', he, rfl⟩ := finish_next hrun
      exact .writer resp hat (.ran hf hb he)
    · exact answerIllegal_next hrun
  | reader op hb =>
    obtain he | ⟨_, _, _, _, hrun⟩ | ⟨id, r, hat, hf, hrun⟩ := present_next h
    · exact he
    · exact answerIllegal_next hrun
    · obtain ⟨resp, r', he, rfl⟩ := finish_next hrun
      exact .reader resp hat (.ran hf hb he)
  | illegal op =>
    obtain he | ⟨_, _, _, _, hrun⟩ | ⟨_, _, _, _, hrun⟩ := present_next h
    · exact he
    · exact answerIllegal_next hrun
    · exact answerIllegal_next hrun

theorem execWCopy_effect {n : Nat} (h : execWCopy n s = .next t) : UnitEffect s t ∨ PairEffect s n t := by
  obtain he | ⟨id, w, hat, hwf, hrun⟩ | ⟨_, _, _, _, hrun⟩ := present_next h
  · exact .inl he
  · unfold copyFromPair at hrun
    split at hrun
    · exact .inl (answerIllegal_next hrun)
    · next rid hp =>
      split at hrun
      · cases hrun
      · next r hr =>
        split at hrun
        · cases hrun; exact .inl (.none _)
        · next hrf =>
          obtain ⟨resp, u, he, rfl⟩ := finish_next hrun
          exact .inr (.copied hat hp hr hwf (not_not.mp hrf) he)
  · exact .inl (answerIllegal_next hrun)

theorem exec_effect {i : Instr} (h : exec i s = .next t) : UnitEffect s t ∨ ∃ n, i = .wCopy n ∧ PairEffect s n t := by
  obtain hm | ⟨n, rfl⟩ := exec_unitMeaning i
  · exact .inl (hm.effect h)
  · exact (execWCopy_effect h).imp_right fun he => ⟨n, rfl, he⟩

theorem runWord_effect {word : CommandWord} (h : runWord word s = .next t) :
    UnitEffect s t ∨ ∃ n, PairEffect s n t := by
  obtain hm | ⟨n, e⟩ := runWord_unitMeaning word
  · exact .inl (hm.effect h)
  · exact (execWCopy_effect (e ▸ h)).imp_right fun he => ⟨n, he⟩

/-- With nothing pending the system waits (log 4). -/
theorem step_nil (h : s.input = []) : step s = .next s := by simp only [step, runNext, h]

/-- A step that takes one action of the host. -/
theorem step_cons {a : HostAction} {rest : List HostAction} (h : s.input = a :: rest) :
    step s = runAction a rest s := by
  simp only [step, runNext, h]

/-- A step that takes a command runs its word on its port. -/
theorem step_command {p : Port} {word : CommandWord} {rest : List HostAction} (h : s.input = .command p word :: rest) :
    step s = runWord word (s.take p rest) := step_cons h

end

/-! ## The units of an updated state -/

section
variable (s : State) (id j : Nat)

theorem State.writer?_setWriter (w : Writer) :
    (s.setWriter id w).writer? j = if j = id then some w else s.writer? j := by
  split
  · next h => subst h; exact tableGet_put_same _ _ _
  · next h => exact tableGet_put_other _ _ _ _ h

theorem State.reader?_setReader (r : Reader) :
    (s.setReader id r).reader? j = if j = id then some r else s.reader? j := by
  split
  · next h => subst h; exact tableGet_put_same _ _ _
  · next h => exact tableGet_put_other _ _ _ _ h

@[simp] theorem State.writer?_setReader (r : Reader) : (s.setReader id r).writer? j = s.writer? j := rfl
@[simp] theorem State.reader?_setWriter (w : Writer) : (s.setWriter id w).reader? j = s.reader? j := rfl
@[simp] theorem State.writer?_respond (resp : Response) : (s.respond resp).writer? j = s.writer? j := rfl
@[simp] theorem State.reader?_respond (resp : Response) : (s.respond resp).reader? j = s.reader? j := rfl
@[simp] theorem State.writer?_take (p : Port) (rest : List HostAction) : (s.take p rest).writer? j = s.writer? j := rfl
@[simp] theorem State.reader?_take (p : Port) (rest : List HostAction) : (s.take p rest).reader? j = s.reader? j := rfl

end

/-- Settles O55: the units, the input, the port and the transcript of each next state a command can leave. -/
theorem commandsTouchOnlyTheirUnits : Obligations.CommandsTouchOnlyTheirUnits := by
  unfold Obligations.CommandsTouchOnlyTheirUnits
  intro s t i h
  obtain he | ⟨n, hi, he⟩ := exec_effect h
  · cases he with
    | none resp => exact ⟨fun _ _ => rfl, fun _ _ _ => rfl, rfl, rfl, resp, rfl⟩
    | writer resp hat _ =>
      refine ⟨fun j hj => ?_, fun _ _ _ => rfl, rfl, rfl, resp, rfl⟩
      rw [State.withWriter, State.writer?_respond, State.writer?_setWriter, if_neg]
      rintro rfl
      exact hj hat.1
    | reader resp hat _ =>
      refine ⟨fun _ _ => rfl, fun j hj _ => ?_, rfl, rfl, resp, rfl⟩
      rw [State.withReader, State.reader?_respond, State.reader?_setReader, if_neg]
      rintro rfl
      exact hj hat.1
  · cases he with
    | copied hat hp _ _ _ _ =>
      refine ⟨fun j hj => ?_, fun j _ hpair => ?_, rfl, rfl, _, rfl⟩
      · rw [State.withPair, State.writer?_respond, State.writer?_setReader, State.writer?_setWriter, if_neg]
        rintro rfl
        exact hj hat.1
      · rw [State.withPair, State.reader?_respond, State.reader?_setReader, if_neg]
        · rfl
        · rintro rfl
          exact hpair _ _ n ⟨hat, hi, hp⟩

end Sys2Proof.Machine
end

section
/-! What every command keeps of the units, in all states: configuration, the sticky registers, and the reader's
progress. -/

namespace Sys2Proof.Machine

/-! ## Writers -/

/-- The configuration registers are `w0`'s, and CLOSED has not fallen (10_state.md R25, R27). -/
abbrev Writer.Frame (w0 w : Writer) : Prop :=
  w.cap = w0.cap ∧ w.debug = w0.debug ∧ w.pair = w0.pair ∧ (w0.closed = true → w.closed = true)

theorem Writer.Frame.refl (w : Writer) : w.Frame w := ⟨rfl, rfl, rfl, id⟩

/-- How any command can leave a writer (10_state.md R25 to R27, 60_exceptions.md R142). -/
abbrev Writer.Moves (w w' : Writer) : Prop := w.Frame w' ∧ (w.fault ≠ 0#8 → w'.fault = w.fault)

theorem Writer.Moves.refl (w : Writer) : w.Moves w := ⟨.refl w, fun _ => rfl⟩

section
variable {w0 w : Writer} (h : w0.Frame w)
include h

theorem memWrite_keeps_frame (a n : Nat) (v : Word) : (w.memWrite a n v).Keeps w0.Frame := by
  unfold Writer.memWrite
  split
  · exact .done () ⟨rfl, h⟩
  · split
    · exact .done () ⟨rfl, h⟩
    · exact .stopped _

theorem checkHeld_keeps_frame : w.checkHeld.Keeps w0.Frame := by
  unfold Writer.checkHeld
  split
  · exact .raised _ ⟨rfl, h⟩
  · exact .done () ⟨rfl, h⟩

theorem pwrite_keeps_frame (v : Word) (k : Nat) : (w.pwrite v k).Keeps w0.Frame := by
  unfold Writer.pwrite
  split
  · exact .raised _ ⟨rfl, h⟩
  · split
    · exact checkHeld_keeps_frame h
    · refine (memWrite_keeps_frame h _ _ _).bind ?_
      rintro _ _ _ ⟨rfl, h1⟩
      exact checkHeld_keeps_frame h1

theorem rewindTo_keeps_frame (p : Nat) : (w.rewindTo p).Keeps w0.Frame := by
  have hflush : w.flushPending.Keeps w0.Frame := by
    unfold Writer.flushPending
    split
    · exact memWrite_keeps_frame h _ _ _
    · exact .done () ⟨rfl, h⟩
  refine hflush.bind ?_
  rintro _ _ _ ⟨rfl, h1⟩
  unfold Writer.reload Writer.memRead
  split
  · exact .done () ⟨rfl, h1⟩
  · split
    · exact .done () ⟨rfl, h1⟩
    · exact .stopped _

theorem close_keeps_frame : w.close.Keeps w0.Frame := by
  refine (memWrite_keeps_frame h _ _ _).bind ?_
  rintro _ _ _ ⟨rfl, hcap, hdebug, hpair, -⟩
  exact .done () ⟨rfl, hcap, hdebug, hpair, fun _ => rfl⟩

theorem octets_keeps_frame : w.octets.Keeps w0.Frame := by
  unfold Writer.octets
  split
  · exact .done _ ⟨rfl, h⟩
  · exact .stopped _

end

/-- The frame is kept by every primitive of a writer. -/
theorem simulation_frame (w0 : Writer) : Writer.Simulation (Diag w0.Frame) where
  tell := by rintro _ _ ⟨rfl, -⟩; rfl
  debug := by rintro _ _ ⟨rfl, -⟩; rfl
  pwrite := by rintro _ _ v k - - ⟨rfl, h⟩; exact pwrite_keeps_frame h v k
  rewindTo := by rintro _ _ p - ⟨rfl, h⟩; exact rewindTo_keeps_frame h p
  close := by rintro _ _ ⟨rfl, h⟩; exact close_keeps_frame h
  octets := by rintro _ _ ⟨rfl, h⟩; exact octets_keeps_frame h

theorem Writer.Answers.moves {w w' : Writer} (h : w.Answers w') : w.Moves w' := by
  cases h with
  | unchanged => exact .refl w
  | useAfterClose hf => exact ⟨.refl w, fun hne => absurd hf hne⟩
  | ran hf hb he =>
    exact ⟨((hb.sim (simulation_frame w) ⟨rfl, Writer.Frame.refl w⟩).endsIn he).2, fun hne => absurd hf hne⟩

/-! ## Readers -/

/-- The configuration registers are `r0`'s, the reader has not gone back, and its budget has paid for its tell
(10_state.md R30 to R32, R34). -/
abbrev Reader.Advanced (r0 r : Reader) : Prop :=
  (r.len = r0.len ∧ r.debug = r0.debug ∧ r.src = r0.src) ∧
    r0.tell ≤ r.tell ∧ r0.srcPos ≤ r.srcPos ∧ r0.pulls ≤ r.pulls ∧ r.tell + r.budget = r0.tell + r0.budget

theorem Reader.Advanced.refl (r : Reader) : r.Advanced r := ⟨⟨rfl, rfl, rfl⟩, le_rfl, le_rfl, le_rfl, rfl⟩

/-- How any command can leave a reader (10_state.md R30 to R34). -/
abbrev Reader.Moves (r r' : Reader) : Prop := r.Advanced r' ∧ (r.fault ≠ 0#8 → r'.fault = r.fault)

theorem Reader.Moves.refl (r : Reader) : r.Moves r := ⟨.refl r, fun _ => rfl⟩

section
variable {r0 r : Reader} (h : r0.Advanced r)
include h

theorem fill_advanced : r0.Advanced r.fill := by
  obtain ⟨hconfig, htell, hpos, hpulls, hbudget⟩ := h
  rw [fill_spec]
  exact ⟨hconfig, htell, Nat.le_add_right_of_le hpos, Nat.le_add_right_of_le hpulls, hbudget⟩

theorem consume_keeps_advanced {k : Nat} (x : Word) (hk : k ≤ r.budget) : (r.consume k x).Keeps r0.Advanced := by
  obtain ⟨hconfig, htell, hpos, hpulls, hbudget⟩ := h
  have hnext : r0.Advanced { r with tell := r.tell + k, budget := r.budget - k } :=
    ⟨hconfig, Nat.le_add_right_of_le htell, hpos, hpulls, by simp only; omega⟩
  unfold Reader.consume
  split
  · exact .raised _ ⟨rfl, hnext⟩
  · exact .done x ⟨rfl, hnext⟩

theorem readFresh_keeps_advanced {k : Nat} (need : Nat) (first : Word) (hk : k ≤ r.budget) :
    (r.readFresh k need first).Keeps r0.Advanced := by
  unfold Reader.readFresh
  split
  · exact consume_keeps_advanced (r := { r with held := r.held - need }) h _ hk
  · exact consume_keeps_advanced (r := { r with held := 0 }) h _ hk

theorem pread_keeps_advanced (k : Nat) : (r.pread k).Keeps r0.Advanced := by
  unfold Reader.pread
  split
  · exact .raiseError _ _ ⟨rfl, h⟩
  · split
    · exact consume_keeps_advanced (r := { r with held := r.held - k }) h _ (by simp only; omega)
    · exact readFresh_keeps_advanced (fill_advanced h) _ _ (by rw [fill_spec]; simp only; omega)

end

/-- The progress of a reader is kept by its primitive read. -/
theorem simulation_advanced (r0 : Reader) : Reader.Simulation (Diag r0.Advanced) :=
  .diag fun _ k _ _ h => pread_keeps_advanced h k

theorem Reader.Answers.moves {r r' : Reader} (h : r.Answers r') : r.Moves r' := by
  cases h with
  | unchanged => exact .refl r
  | ran hf hb he =>
    exact ⟨((hb.sim (simulation_advanced r) ⟨rfl, Reader.Advanced.refl r⟩).endsIn he).2, fun hne => absurd hf hne⟩

/-- A copy frames its writer and advances its reader. -/
theorem copyBits_moves {n : Nat} {w w' : Writer} {r r' : Reader} {resp : Response}
    (he : (copyBits n (w, r)).EndsIn resp (w', r')) : w.Frame w' ∧ r.Advanced r' := by
  have hstart : BothRel (Diag w.Frame) (Diag r.Advanced) (w, r) (w, r) :=
    ⟨⟨rfl, Writer.Frame.refl w⟩, ⟨rfl, Reader.Advanced.refl r⟩⟩
  obtain ⟨⟨-, hw⟩, ⟨-, hr⟩⟩ := (copyBits_sim (simulation_frame w) (simulation_advanced r) n hstart).endsIn he
  exact ⟨hw, hr⟩

/-! ## All units of a system -/

/-- Every unit of `t` is one of `s`, moved as a command can move it, and `t` has no other unit. -/
abbrev State.UnitsMove (s t : State) : Prop :=
  (∀ id, Option.Rel Writer.Moves (s.writer? id) (t.writer? id)) ∧
    ∀ id, Option.Rel Reader.Moves (s.reader? id) (t.reader? id)

theorem Writer.Moves.rel_refl (o : Option Writer) : Option.Rel Writer.Moves o o := by
  cases o with
  | none => exact .none
  | some w => exact .some (.refl w)

theorem Reader.Moves.rel_refl (o : Option Reader) : Option.Rel Reader.Moves o o := by
  cases o with
  | none => exact .none
  | some r => exact .some (.refl r)

section
variable {s t : State}

theorem writers_move_setWriter {id : Nat} {w w' : Writer} (hw : s.writer? id = some w) (h : w.Moves w') (j : Nat) :
    Option.Rel Writer.Moves (s.writer? j) ((s.setWriter id w').writer? j) := by
  rw [State.writer?_setWriter]
  split
  · next hj => subst hj; rw [hw]; exact .some h
  · exact Writer.Moves.rel_refl _

theorem readers_move_setReader {id : Nat} {r r' : Reader} (hr : s.reader? id = some r) (h : r.Moves r') (j : Nat) :
    Option.Rel Reader.Moves (s.reader? j) ((s.setReader id r').reader? j) := by
  rw [State.reader?_setReader]
  split
  · next hj => subst hj; rw [hr]; exact .some h
  · exact Reader.Moves.rel_refl _

theorem UnitEffect.unitsMove (h : UnitEffect s t) : s.UnitsMove t := by
  cases h with
  | none resp => exact ⟨fun _ => Writer.Moves.rel_refl _, fun _ => Reader.Moves.rel_refl _⟩
  | writer resp hat ha => exact ⟨writers_move_setWriter hat.2 ha.moves, fun _ => Reader.Moves.rel_refl _⟩
  | reader resp hat ha => exact ⟨fun _ => Writer.Moves.rel_refl _, readers_move_setReader hat.2 ha.moves⟩

theorem PairEffect.unitsMove {n : Nat} (h : PairEffect s n t) : s.UnitsMove t := by
  cases h with
  | copied hat _ hr hwf hrf he =>
    obtain ⟨hframe, hadvanced⟩ := copyBits_moves he
    exact ⟨writers_move_setWriter hat.2 ⟨hframe, fun hne => absurd hwf hne⟩,
      readers_move_setReader hr ⟨hadvanced, fun hne => absurd hrf hne⟩⟩

/-- Every command word, legal or not, moves the units and neither adds nor removes one. -/
theorem step_command_unitsMove {p : Port} {word : CommandWord} {rest : List HostAction}
    (hin : s.input = .command p word :: rest) (h : step s = .next t) : s.UnitsMove t := by
  rw [step_command hin] at h
  obtain he | ⟨n, he⟩ := runWord_effect h
  · exact he.unitsMove
  · exact he.unitsMove

end

/-- The related entry of an entry. -/
theorem rel_some_left {α : Type} {T : α → α → Prop} {o : Option α} {a : α} (h : Option.Rel T (some a) o) :
    ∃ b, o = some b ∧ T a b := by
  cases h with | some h => exact ⟨_, rfl, h⟩

theorem rel_none_left {α : Type} {T : α → α → Prop} {o : Option α} (h : Option.Rel T none o) : o = none := by
  cases h; rfl

/-- Settles O56: the configuration registers are in the frame of every move. -/
theorem configurationNeverChanges : Obligations.ConfigurationNeverChanges := by
  unfold Obligations.ConfigurationNeverChanges
  intro s t p word rest hin h
  obtain ⟨hwriters, hreaders⟩ := step_command_unitsMove hin h
  refine ⟨fun id u hu => ?_, fun id r hr => ?_, fun id hu => rel_none_left (hu ▸ hwriters id),
    fun id hr => rel_none_left (hr ▸ hreaders id)⟩
  · obtain ⟨u', hu', ⟨hcap, hdebug, hpair, -⟩, -⟩ := rel_some_left (hu ▸ hwriters id)
    exact ⟨u', hu', hcap, hdebug, hpair⟩
  · obtain ⟨r', hr', ⟨hconfig, -⟩, -⟩ := rel_some_left (hr ▸ hreaders id)
    exact ⟨r', hr', hconfig⟩

/-- Settles O57: a body runs only behind a prologue that found FAULT at 0x00, and none of them clears CLOSED. -/
theorem faultAndClosedAreSticky : Obligations.FaultAndClosedAreSticky := by
  unfold Obligations.FaultAndClosedAreSticky
  intro s t p word rest hin h
  obtain ⟨hwriters, hreaders⟩ := step_command_unitsMove hin h
  refine ⟨fun id u u' hu hu' => ?_, fun id r r' hr hr' => ?_⟩
  · obtain ⟨⟨-, -, -, hclosed⟩, hfault⟩ := Option.rel_some_some.mp (hu' ▸ hu ▸ hwriters id)
    exact ⟨hfault, hclosed⟩
  · obtain ⟨-, hfault⟩ := Option.rel_some_some.mp (hr' ▸ hr ▸ hreaders id)
    exact hfault

/-- Settles O58: the primitive read, on which every reader command and W_COPY rest, only advances. -/
theorem readersOnlyAdvance : Obligations.ReadersOnlyAdvance := by
  unfold Obligations.ReadersOnlyAdvance
  intro s t p word rest hin h id r r' hr hr'
  obtain ⟨-, hreaders⟩ := step_command_unitsMove hin h
  obtain ⟨⟨-, hadvance⟩, -⟩ := Option.rel_some_some.mp (hr' ▸ hr ▸ hreaders id)
  exact hadvance

end Sys2Proof.Machine
end

section
/-! Sound writers with the same committed bits: the logical stream's bytes are the committed bits, and two such writers
stay alike, and sound, whatever commands they are given. -/

namespace Sys2Proof.Machine

/-! ## The committed bits and the bytes of the logical stream -/

/-- Past the committed bits the last byte of the logical stream holds zeros (40_writer.md R100). -/
theorem streamBit_past (w : Writer) (h : w.Ok) {i : Nat} (hi : w.tell ≤ i) (hi8 : i < 8 * ceilDiv w.tell 8) :
    w.streamBit i = false := by
  obtain ⟨hheld, -, htell, -, hacc, -⟩ := h
  rw [and_mask_eq_zero_iff] at hacc
  unfold ceilDiv at hi8
  rw [streamBit_eq w i (by omega), if_neg (by omega)]
  exact hacc _ (by omega)

/-- A stream read past its end, as `packBytes` pads it. -/
theorem getD_stream (w : Writer) (h : w.Ok) {i : Nat} (hi8 : i < 8 * ceilDiv w.tell 8) :
    w.stream.getD i false = w.streamBit i := by
  by_cases hi : i < w.tell
  · rw [List.getD_eq_getElem _ _ (by simpa using hi)]
    simp [Writer.stream]
  · rw [List.getD_eq_default _ _ (by simpa using hi), streamBit_past w h (by omega) hi8]

/-- A byte is the number its bits stand for, most significant first. -/
theorem ofNat_bitsValue_byte (b : Byte) :
    BitVec.ofNat 8 (bitsValue ((List.range 8).map fun i => b.getLsbD (7 - i))) = b := by
  apply BitVec.eq_of_getLsbD_eq
  intro i hi
  rw [BitVec.getLsbD_ofNat, testBit_bitsValue]
  simp only [List.length_map, List.length_range, hi, decide_true, Bool.true_and, if_true]
  rw [List.getD_eq_getElem _ _ (by simp; omega)]
  simp only [List.getElem_map, List.getElem_range]
  congr 1
  omega

/-- The logical stream of a sound writer is its committed bits, padded with zeros and cut into bytes (40_writer.md
R100). -/
theorem out_eq_packBytes (w : Writer) (h : w.Ok) : w.out = packBytes w.stream := by
  unfold Writer.out packBytes
  rw [length_stream]
  apply List.map_congr_left
  intro j hj
  rw [List.mem_range] at hj
  rw [← ofNat_bitsValue_byte (w.outByte j)]
  congr 2
  apply List.map_congr_left
  intro i hi
  rw [List.mem_range] at hi
  rw [getD_stream w h (by omega), Writer.streamBit]
  congr 2 <;> omega

/-- The committed bits stand in the logical stream. -/
theorem stream_eq_of_out {w w' : Writer} (hout : w'.out = w.out) (htell : w'.tell = w.tell) : w'.stream = w.stream := by
  unfold Writer.stream
  rw [htell]
  apply List.map_congr_left
  intro i hi
  rw [List.mem_range] at hi
  have hj : i / 8 < ceilDiv w.tell 8 := by unfold ceilDiv; omega
  have hbyte := congrArg (fun l => l[i / 8]?) hout
  simp only [Writer.out, List.getElem?_map, htell, List.getElem?_range hj, Option.map_some, Option.some.injEq] at hbyte
  rw [Writer.streamBit, Writer.streamBit, hbyte]

/-! ## Sound writers that are alike -/

/-- Two sound writers with the same committed bits, configuration and status. -/
abbrev Writer.SoundAlike (w w' : Writer) : Prop := w.Ok ∧ w'.Ok ∧ w.Alike w'

theorem Writer.SoundAlike.refl {w : Writer} (h : w.Ok) : w.SoundAlike w := ⟨h, h, rfl, rfl, rfl, rfl, rfl, rfl, rfl⟩

theorem Writer.Ok.setFault {w : Writer} (h : w.Ok) {code : BitVec 8}
    (hcode : code = 0x80#8 ∨ code = 0x81#8 ∨ code = 0x82#8) : Writer.Ok { w with fault := code } := by
  obtain ⟨h1, h2, h3, h4, h5, h6, h7, h8, h9, -⟩ := h
  exact ⟨h1, h2, h3, h4, h5, h6, h7, h8, h9, .inr hcode⟩

/-- Taking the same fatal fault keeps two writers alike. -/
theorem Writer.SoundAlike.setFault {w w' : Writer} (h : w.SoundAlike w') {code : BitVec 8}
    (hcode : code = 0x80#8 ∨ code = 0x81#8 ∨ code = 0x82#8) :
    Writer.SoundAlike { w with fault := code } { w' with fault := code } := by
  obtain ⟨hok, hok', hstream, htell, hcap, hdebug, hpair, hclosed, -⟩ := h
  exact ⟨Writer.Ok.setFault hok hcode, Writer.Ok.setFault hok' hcode, hstream, htell, hcap, hdebug, hpair, hclosed, rfl⟩

theorem Writer.SameConfig.congr {w w' w1 w1' : Writer} (h : w.SameConfig w') (h1 : w.SameConfig w1)
    (h1' : w'.SameConfig w1') : w1.SameConfig w1' := by
  obtain ⟨a1, a2, a3, a4, a5⟩ := h
  obtain ⟨b1, b2, b3, b4, b5⟩ := h1
  obtain ⟨c1, c2, c3, c4, c5⟩ := h1'
  exact ⟨by rw [c1, a1, b1], by rw [c2, a2, b2], by rw [c3, a3, b3], by rw [c4, a4, b4], by rw [c5, a5, b5]⟩

/-- The same bits appended keep two writers alike. -/
theorem Writer.SoundAlike.appended {w w' w1 w1' : Writer} {bits : List Bool} (h : w.SoundAlike w')
    (h1 : w.Appended w1 bits) (h1' : w'.Appended w1' bits) : w1.SoundAlike w1' := by
  obtain ⟨-, -, hstream, htell, hconfig⟩ := h
  obtain ⟨s1, t1, -, -, o1, c1, -⟩ := h1
  obtain ⟨s2, t2, -, -, o2, c2, -⟩ := h1'
  exact ⟨o1, o2, by rw [s2, hstream, s1], by rw [t2, htell, t1], hconfig.congr c1 c2⟩

/-- The same cut keeps two writers alike. -/
theorem Writer.SoundAlike.rewound {w w' w1 w1' : Writer} {p : Nat} (h : w.SoundAlike w') (h1 : w.Rewound w1 p)
    (h1' : w'.Rewound w1' p) : w1.SoundAlike w1' := by
  obtain ⟨-, -, hstream, -, hconfig⟩ := h
  obtain ⟨s1, t1, -, -, o1, c1, -⟩ := h1
  obtain ⟨s2, t2, -, -, o2, c2, -⟩ := h1'
  exact ⟨o1, o2, by rw [s2, hstream, s1], by rw [t2, t1], hconfig.congr c1 c2⟩

theorem Writer.SoundAlike.closed {w w' w1 w1' : Writer} (h : w.SoundAlike w') (h1 : w.ClosedAs w1)
    (h1' : w'.ClosedAs w1') : w1.SoundAlike w1' := by
  obtain ⟨-, -, hstream, htell, a1, a2, a3, -, a5⟩ := h
  obtain ⟨b1, -, -, -, bt, b2, b3, b4, b5, bok, bout, -⟩ := h1
  obtain ⟨c1, -, -, -, ct, c2, c3, c4, c5, cok, cout, -⟩ := h1'
  refine ⟨bok, cok, ?_, by rw [ct, htell, bt], by rw [c3, a1, b3], by rw [c4, a2, b4], by rw [c5, a3, b5],
    by rw [c1, b1], by rw [c2, a5, b2]⟩
  rw [stream_eq_of_out cout ct, hstream, stream_eq_of_out bout bt]

theorem pwrite_soundAlike {w w' : Writer} (v : Word) {k : Nat} (hk : 1 ≤ k) (hk2 : k ≤ 32) (h : w.SoundAlike w') :
    (w.pwrite v k).Sim Writer.SoundAlike (w'.pwrite v k) := by
  have ⟨hok, hok', _, htell, hcap, _⟩ := h
  by_cases hroom : w.tell + k ≤ 8 * w.cap
  · obtain ⟨w1, e1, a1⟩ := pwrite_spec w v k hok hk hk2 hroom
    obtain ⟨w1', e1', a1'⟩ := pwrite_spec w' v k hok' hk hk2 (by rwa [htell, hcap])
    rw [e1, e1']
    exact .done () (h.appended a1 a1')
  · have hdata : dataPair k w'.tell = dataPair k w.tell := by rw [htell]
    rw [pwrite_overflow w v k (by omega), pwrite_overflow w' v k (by rw [htell, hcap]; omega), hdata]
    exact .raised _ (h.setFault (.inr (.inl rfl)))

theorem octets_eq {w : Writer} (h : w.Ok) :
    w.octets =
      .done { status := .ok, data := BitVec.ofNat 64 (ceilDiv w.tell 8), bytes := packBytes w.stream } w := by
  rw [Writer.octets, out_eq_packBytes w h, if_pos]
  obtain ⟨-, -, htell, hcap, -⟩ := h
  omega

/-- Two sound writers with the same committed bits and status stay so under every primitive, and answer alike. -/
theorem simulation_soundAlike : Writer.Simulation Writer.SoundAlike where
  tell := fun ⟨_, _, _, htell, _⟩ => htell
  debug := fun ⟨_, _, _, _, _, hdebug, _⟩ => hdebug
  pwrite := pwrite_soundAlike
  rewindTo := by
    intro w w' p hp h
    have ⟨hok, hok', _, htell, _⟩ := h
    obtain ⟨w1, e1, a1⟩ := rewindTo_spec w p hok hp
    obtain ⟨w1', e1', a1'⟩ := rewindTo_spec w' p hok' (by rwa [htell])
    rw [e1, e1']
    exact .done () (h.rewound a1 a1')
  close := by
    intro w w' h
    have ⟨hok, hok', _⟩ := h
    obtain ⟨w1, e1, a1⟩ := close_spec w hok
    obtain ⟨w1', e1', a1'⟩ := close_spec w' hok'
    rw [e1, e1']
    exact .done () (h.closed a1 a1')
  octets := by
    intro w w' h
    have ⟨hok, hok', hstream, htell, _⟩ := h
    rw [octets_eq hok, octets_eq hok', hstream, htell]
    exact .done _ h

/-- A sound reader stays sound under the primitive read. -/
theorem simulation_readerOk : Reader.Simulation (Diag Reader.Ok) :=
  .diag fun r k hk hk2 h => by
    by_cases hb : k ≤ r.budget
    · obtain ⟨r1, e1, -, -, hok, -⟩ := pread_spec r k h hk hk2 hb
      rw [e1]
      exact .done _ ⟨rfl, hok⟩
    · rw [pread_eof r k (by omega)]
      exact .raised _ ⟨rfl, h⟩

end Sys2Proof.Machine
end

section
/-! Sound systems: every step keeps a system sound (O51). The units stay sound by the simulations of sound units; the
pairs and the tables by what a step does to them. -/

namespace Sys2Proof.Machine

/-! ## Updates of a sound system -/

section
variable {s : State} (h : s.Ok)
include h

/-- A writer may take its place in a sound system if it is sound and its pair is constructed. -/
theorem State.Ok.setWriter {w : Writer} (id : Nat) (hw : w.Ok)
    (hp : (w.pair.all fun rid => (s.reader? rid).isSome) = true) : (s.setWriter id w).Ok := by
  obtain ⟨hwriters, hreaders, hallw, hallr⟩ := h
  refine ⟨tableWf_put _ _ _ hwriters, hreaders, fun p hmem => ?_, hallr⟩
  obtain rfl | hmem := mem_tablePut hmem
  · exact ⟨hw, hp⟩
  · exact hallw p hmem

/-- A sound reader may take any number in a sound system: no pair loses its reader. -/
theorem State.Ok.setReader {r : Reader} (id : Nat) (hr : r.Ok) : (s.setReader id r).Ok := by
  obtain ⟨hwriters, hreaders, hallw, hallr⟩ := h
  refine ⟨hwriters, tableWf_put _ _ _ hreaders, fun p hmem => ?_, fun p hmem => ?_⟩
  · obtain ⟨hok, hpair⟩ := hallw p hmem
    refine ⟨hok, ?_⟩
    rw [Option.all_eq_true] at hpair ⊢
    intro rid hrid
    rw [State.reader?_setReader]
    split
    · rfl
    · exact hpair rid hrid
  · obtain rfl | hmem := mem_tablePut hmem
    · exact hr
    · exact hallr p hmem

/-- The pair of a sound system's writer is constructed. -/
theorem State.Ok.pair {id : Nat} {w : Writer} (hw : s.writer? id = some w) :
    (w.pair.all fun rid => (s.reader? rid).isSome) = true := by
  obtain ⟨-, -, hallw, -⟩ := h
  exact (hallw (id, w) (mem_of_tableGet hw)).2

/-- A writer moved by a command takes its own place again. -/
theorem State.Ok.setWriter_moved {id : Nat} {w w' : Writer} (hw : s.writer? id = some w) (hw' : w'.Ok)
    (hp : w'.pair = w.pair) : (s.setWriter id w').Ok :=
  State.Ok.setWriter h id hw' (hp ▸ State.Ok.pair h hw)

end

/-! ## Units after a command -/

theorem Writer.Answers.ok {w w' : Writer} (ha : w.Answers w') (h : w.Ok) : w'.Ok := by
  cases ha with
  | unchanged => exact h
  | useAfterClose hf => exact Writer.Ok.setFault h (.inr (.inr rfl))
  | ran hf hb he => exact ((hb.sim simulation_soundAlike (.refl h)).endsIn he).1

theorem Reader.Answers.ok {r r' : Reader} (ha : r.Answers r') (h : r.Ok) : r'.Ok := by
  cases ha with
  | unchanged => exact h
  | ran hf hb he => exact ((hb.sim simulation_readerOk ⟨rfl, h⟩).endsIn he).2

theorem copyBits_ok {n : Nat} {w w' : Writer} {r r' : Reader} {resp : Response} (hw : w.Ok) (hr : r.Ok)
    (he : (copyBits n (w, r)).EndsIn resp (w', r')) : w'.Ok ∧ r'.Ok := by
  have hstart : BothRel Writer.SoundAlike (Diag Reader.Ok) (w, r) (w, r) := ⟨.refl hw, rfl, hr⟩
  obtain ⟨⟨hw', -⟩, -, hr'⟩ := (copyBits_sim simulation_soundAlike simulation_readerOk n hstart).endsIn he
  exact ⟨hw', hr'⟩

section
variable {s t : State}

theorem UnitEffect.ok (he : UnitEffect s t) (h : s.Ok) : t.Ok := by
  cases he with
  | none resp => exact h
  | writer resp hat ha =>
    obtain ⟨⟨-, -, hpair, -⟩, -⟩ := ha.moves
    exact State.Ok.setWriter_moved h hat.2 (ha.ok (State.Ok.writer h hat.2)) hpair
  | reader resp hat ha => exact State.Ok.setReader h _ (ha.ok (State.Ok.reader h hat.2))

theorem PairEffect.ok {n : Nat} (he : PairEffect s n t) (h : s.Ok) : t.Ok := by
  cases he with
  | copied hat _ hr _ _ hends =>
    obtain ⟨hw', hr'⟩ := copyBits_ok (State.Ok.writer h hat.2) (State.Ok.reader h hr) hends
    obtain ⟨⟨-, -, hpair, -⟩, -⟩ := copyBits_moves hends
    exact State.Ok.setReader (State.Ok.setWriter_moved h hat.2 hw' hpair) _ hr'

/-! ## Constructions -/

/-- A legal writer is constructed sound (00_scope.md R8, 70_reset_and_hazards.md R162). -/
theorem Writer.construct_ok {cap : Nat} (debug : Bool) (pair : Option Nat) (fill : List Byte)
    (hcap : cap % 4 = 0 ∧ cap ≤ 2 ^ 28) : (Writer.construct cap debug pair fill).Ok := by
  refine ⟨Nat.zero_le _, rfl, rfl, Nat.zero_le _, by simp [Writer.construct], hcap.1, hcap.2, memWf_fill _ _ _ rfl,
    memBelow_fill _ _ _ _ ?_ rfl, .inl rfl⟩
  rw [List.length_take, Nat.zero_add]
  exact Nat.min_le_left _ _

/-- A legal reader is constructed sound (00_scope.md R9, 70_reset_and_hazards.md R163). -/
theorem Reader.construct_ok {len : Nat} (src : List Byte) (debug : Bool) (hlen : len ≤ 2 ^ 32 - 1) :
    (Reader.construct len src debug).Ok :=
  ⟨Nat.zero_le _, Nat.zero_add _, hlen, Nat.zero_le _, .inl rfl, fun _ hi => absurd hi (Nat.not_lt_zero _), .inl rfl⟩

theorem constructWriter_ok {id cap : Nat} {debug : Bool} {pair : Option Nat} {fill : List Byte}
    (hstep : constructWriter id cap debug pair fill s = .next t) (h : s.Ok) : t.Ok := by
  by_cases hlegal : (cap % 4 = 0 ∧ cap ≤ 2 ^ 28) ∧ ∀ rid, pair = some rid → (s.reader? rid).isSome = true
  · obtain ⟨hcap, hpair⟩ := hlegal
    rw [constructWriter_legal hcap hpair] at hstep
    cases hstep
    exact State.Ok.setWriter h id (Writer.construct_ok debug pair fill hcap) ((Option.all_eq_true _ _).mpr hpair)
  · have hrefused : ∃ why, constructWriter id cap debug pair fill s = .refused why := by
      rw [constructWriter_refused_iff]
      by_contra! hno
      obtain ⟨hmul, hmax, hsome⟩ := hno
      exact hlegal ⟨⟨hmul, hmax⟩, fun rid hrid => Option.isSome_iff_ne_none.mpr (hsome rid hrid)⟩
    obtain ⟨why, hwhy⟩ := hrefused
    rw [hwhy] at hstep
    cases hstep

theorem constructReader_ok {id len : Nat} {src : List Byte} {debug : Bool}
    (hstep : constructReader id len src debug s = .next t) (h : s.Ok) : t.Ok := by
  by_cases hlen : len ≤ 2 ^ 32 - 1
  · rw [constructReader_legal hlen] at hstep
    cases hstep
    exact State.Ok.setReader h id (Reader.construct_ok src debug hlen)
  · rw [constructReader_illegalBudget hlen] at hstep
    cases hstep

end

/-- Settles O51, by the kinds of host action: each kind of next state is a sound update of the sound state before. -/
theorem stepKeepsStateSound : Obligations.StepKeepsStateSound := by
  unfold Obligations.StepKeepsStateSound
  intro s t h hstep
  cases hin : s.input with
  | nil =>
    rw [step_nil hin] at hstep
    cases hstep
    exact h
  | cons a rest =>
    rw [step_cons hin] at hstep
    cases a with
    | constructWriter id cap debug pair fill => exact constructWriter_ok hstep h
    | constructReader id len src debug => exact constructReader_ok hstep h
    | command port word =>
      obtain he | ⟨n, he⟩ := runWord_effect hstep
      · exact he.ok h
      · exact he.ok h

end Sys2Proof.Machine
end

section
/-! Responses show the committed bits only (O60): two sound systems whose units are alike answer alike, step by step. -/

namespace Sys2Proof.Machine

/-! ## Alike tables and systems -/

section
variable {α : Type} {T : α → α → Prop} {t t' : List (Nat × α)}

/-- Two tables with the same keys and related entries, as `State.Alike` relates the writers. -/
abbrev TableRel (T : α → α → Prop) (t t' : List (Nat × α)) : Prop :=
  List.Forall₂ (fun p q => q.1 = p.1 ∧ T p.2 q.2) t t'

theorem TableRel.get (h : TableRel T t t') (k : Nat) : Option.Rel T (tableGet t k) (tableGet t' k) := by
  induction h with
  | nil => exact .none
  | @cons p q _ _ hpq _ ih =>
    obtain ⟨j, x⟩ := p
    obtain ⟨j', x'⟩ := q
    obtain ⟨rfl, hx⟩ := hpq
    simp only [tableGet]
    split
    · exact .some hx
    · exact ih

theorem TableRel.put (h : TableRel T t t') (k : Nat) {x x' : α} (hx : T x x') :
    TableRel T (tablePut t k x) (tablePut t' k x') := by
  induction h with
  | nil => exact .cons ⟨rfl, hx⟩ .nil
  | @cons p q _ _ hpq htail ih =>
    obtain ⟨j, y⟩ := p
    obtain ⟨j', y'⟩ := q
    obtain ⟨rfl, hy⟩ := hpq
    simp only [tablePut]
    split
    · exact .cons ⟨rfl, hx⟩ (.cons ⟨rfl, hy⟩ htail)
    · split
      · exact .cons ⟨rfl, hx⟩ htail
      · exact .cons ⟨rfl, hy⟩ ih

end

/-- Two sound systems that are alike. -/
abbrev State.SoundAlike (s s' : State) : Prop := s.Ok ∧ s'.Ok ∧ s.Alike s'

/-- If the one system has a next state, the other has one like it. -/
def OutcomesAlike (o o' : Host.Outcome State Fault Refusal) : Prop :=
  ∀ t, o = .next t → ∃ t', o' = .next t' ∧ t.Alike t'

theorem OutcomesAlike.next {t t' : State} (h : t.Alike t') : OutcomesAlike (.next t) (.next t') := by
  rintro _ ⟨⟩
  exact ⟨t', rfl, h⟩

theorem OutcomesAlike.refused (why : Refusal) (o : Host.Outcome State Fault Refusal) :
    OutcomesAlike (.refused why) o := by
  rintro _ ⟨⟩

section
variable {s s' : State}

theorem State.Alike.setWriter (h : s.Alike s') (id : Nat) {w w' : Writer} (hw : w.Alike w') :
    (s.setWriter id w).Alike (s'.setWriter id w') := by
  obtain ⟨hreaders, hinput, hport, htranscript, hwriters⟩ := h
  exact ⟨hreaders, hinput, hport, htranscript, TableRel.put hwriters id hw⟩

theorem State.Alike.setReader (h : s.Alike s') (id : Nat) (r : Reader) :
    (s.setReader id r).Alike (s'.setReader id r) := by
  obtain ⟨hreaders, hrest⟩ := h
  exact ⟨by rw [State.setReader_readers, State.setReader_readers, hreaders], hrest⟩

theorem State.Alike.respond (h : s.Alike s') (resp : Response) : (s.respond resp).Alike (s'.respond resp) := by
  obtain ⟨hreaders, hinput, hport, htranscript, hwriters⟩ := h
  exact ⟨hreaders, hinput, hport, by rw [State.respond_transcript, State.respond_transcript, hport, htranscript],
    hwriters⟩

theorem State.Alike.startRun (h : s.Alike s') (p : Port) : (s.startRun p).Alike (s'.startRun p) := by
  obtain ⟨hreaders, hinput, hport, htranscript, hwriters⟩ := h
  exact ⟨hreaders, hinput, hport, by rw [State.startRun_transcript, State.startRun_transcript, htranscript], hwriters⟩

theorem State.Alike.take (h : s.Alike s') (p : Port) (rest : List HostAction) :
    (s.take p rest).Alike (s'.take p rest) := by
  obtain ⟨hreaders, -, -, htranscript, hwriters⟩ := h
  exact ⟨hreaders, rfl, rfl, htranscript, hwriters⟩

theorem State.Alike.reader? (h : s.Alike s') (id : Nat) : s'.reader? id = s.reader? id := by
  obtain ⟨hreaders, -⟩ := h
  rw [State.reader?, State.reader?, hreaders]

/-- The writers of two alike sound systems are sound and alike, number by number. -/
theorem State.SoundAlike.writer (h : s.SoundAlike s') (id : Nat) :
    Option.Rel Writer.SoundAlike (s.writer? id) (s'.writer? id) := by
  obtain ⟨hok, hok', -, -, -, -, hwriters⟩ := h
  have hrel : Option.Rel Writer.Alike (s.writer? id) (s'.writer? id) := TableRel.get hwriters id
  cases hw : s.writer? id with
  | none =>
    rw [hw] at hrel
    rw [rel_none_left hrel]
    exact .none
  | some w =>
    rw [hw] at hrel
    obtain ⟨w', hw', halike⟩ := rel_some_left hrel
    rw [hw']
    exact .some ⟨State.Ok.writer hok hw, State.Ok.writer hok' hw', halike⟩

/-! ## Commands -/

theorem answerIllegal_alike (op : BitVec 8) (h : s.Alike s') :
    OutcomesAlike (answerIllegal op s) (answerIllegal op s') :=
  .next (h.respond _)

theorem finish_alike {σ : Type} {R : σ → σ → Prop} {p q : Prim σ Response} {commit commit' : σ → State}
    (h : p.Sim R q) (hcommit : ∀ u v, R u v → (commit u).Alike (commit' v)) :
    OutcomesAlike (finish commit p) (finish commit' q) := by
  cases h with
  | done resp h => exact .next ((hcommit _ _ h).respond resp)
  | raised resp h => exact .next ((hcommit _ _ h).respond resp)
  | stopped f => rintro _ ⟨⟩

/-- The prologue looks at the status and the pair only, so it ends alike for writers that are alike. -/
theorem prologue_alike (op : BitVec 8) {w w' : Writer} (h : w.Alike w') :
    (w.prologue op = .pass ∧ w'.prologue op = .pass) ∨
      ∃ resp u u', w.prologue op = .ended resp u ∧ w'.prologue op = .ended resp u' ∧ u.Alike u' := by
  have ⟨hstream, htell, hcap, hdebug, hpair, hclosed, hfault⟩ := h
  unfold Writer.prologue
  rw [hpair, hclosed, hfault]
  split
  · exact .inr ⟨_, _, _, rfl, rfl, h⟩
  · split
    · exact .inr ⟨_, _, _, rfl, rfl, h⟩
    · split
      · exact .inr ⟨_, _, _, rfl, rfl, h⟩
      · split
        · exact .inr ⟨_, _, _, rfl, rfl, hstream, htell, hcap, hdebug, rfl, rfl, rfl⟩
        · exact .inl ⟨rfl, rfl⟩

section
variable {fw fw' : Nat → Writer → Host.Outcome State Fault Refusal}
  {fr fr' : Nat → Reader → Host.Outcome State Fault Refusal}

theorem present_writer_alike (op : BitVec 8) (halike : s.Alike s') {id : Nat} {w w' : Writer} (hat : s.AtWriter id w)
    (hat' : s'.AtWriter id w') (hww' : w.Alike w') (hw : OutcomesAlike (fw id w) (fw' id w')) :
    OutcomesAlike (present op s fw fr) (present op s' fw' fr') := by
  rw [present_writer op s id w hat, present_writer op s' id w' hat']
  obtain ⟨e, e'⟩ | ⟨resp, u, u', e, e', huu'⟩ := prologue_alike op hww' <;> rw [e, e']
  · exact hw
  · exact .next ((halike.setWriter id huu').respond resp)

theorem present_reader_alike (op : BitVec 8) (halike : s.Alike s') {id : Nat} {r : Reader} (hat : s.AtReader id r)
    (hat' : s'.AtReader id r) (hr : OutcomesAlike (fr id r) (fr' id r)) :
    OutcomesAlike (present op s fw fr) (present op s' fw' fr') := by
  rw [present_reader op s id r hat, present_reader op s' id r hat']
  cases r.prologue op with
  | pass => exact hr
  | ended resp u => exact .next ((halike.setReader id u).respond resp)

/-- Presented commands answer alike if they do so behind the prologue. -/
theorem present_alike (op : BitVec 8) (h : s.SoundAlike s')
    (hw : ∀ id w w', w.SoundAlike w' → OutcomesAlike (fw id w) (fw' id w'))
    (hr : ∀ id r, r.Ok → OutcomesAlike (fr id r) (fr' id r)) :
    OutcomesAlike (present op s fw fr) (present op s' fw' fr') := by
  have ⟨hok, _, halike⟩ := h
  have ⟨_, _, hport, _⟩ := halike
  cases hp : s.port with
  | writer id =>
    have hrel := h.writer id
    cases hu : s.writer? id with
    | none => simpa only [present, hp, hu] using OutcomesAlike.refused _ _
    | some w =>
      rw [hu] at hrel
      obtain ⟨w', hu', hww'⟩ := rel_some_left hrel
      exact present_writer_alike op halike ⟨hp, hu⟩ ⟨hport.trans hp, hu'⟩ hww'.2.2 (hw id w w' hww')
  | reader id =>
    cases hu : s.reader? id with
    | none => simpa only [present, hp, hu] using OutcomesAlike.refused _ _
    | some r =>
      exact present_reader_alike op halike ⟨hp, hu⟩ ⟨hport.trans hp, (halike.reader? id).trans hu⟩
        (hr id r (State.Ok.reader hok hu))

end

theorem UnitMeaning.alike {m : State → Host.Outcome State Fault Refusal} (hm : UnitMeaning m) (h : s.SoundAlike s') :
    OutcomesAlike (m s) (m s') := by
  have ⟨_, _, halike⟩ := h
  cases hm with
  | writer op hb =>
    refine present_alike op h (fun id w w' hww' => ?_) fun _ _ _ => answerIllegal_alike op halike
    exact finish_alike (hb.sim simulation_soundAlike hww') fun u v huv => halike.setWriter id huv.2.2
  | reader op hb =>
    refine present_alike op h (fun _ _ _ _ => answerIllegal_alike op halike) fun id r hrok => ?_
    refine finish_alike (hb.sim simulation_readerOk ⟨rfl, hrok⟩) ?_
    rintro _ u ⟨rfl, -⟩
    exact halike.setReader id u
  | illegal op =>
    exact present_alike op h (fun _ _ _ _ => answerIllegal_alike op halike) fun _ _ _ => answerIllegal_alike op halike

theorem copyFromPair_alike (n id : Nat) {w w' : Writer} (hww' : w.SoundAlike w') (h : s.SoundAlike s') :
    OutcomesAlike (copyFromPair n id w s) (copyFromPair n id w' s') := by
  have ⟨hok, _, halike⟩ := h
  have ⟨_, _, _, _, _, _, hpair, _, _⟩ := hww'
  unfold copyFromPair
  rw [hpair]
  split
  · exact answerIllegal_alike _ halike
  · next rid _ =>
    rw [halike.reader?]
    split
    · exact .refused _ _
    · next r hr =>
      split
      · exact .next (halike.respond _)
      · refine finish_alike (copyBits_sim simulation_soundAlike simulation_readerOk n
          ⟨hww', rfl, State.Ok.reader hok hr⟩) ?_
        rintro ⟨u, _⟩ ⟨v, r1⟩ ⟨huv, rfl, -⟩
        exact (halike.setWriter id huv.2.2).setReader rid r1

theorem runWord_alike (word : CommandWord) (h : s.SoundAlike s') :
    OutcomesAlike (runWord word s) (runWord word s') := by
  obtain hm | ⟨n, e⟩ := runWord_unitMeaning word
  · exact hm.alike h
  · have ⟨_, _, halike⟩ := h
    rw [e]
    exact present_alike _ h (fun id _ _ hww' => copyFromPair_alike n id hww' h) fun _ _ _ =>
      answerIllegal_alike _ halike

/-! ## Constructions -/

/-- A new writer has committed no bits, whatever its buffer holds (70_reset_and_hazards.md R166). -/
theorem Writer.construct_alike (cap : Nat) (debug : Bool) (pair : Option Nat) (fill fill' : List Byte) :
    (Writer.construct cap debug pair fill).Alike (Writer.construct cap debug pair fill') :=
  ⟨rfl, rfl, rfl, rfl, rfl, rfl, rfl⟩

theorem constructWriter_alike (id cap : Nat) (debug : Bool) (pair : Option Nat) (fill : List Byte) (h : s.Alike s') :
    OutcomesAlike (constructWriter id cap debug pair fill s) (constructWriter id cap debug pair fill s') := by
  have hadd (pair : Option Nat) : (s.addWriter id (Writer.construct cap debug pair fill)).Alike
      (s'.addWriter id (Writer.construct cap debug pair fill)) :=
    (h.setWriter id (Writer.construct_alike cap debug pair fill fill)).startRun _
  unfold constructWriter
  split
  · split
    · exact .next (hadd none)
    · next rid =>
      rw [h.reader?]
      split
      · exact .next (hadd (some rid))
      · exact .refused _ _
  · exact .refused _ _

theorem constructReader_alike (id len : Nat) (src : List Byte) (debug : Bool) (h : s.Alike s') :
    OutcomesAlike (constructReader id len src debug s) (constructReader id len src debug s') := by
  unfold constructReader
  split
  · exact .next ((h.setReader id _).startRun _)
  · exact .refused _ _

theorem step_alike (h : s.SoundAlike s') : OutcomesAlike (step s) (step s') := by
  have ⟨hok, hok', halike⟩ := h
  have ⟨_, hinput, hport, _⟩ := halike
  cases hin : s.input with
  | nil =>
    rw [step_nil hin, step_nil (hinput.trans hin)]
    exact .next halike
  | cons a rest =>
    rw [step_cons hin, step_cons (hinput.trans hin)]
    cases a with
    | constructWriter id cap debug pair fill =>
      simp only [runAction, hport]
      exact constructWriter_alike id cap debug pair fill (halike.take _ rest)
    | constructReader id len src debug =>
      simp only [runAction, hport]
      exact constructReader_alike id len src debug (halike.take _ rest)
    | command port word => exact runWord_alike word ⟨hok, hok', halike.take port rest⟩

end

/-! ## The eager flush -/

section
variable {w : Writer} (h : w.Ok) (hfull : w.held = 32)
include h hfull

theorem Writer.flushedFull_ok : w.flushedFull.Ok := by
  obtain ⟨-, hcursor, htell, hcap, -, hmul, hmax, hwf, hbelow, hfault⟩ := h
  unfold Writer.flushedFull
  exact ⟨Nat.zero_le _, by simp only; omega, by simp only; omega, hcap, by simp, hmul, hmax,
    memWf_storeBytes _ _ _ _ hwf, memBelow_storeBytes _ _ _ _ _ (show w.cursor + 4 ≤ w.cap by omega) hbelow, hfault⟩

/-- A full accumulator holds the same bits whether it has been flushed or not (40_writer.md R80, 92_eei_decisions.md
D7). -/
theorem Writer.alike_flushedFull : w.Alike w.flushedFull := by
  obtain ⟨-, -, htell, -⟩ := h
  refine ⟨?_, rfl, rfl, rfl, rfl, rfl, rfl⟩
  unfold Writer.stream
  apply List.map_congr_left
  intro i hi
  have hlt : i < w.tell := List.mem_range.mp hi
  have hcursor : w.flushedFull.cursor = w.cursor + 4 := rfl
  rw [streamBit_eq _ _ (by omega), streamBit_eq _ _ (by omega), if_pos (by omega), Writer.flushedFull]
  split
  · rw [readByte_storeBytes, if_neg (by omega)]
  · exact readByte_store_flush _ _ _ _ (by omega) (by omega)

end

/-- Settles O60, by the simulation of sound writers that are alike. -/
theorem responsesShowOnlyCommittedBits : Obligations.ResponsesShowOnlyCommittedBits := by
  unfold Obligations.ResponsesShowOnlyCommittedBits
  exact ⟨fun s s' t hok hok' halike => step_alike ⟨hok, hok', halike⟩ t, Writer.construct_alike,
    fun w h hfull => ⟨Writer.flushedFull_ok h hfull, Writer.alike_flushedFull h hfull⟩⟩

end Sys2Proof.Machine
end

section
/-! What a primitive ends with, and whether it may stop the model, from the primitive write and the primitive read up to
the command bodies. It serves the safety of sound steps (O52), where no stop is allowed, and what commands leave of the
buffer in any state (O59), where one is. -/

namespace Sys2Proof.Machine

/-! ## Postconditions of primitives -/

/-- Whatever units a primitive ends with, `Q` holds of them; and it does not stop the model unless `stops` holds. -/
inductive Prim.Post {σ α : Type} (stops : Prop) (Q : σ → Prop) : Prim σ α → Prop where
  | done (a : α) {u : σ} (h : Q u) : Prim.Post stops Q (.done a u)
  | raised (resp : Response) {u : σ} (h : Q u) : Prim.Post stops Q (.raised resp u)
  | stopped (f : Fault) (h : stops) : Prim.Post stops Q (.stopped f)

section
variable {σ τ α β : Type} {stops : Prop} {Q : σ → Prop} {p : Prim σ α}

theorem Prim.Post.bind (h : p.Post stops Q) {f : α → σ → Prim σ β} (hf : ∀ a u, Q u → (f a u).Post stops Q) :
    (primBind p f).Post stops Q := by
  cases h with
  | done a h => exact hf a _ h
  | raised resp h => exact .raised resp h
  | stopped f h => exact .stopped f h

theorem Prim.Post.lift (h : p.Post stops Q) {T : τ → Prop} {f : σ → τ} (hf : ∀ u, Q u → T (f u)) :
    (primLift f p).Post stops T := by
  cases h with
  | done a h => exact .done a (hf _ h)
  | raised resp h => exact .raised resp (hf _ h)
  | stopped f h => exact .stopped f h

theorem Prim.Post.mono (h : p.Post stops Q) {T : σ → Prop} (hQT : ∀ u, Q u → T u) : p.Post stops T := by
  cases h with
  | done a h => exact .done a (hQT _ h)
  | raised resp h => exact .raised resp (hQT _ h)
  | stopped f h => exact .stopped f h

/-- A primitive that does not stop ends its command with a next state. -/
theorem Prim.Post.finish_ne_fault {p : Prim σ Response} (h : p.Post False Q) (commit : σ → State) (f : Fault) :
    finish commit p ≠ .fault f := by
  cases h with
  | done _ _ => exact nofun
  | raised _ _ => exact nofun
  | stopped _ h => exact h.elim

/-- The next state of a command is made of units its primitives end with. -/
theorem Prim.Post.finish_next {p : Prim σ Response} (h : p.Post stops Q) {commit : σ → State} {t : State}
    (hnext : finish commit p = .next t) : ∃ resp u, Q u ∧ t = (commit u).respond resp := by
  cases h with
  | done resp h => cases hnext; exact ⟨resp, _, h, rfl⟩
  | raised resp h => cases hnext; exact ⟨resp, _, h, rfl⟩
  | stopped f h => cases hnext

end

/-! ## The bodies of the reader commands -/

section
variable (stops : Prop) (r : Reader)

/-- The primitive read touches no buffer, so it stops in no state. -/
theorem pread_post (k : Nat) : (r.pread k).Post stops fun _ => True := by
  have hconsume (k : Nat) (x : Word) (r : Reader) : (r.consume k x).Post stops fun _ => True := by
    unfold Reader.consume
    split
    · exact .raised _ trivial
    · exact .done x trivial
  unfold Reader.pread
  split
  · exact .raised _ trivial
  · split
    · exact hconsume _ _ _
    · unfold Reader.readFresh
      split
      · exact hconsume _ _ _
      · exact hconsume _ _ _

theorem checkTag_post (t : TagType) (n : Nat) : (r.checkTag t n).Post stops fun _ => True := by
  unfold Reader.checkTag
  split
  · refine (pread_post stops r 4).bind fun _ r1 _ => (pread_post stops r1 7).bind fun _ _ _ => ?_
    split
    · exact .done () trivial
    · exact .raised _ trivial
  · exact .done () trivial

theorem ReaderBody.post {body : Reader → Prim Reader Response} (hb : ReaderBody body) :
    (body r).Post stops fun _ => True := by
  cases hb with
  | rejectCount n => exact .raised _ trivial
  | unsigned t _ _ =>
    exact (checkTag_post stops r t _).bind fun _ r1 _ => (pread_post stops r1 _).bind fun _ _ _ => .done _ trivial
  | signed t _ _ =>
    exact (checkTag_post stops r t _).bind fun _ r1 _ => (pread_post stops r1 _).bind fun _ r2 _ =>
      (pread_post stops r2 _).bind fun _ _ _ => .done _ trivial
  | double =>
    exact (checkTag_post stops r _ _).bind fun _ r1 _ => (pread_post stops r1 _).bind fun _ r2 _ =>
      (pread_post stops r2 _).bind fun _ _ _ => .done _ trivial
  | tell => exact .done _ trivial

end

/-! ## What is made of primitive writes -/

/-- The legal primitive writes keep `Q`, and stop the model only if `stops` holds. -/
abbrev PwriteKeeps (stops : Prop) (Q : Writer → Prop) : Prop :=
  ∀ w v k, 1 ≤ k → k ≤ 32 → Q w → (w.pwrite v k).Post stops Q

section
variable {stops : Prop} {Q : Writer → Prop} {w : Writer} (hQ : PwriteKeeps stops Q) (h : Q w)
include hQ

theorem copyChunk_post {k : Nat} (hk : 1 ≤ k) (hk2 : k ≤ 32) {u : Writer × Reader} (hu : Q u.1) :
    (copyChunk k u).Post stops fun u => Q u.1 := by
  have hread : (primLift (fun r => (u.1, r)) (u.2.pread k)).Post stops fun u => Q u.1 :=
    (pread_post stops u.2 k).lift fun _ _ => hu
  refine hread.bind fun x u1 hu1 => ?_
  exact (hQ u1.1 x k hk hk2 hu1).lift fun _ hw => hw

theorem copyWords_post (j : Nat) {u : Writer × Reader} (hu : Q u.1) :
    (copyWords j u).Post stops fun u => Q u.1 := by
  induction j generalizing u with
  | zero => exact .done () hu
  | succ j ih => exact (copyChunk_post hQ (by omega) (by omega) hu).bind fun _ _ hu1 => ih hu1

theorem copyBits_post (n : Nat) {u : Writer × Reader} (hu : Q u.1) : (copyBits n u).Post stops fun u => Q u.1 := by
  refine (copyWords_post hQ _ hu).bind fun _ u1 hu1 => ?_
  split
  · exact (copyChunk_post hQ (by omega) (by omega) hu1).bind fun _ _ hu2 => .done _ hu2
  · exact .done _ hu1

include h

theorem tag_post (t : TagType) (n : Nat) : (w.tag t n).Post stops Q := by
  unfold Writer.tag
  split
  · exact (hQ w _ 4 (by omega) (by omega) h).bind fun _ w1 h1 => hQ w1 _ 7 (by omega) (by omega) h1
  · exact .done () h

theorem putUnsigned_post (t : TagType) (v : Word) {k : Nat} (hk : 1 ≤ k) (hk2 : k ≤ 32) :
    (w.putUnsigned t v k).Post stops Q :=
  (tag_post hQ h t k).bind fun _ w1 h1 => (hQ w1 v k hk hk2 h1).bind fun _ _ h2 => .done _ h2

theorem putSigned_post (t : TagType) (v : Int) {k : Nat} (hk : 2 ≤ k) (hk2 : k ≤ 32) :
    (w.putSigned t v k).Post stops Q :=
  (tag_post hQ h t k).bind fun _ w1 h1 => (hQ w1 _ 1 (by omega) (by omega) h1).bind fun _ w2 h2 =>
    (hQ w2 _ (k - 1) (by omega) (by omega) h2).bind fun _ _ h3 => .done _ h3

theorem putDouble_post (v : BitVec 64) : (w.putDouble v).Post stops Q :=
  (tag_post hQ h .uint64 64).bind fun _ w1 h1 => (hQ w1 _ 32 (by omega) (by omega) h1).bind fun _ w2 h2 =>
    (hQ w2 _ 32 (by omega) (by omega) h2).bind fun _ _ h3 => .done _ h3

end

end Sys2Proof.Machine
end

section
/-! No step of a sound system forms an address outside a buffer (O52). -/

namespace Sys2Proof.Machine

/-! ## Bodies on sound writers -/

/-- A primitive write on a sound writer appends its field or takes the capacity fault. -/
theorem pwrite_keeps_ok : PwriteKeeps False Writer.Ok := by
  intro w v k hk hk2 h
  by_cases hroom : w.tell + k ≤ 8 * w.cap
  · obtain ⟨w', e, -, -, -, -, hok, -⟩ := pwrite_spec w v k h hk hk2 hroom
    rw [e]
    exact .done () hok
  · rw [pwrite_overflow w v k (by omega)]
    exact .raised _ (Writer.Ok.setFault h (.inr (.inl rfl)))

/-- A command body does not stop on a sound writer, and leaves it sound. -/
theorem WriterBody.post_ok {body : Writer → Prim Writer Response} (hb : WriterBody body) {w : Writer} (h : w.Ok) :
    (body w).Post False Writer.Ok := by
  cases hb with
  | rejectCount n => exact .raised _ h
  | unsigned t v hk hk2 => exact putUnsigned_post pwrite_keeps_ok h t v hk hk2
  | signed t v hk hk2 => exact putSigned_post pwrite_keeps_ok h t v hk hk2
  | double v => exact putDouble_post pwrite_keeps_ok h v
  | tell => exact .done _ h
  | rewind p =>
    dsimp only
    split
    · exact .raised _ h
    · obtain ⟨w', e, -, -, -, -, hok, -⟩ := rewindTo_spec w p h (by omega)
      rw [e]
      exact .done _ hok
  | close =>
    obtain ⟨w', e, -, -, -, -, -, -, -, -, -, hok, -⟩ := close_spec w h
    dsimp only
    rw [e]
    exact .done _ hok
  | octets =>
    rw [octets_eq h]
    exact .done _ h

/-! ## Commands and constructions -/

section
variable {s : State} {f : Fault}

/-- The prologues form no address: a presented command faults only where what stands behind its prologue does. -/
theorem present_ne_fault (op : BitVec 8) {fw : Nat → Writer → Host.Outcome State Fault Refusal}
    {fr : Nat → Reader → Host.Outcome State Fault Refusal} (hw : ∀ id w, s.AtWriter id w → fw id w ≠ .fault f)
    (hr : ∀ id r, s.AtReader id r → fr id r ≠ .fault f) : present op s fw fr ≠ .fault f := by
  unfold present
  split
  · next id hport =>
    split
    · exact nofun
    · next w hid =>
      split
      · exact nofun
      · exact hw id w ⟨hport, hid⟩
  · next id hport =>
    split
    · exact nofun
    · next r hid =>
      split
      · exact nofun
      · exact hr id r ⟨hport, hid⟩

theorem answerIllegal_ne_fault (op : BitVec 8) : answerIllegal op s ≠ .fault f := nofun

theorem UnitMeaning.ne_fault {m : State → Host.Outcome State Fault Refusal} (hm : UnitMeaning m) (h : s.Ok) :
    m s ≠ .fault f := by
  cases hm with
  | writer op hb =>
    exact present_ne_fault op (fun _ _ hat => (hb.post_ok (State.Ok.writer h hat.2)).finish_ne_fault _ f)
      fun _ _ _ => answerIllegal_ne_fault op
  | reader op hb =>
    exact present_ne_fault op (fun _ _ _ => answerIllegal_ne_fault op)
      fun _ r _ => (hb.post False r).finish_ne_fault _ f
  | illegal op =>
    exact present_ne_fault op (fun _ _ _ => answerIllegal_ne_fault op) fun _ _ _ => answerIllegal_ne_fault op

theorem copyFromPair_ne_fault (n id : Nat) {w : Writer} (hw : w.Ok) : copyFromPair n id w s ≠ .fault f := by
  unfold copyFromPair
  split
  · exact answerIllegal_ne_fault _
  · split
    · exact nofun
    · split
      · exact nofun
      · exact (copyBits_post pwrite_keeps_ok n hw).finish_ne_fault _ f

theorem runWord_ne_fault (word : CommandWord) (h : s.Ok) : runWord word s ≠ .fault f := by
  obtain hm | ⟨n, e⟩ := runWord_unitMeaning word
  · exact hm.ne_fault h
  · rw [e]
    exact present_ne_fault _ (fun id _ hat => copyFromPair_ne_fault n id (State.Ok.writer h hat.2))
      fun _ _ _ => answerIllegal_ne_fault _

theorem constructWriter_ne_fault (id cap : Nat) (debug : Bool) (pair : Option Nat) (fill : List Byte) :
    constructWriter id cap debug pair fill s ≠ .fault f := by
  unfold constructWriter
  split
  · split
    · exact nofun
    · split
      · exact nofun
      · exact nofun
  · exact nofun

theorem constructReader_ne_fault (id len : Nat) (src : List Byte) (debug : Bool) :
    constructReader id len src debug s ≠ .fault f := by
  unfold constructReader
  split
  · exact nofun
  · exact nofun

end

/-- Settles O52, by the kinds of host action: only a command body could form an address, and none does on sound
units. -/
theorem soundStepsNeverFault : Obligations.SoundStepsNeverFault := by
  unfold Obligations.SoundStepsNeverFault
  intro s f h
  cases hin : s.input with
  | nil =>
    rw [step_nil hin]
    exact nofun
  | cons a rest =>
    rw [step_cons hin]
    cases a with
    | constructWriter id cap debug pair fill => exact constructWriter_ne_fault id cap debug pair fill
    | constructReader id len src debug => exact constructReader_ne_fault id len src debug
    | command port word => exact runWord_ne_fault (s := s.take port rest) word h

end Sys2Proof.Machine
end

section
/-! Flushed bytes stay (O59): in every state, sound or not, no command changes a buffer byte below the word cursor it
finds, and none but W_REWIND moves that cursor back. -/

namespace Sys2Proof.Machine

/-! ## The flushed bytes of a writer -/

/-- The bytes below `w0`'s word cursor are `w0`'s (20_memory.md R47). -/
abbrev Writer.SameFlushed (w0 w : Writer) : Prop := ∀ a < w0.cursor, readByte w.buf a = readByte w0.buf a

/-- The word cursor has not moved back, and the bytes below where it was are the same. So long as this holds, what is
written at the cursor cannot touch them (20_memory.md R38, R47). -/
abbrev Writer.Onward (w0 w : Writer) : Prop := w0.cursor ≤ w.cursor ∧ w0.SameFlushed w

theorem Writer.Onward.refl (w : Writer) : w.Onward w := ⟨le_rfl, fun _ _ => rfl⟩

section
variable {w0 w : Writer} (h : w0.Onward w)
include h

theorem memWrite_onward (n : Nat) (v : Word) : (w.memWrite w.cursor n v).Post True w0.Onward := by
  obtain ⟨hcursor, hbytes⟩ := h
  unfold Writer.memWrite
  split
  · exact .done () ⟨hcursor, hbytes⟩
  · split
    · refine .done () ⟨hcursor, fun a ha => ?_⟩
      rw [readByte_storeBytes, if_neg (by omega), hbytes a ha]
    · exact .stopped _ trivial

theorem checkHeld_onward : w.checkHeld.Post True w0.Onward := by
  unfold Writer.checkHeld
  split
  · exact .raised _ h
  · exact .done () h

theorem close_onward : w.close.Post True w0.Onward :=
  (memWrite_onward h _ _).bind fun _ _ h1 => .done () h1

theorem octets_onward : w.octets.Post True w0.Onward := by
  unfold Writer.octets
  split
  · exact .done _ h
  · exact .stopped _ trivial

end

theorem pwrite_keeps_onward (w0 : Writer) : PwriteKeeps True w0.Onward := by
  intro w v k _ _ h
  unfold Writer.pwrite
  split
  · exact .raised _ h
  · split
    · exact checkHeld_onward h
    · refine (memWrite_onward h _ _).bind fun _ w1 ⟨_, hbytes⟩ => checkHeld_onward ⟨?_, hbytes⟩
      exact Nat.le_add_right_of_le h.1

/-- A rewind moves the cursor back only after its pending flush, which is its one write (40_writer.md R95). -/
theorem rewindTo_sameFlushed (w : Writer) (p : Nat) : (w.rewindTo p).Post True w.SameFlushed := by
  have hflush : w.flushPending.Post True w.Onward := by
    unfold Writer.flushPending
    split
    · exact memWrite_onward (.refl w) _ _
    · exact .done () (.refl w)
  refine (hflush.mono fun _ h => h.2).bind fun _ w1 hbytes => ?_
  unfold Writer.reload Writer.memRead
  split
  · exact .done () hbytes
  · split
    · exact .done () hbytes
    · exact .stopped _ trivial

/-! ## From bodies to commands -/

/-- A command leaves the writer it is presented to in the relation `Q`. -/
abbrev CommandKeeps (Q : Writer → Writer → Prop) (m : State → Host.Outcome State Fault Refusal) : Prop :=
  ∀ s t id w w', s.AtWriter id w → m s = .next t → t.writer? id = some w' → Q w w'

/-- A command on a writer's port ends with at most its FAULT register changed, or in what stands behind its prologue. -/
theorem present_writer_next {s t : State} {op : BitVec 8} {fw : Nat → Writer → Host.Outcome State Fault Refusal}
    {fr : Nat → Reader → Host.Outcome State Fault Refusal} {id : Nat} {w w' : Writer} (hat : s.AtWriter id w)
    (h : present op s fw fr = .next t) (hw' : t.writer? id = some w') :
    (∃ code, w' = { w with fault := code }) ∨ fw id w = .next t := by
  have hended (u : Writer) (resp : Response) (ht : ((s.setWriter id u).respond resp) = t) : w' = u := by
    rw [← ht, State.writer?_respond, State.writer?_setWriter, if_pos rfl] at hw'
    exact (Option.some.inj hw').symm
  rw [present_writer op s id w hat] at h
  obtain ⟨-, e⟩ | ⟨-, -, e⟩ | ⟨-, -, -, -, e⟩ | ⟨-, -, -, -, e⟩ := writer_prologue_cases w op <;> rw [e] at h
  · exact .inl ⟨w.fault, hended _ _ (Host.Outcome.next.inj h)⟩
  · exact .inl ⟨w.fault, hended _ _ (Host.Outcome.next.inj h)⟩
  · exact .inl ⟨0x82#8, hended _ _ (Host.Outcome.next.inj h)⟩
  · exact .inr h

section
variable {Q : Writer → Writer → Prop} (hfault : ∀ w code, Q w { w with fault := code })
include hfault

theorem writerCommand_keeps (op : BitVec 8) {body : Writer → Prim Writer Response}
    (hb : ∀ w, (body w).Post True (Q w)) : CommandKeeps Q (writerCommand op body) := by
  intro s t id w w' hat h hw'
  obtain ⟨code, rfl⟩ | hrun := present_writer_next hat h hw'
  · exact hfault w code
  · obtain ⟨resp, u, hu, rfl⟩ := (hb w).finish_next hrun
    rw [State.writer?_respond, State.writer?_setWriter, if_pos rfl] at hw'
    exact Option.some.inj hw' ▸ hu

theorem answerIllegal_keeps {op : BitVec 8} {s t : State} {id : Nat} {w w' : Writer} (hat : s.AtWriter id w)
    (h : answerIllegal op s = .next t) (hw' : t.writer? id = some w') : Q w w' := by
  cases h
  cases hat.2.symm.trans hw'
  exact hfault w w.fault

theorem readerCommand_keeps (op : BitVec 8) (body : Reader → Prim Reader Response) :
    CommandKeeps Q (readerCommand op body) := by
  intro s t id w w' hat h hw'
  obtain ⟨code, rfl⟩ | hrun := present_writer_next hat h hw'
  · exact hfault w code
  · exact answerIllegal_keeps hfault hat hrun hw'

theorem execWCopy_keeps (n : Nat) (hb : ∀ w r, (copyBits n (w, r)).Post True fun u => Q w u.1) :
    CommandKeeps Q (execWCopy n) := by
  intro s t id w w' hat h hw'
  obtain ⟨code, rfl⟩ | hrun := present_writer_next hat h hw'
  · exact hfault w code
  · unfold copyFromPair at hrun
    split at hrun
    · exact answerIllegal_keeps hfault hat hrun hw'
    · split at hrun
      · cases hrun
      · next r _ =>
        split at hrun
        · cases hrun
          cases hat.2.symm.trans hw'
          exact hfault w w.fault
        · obtain ⟨resp, u, hu, rfl⟩ := (hb w r).finish_next hrun
          rw [State.writer?_respond, State.writer?_setReader, State.writer?_setWriter, if_pos rfl] at hw'
          exact Option.some.inj hw' ▸ hu

end

/-! ## The commands -/

theorem onward_setFault (w : Writer) (code : BitVec 8) : w.Onward { w with fault := code } := .refl w

theorem execWRewind_keeps_sameFlushed (p : Nat) : CommandKeeps Writer.SameFlushed (execWRewind p) := by
  refine writerCommand_keeps (fun w code => (onward_setFault w code).2) _ fun w => ?_
  split
  · exact .raised _ fun _ _ => rfl
  · exact (rewindTo_sameFlushed w p).bind fun _ _ h => .done _ h

section
variable (op : BitVec 8)

theorem unsigned_keeps_onward (t : TagType) (v : Word) {k : Nat} (hk : 1 ≤ k) (hk2 : k ≤ 32) :
    CommandKeeps Writer.Onward (writerCommand op fun w => w.putUnsigned t v k) :=
  writerCommand_keeps onward_setFault op fun w => putUnsigned_post (pwrite_keeps_onward w) (.refl w) t v hk hk2

theorem signed_keeps_onward (t : TagType) (v : Int) {k : Nat} (hk : 2 ≤ k) (hk2 : k ≤ 32) :
    CommandKeeps Writer.Onward (writerCommand op fun w => w.putSigned t v k) :=
  writerCommand_keeps onward_setFault op fun w => putSigned_post (pwrite_keeps_onward w) (.refl w) t v hk hk2

theorem rejectCount_keeps_onward (n : Nat) :
    CommandKeeps Writer.Onward (writerCommand op fun w => raiseError .widthError (dataCount n) w) :=
  writerCommand_keeps onward_setFault op fun w => .raised _ (.refl w)

end

theorem execWBits_keeps_onward (v : Word) (n : Nat) : CommandKeeps Writer.Onward (execWBits v n) := by
  unfold execWBits
  split
  · exact rejectCount_keeps_onward _ n
  · exact unsigned_keeps_onward _ _ v (by omega) (by omega)

theorem execWSbits_keeps_onward (v : Int) (n : Nat) : CommandKeeps Writer.Onward (execWSbits v n) := by
  unfold execWSbits
  split
  · exact rejectCount_keeps_onward _ n
  · exact signed_keeps_onward _ _ v (by omega) (by omega)

theorem exec_keeps_onward {i : Instr} (hi : ∀ p, i ≠ .wRewind p) : CommandKeeps Writer.Onward (exec i) := by
  cases i with
  | wBits v n => exact execWBits_keeps_onward v n
  | wSbits v n => exact execWSbits_keeps_onward v n
  | wU8 v => exact unsigned_keeps_onward _ .uint8 _ (k := 8) (by omega) (by omega)
  | wU16 v => exact unsigned_keeps_onward _ .uint16 _ (k := 16) (by omega) (by omega)
  | wU32 v => exact unsigned_keeps_onward _ .uint32 _ (k := 32) (by omega) (by omega)
  | wI16 v => exact signed_keeps_onward _ .int16 v (k := 16) (by omega) (by omega)
  | wI32 v => exact signed_keeps_onward _ .int32 v (k := 32) (by omega) (by omega)
  | wU64 v =>
    exact writerCommand_keeps onward_setFault _ fun w => putDouble_post (pwrite_keeps_onward w) (.refl w) v
  | wTell => exact writerCommand_keeps onward_setFault _ fun w => .done _ (.refl w)
  | wRewind p => exact absurd rfl (hi p)
  | wClose =>
    exact writerCommand_keeps onward_setFault _ fun w => (close_onward (.refl w)).bind fun _ _ h => .done _ h
  | wOctets => exact writerCommand_keeps onward_setFault _ fun w => octets_onward (.refl w)
  | wCopy n => exact execWCopy_keeps onward_setFault n fun w _ => copyBits_post (pwrite_keeps_onward w) n (.refl w)
  | _ => exact readerCommand_keeps onward_setFault _ _

/-- Settles O59: off the port by the frame of commands (O55); on it everything but a rewind goes onward, and a rewind
writes before it moves. -/
theorem flushedBytesStay : Obligations.FlushedBytesStay := by
  unfold Obligations.FlushedBytesStay
  intro s t i id w w' h hw hw'
  by_cases hport : s.port = .writer id
  · by_cases hrewind : ∃ p, i = .wRewind p
    · obtain ⟨p, rfl⟩ := hrewind
      exact ⟨execWRewind_keeps_sameFlushed p s t id w w' ⟨hport, hw⟩ h hw', fun hi => absurd rfl (hi p)⟩
    · push Not at hrewind
      obtain ⟨hcursor, hbytes⟩ := exec_keeps_onward hrewind s t id w w' ⟨hport, hw⟩ h hw'
      exact ⟨hbytes, fun _ => hcursor⟩
  · obtain ⟨hwriters, -⟩ := commandsTouchOnlyTheirUnits s t i h
    cases (hw.symm.trans (hwriters id hport).symm).trans hw'
    exact ⟨fun _ _ => rfl, fun _ => le_rfl⟩

end Sys2Proof.Machine
end

section
/-! The decoder and the encoder: a word decodes to a command exactly when it carries the command's OP and operands. The
round trip (O1), the unused bits (O3) and what decodes (O5) are read off that; the rejected words (O4) and the published
words (O2) stand beside it. -/

namespace Sys2Proof.Machine

/-! ## Operands in their fields -/

theorem nOperandOk_wordN (w : CommandWord) : nOperandOk (wordN w) = true := decide_eq_true (BitVec.isLt _)

theorem s32Ok_toInt (x : BitVec 32) : s32Ok x.toInt = true := by
  have hlo := x.le_toInt
  have hhi := x.toInt_lt
  exact decide_eq_true (by omega)

theorem s16Ok_toInt (x : BitVec 16) : s16Ok x.toInt = true := by
  have hlo := x.le_toInt
  have hhi := x.toInt_lt
  exact decide_eq_true (by omega)

theorem toNat_ofNat_of_nOperandOk {n : Nat} (h : nOperandOk n = true) : (BitVec.ofNat 32 n).toNat = n := by
  rw [BitVec.toNat_ofNat]
  exact Nat.mod_eq_of_lt (of_decide_eq_true h)

theorem toInt_ofInt_of_s32Ok {v : Int} (h : s32Ok v = true) : (BitVec.ofInt 32 v).toInt = v := by
  have hv : -2147483648 ≤ v ∧ v ≤ 2147483647 := of_decide_eq_true h
  exact BitVec.toInt_ofInt_eq_self (by decide) (by omega) (by omega)

theorem toInt_ofInt_of_s16Ok {v : Int} (h : s16Ok v = true) : (BitVec.ofInt 16 v).toInt = v := by
  have hv : -32768 ≤ v ∧ v ≤ 32767 := of_decide_eq_true h
  exact BitVec.toInt_ofInt_eq_self (by decide) (by omega) (by omega)

/-- The low bits of a signed operand's V are its two's-complement form at that width. -/
theorem setWidth_ofInt (v : Int) {k : Nat} (hk : k ≤ 64) : (BitVec.ofInt 64 v).setWidth k = BitVec.ofInt k v := by
  have hdvd : ((2 ^ k : Nat) : Int) ∣ ((2 ^ 64 : Nat) : Int) := Int.natCast_dvd_natCast.mpr (pow_dvd_pow 2 hk)
  apply BitVec.eq_of_toInt_eq
  rw [BitVec.toInt_setWidth, BitVec.toNat_ofInt, BitVec.toInt_ofInt, Int.toNat_of_nonneg (by omega),
    ← Int.emod_bmod (v % _), Int.emod_emod_of_dvd v hdvd, Int.emod_bmod]

/-- The low bits of an unsigned operand's V are the operand. -/
theorem setWidth_setWidth_self {k : Nat} (v : BitVec k) (hk : k ≤ 64) : (v.setWidth 64).setWidth k = v := by
  rw [BitVec.setWidth_setWidth_of_le v hk, BitVec.setWidth_eq]

/-! ## The words that decode to a command -/

/-- A word carries a command: its operands are in range, and OP and the bits of N and V that the command uses are the
command's (30_encoding.md R61 to R65). -/
structure Carries (w : CommandWord) (i : Instr) : Prop where
  wellFormed : i.wellFormed = true
  op : wordOp w = i.op
  count : usesN i = true → wordN w = i.nField.toNat
  value : (wordV w).setWidth (usedV i) = i.vField.setWidth (usedV i)

section
variable {w : CommandWord} {n : Nat} {v : Int}

theorem wordN_eq_of_count (hn : wordN w = (BitVec.ofNat 32 n).toNat) (h : nOperandOk n = true) :
    wordN w = n := hn.trans (toNat_ofNat_of_nOperandOk h)

theorem toInt_eq_of_s32 (hv : (wordV w).setWidth 32 = (BitVec.ofInt 64 v).setWidth 32) (h : s32Ok v = true) :
    ((wordV w).setWidth 32).toInt = v := by
  rw [hv, setWidth_ofInt v (by omega), toInt_ofInt_of_s32Ok h]

theorem toInt_eq_of_s16 (hv : (wordV w).setWidth 16 = (BitVec.ofInt 64 v).setWidth 16) (h : s16Ok v = true) :
    ((wordV w).setWidth 16).toInt = v := by
  rw [hv, setWidth_ofInt v (by omega), toInt_ofInt_of_s16Ok h]

end

theorem usedV_le (i : Instr) : usedV i ≤ 64 := by cases i <;> simp [usedV]

/-- The decoder gives the command a word carries: one arm for each OP. -/
theorem decode_of_carries {w : CommandWord} {i : Instr} (h : Carries w i) : decode w = .command i := by
  obtain ⟨hwf, hop, hn, hv⟩ := h
  unfold decode
  rw [hop]
  cases i with
  | wBits v n =>
    obtain rfl := wordN_eq_of_count (hn rfl) hwf
    exact congrArg (Decoded.command <| .wBits · _) (hv.trans (setWidth_setWidth_self v (by decide)))
  | wSbits v n =>
    obtain ⟨hwv, hwn⟩ := Bool.and_eq_true_iff.mp hwf
    obtain rfl := wordN_eq_of_count (hn rfl) hwn
    exact congrArg (Decoded.command <| .wSbits · _) (toInt_eq_of_s32 hv hwv)
  | wU8 v => exact congrArg (Decoded.command <| .wU8 ·) (hv.trans (setWidth_setWidth_self v (by decide)))
  | wU16 v => exact congrArg (Decoded.command <| .wU16 ·) (hv.trans (setWidth_setWidth_self v (by decide)))
  | wU32 v => exact congrArg (Decoded.command <| .wU32 ·) (hv.trans (setWidth_setWidth_self v (by decide)))
  | wI16 v => exact congrArg (Decoded.command <| .wI16 ·) (toInt_eq_of_s16 hv hwf)
  | wI32 v => exact congrArg (Decoded.command <| .wI32 ·) (toInt_eq_of_s32 hv hwf)
  | wU64 v =>
    have hv64 : wordV w = v := by simpa only [usedV, Instr.vField, BitVec.setWidth_eq] using hv
    exact congrArg (Decoded.command <| .wU64 ·) hv64
  | wRewind p => exact congrArg (Decoded.command <| .wRewind ·) (wordN_eq_of_count (hn rfl) hwf)
  | wCopy n => exact congrArg (Decoded.command <| .wCopy ·) (wordN_eq_of_count (hn rfl) hwf)
  | rBits n => exact congrArg (Decoded.command <| .rBits ·) (wordN_eq_of_count (hn rfl) hwf)
  | rSbits n => exact congrArg (Decoded.command <| .rSbits ·) (wordN_eq_of_count (hn rfl) hwf)
  | wTell | wClose | wOctets | rU8 | rU16 | rU32 | rI16 | rI32 | rU64 | rTell => rfl

/-- An N field read as a number stands in its field again. -/
theorem wordN_eq_toNat_ofNat (w : CommandWord) : wordN w = (BitVec.ofNat 32 (wordN w)).toNat :=
  (toNat_ofNat_of_nOperandOk (nOperandOk_wordN w)).symm

/-- Bits of V read as a signed number stand in V again. -/
theorem eq_setWidth_ofInt_toInt {k : Nat} (x : BitVec k) (hk : k ≤ 64) :
    x = (BitVec.ofInt 64 x.toInt).setWidth k := by
  rw [setWidth_ofInt _ hk, BitVec.ofInt_toInt]

/-- What an arm of the decoder gives, the word carries. -/
theorem carries_of_decode {w : CommandWord} {i : Instr} (h : decode w = .command i) : Carries w i := by
  have hn := wordN_eq_toNat_ofNat w
  have hok := nOperandOk_wordN w
  unfold decode at h
  split at h <;> cases h
  case h_1 hop =>
    exact ⟨hok, BitVec.eq_of_toNat_eq hop, fun _ => hn, (setWidth_setWidth_self _ (usedV_le _)).symm⟩
  case h_2 hop =>
    exact ⟨Bool.and_eq_true_iff.mpr ⟨s32Ok_toInt _, hok⟩, BitVec.eq_of_toNat_eq hop, fun _ => hn,
      eq_setWidth_ofInt_toInt _ (usedV_le _)⟩
  case h_3 hop | h_4 hop | h_5 hop =>
    exact ⟨rfl, BitVec.eq_of_toNat_eq hop, nofun, (setWidth_setWidth_self _ (usedV_le _)).symm⟩
  case h_6 hop => exact ⟨s16Ok_toInt _, BitVec.eq_of_toNat_eq hop, nofun, eq_setWidth_ofInt_toInt _ (usedV_le _)⟩
  case h_7 hop => exact ⟨s32Ok_toInt _, BitVec.eq_of_toNat_eq hop, nofun, eq_setWidth_ofInt_toInt _ (usedV_le _)⟩
  case h_8 hop => exact ⟨rfl, BitVec.eq_of_toNat_eq hop, nofun, rfl⟩
  case h_10 hop | h_13 hop | h_14 hop | h_15 hop =>
    exact ⟨hok, BitVec.eq_of_toNat_eq hop, fun _ => hn, Subsingleton.elim (α := BitVec 0) _ _⟩
  all_goals
    next hop => exact ⟨rfl, BitVec.eq_of_toNat_eq hop, nofun, Subsingleton.elim (α := BitVec 0) _ _⟩

theorem decode_eq_command_iff {w : CommandWord} {i : Instr} : decode w = .command i ↔ Carries w i :=
  ⟨carries_of_decode, decode_of_carries⟩

/-- Settles O1: the word of a command has the command's fields. -/
theorem decodeEncodeRoundTrip : Obligations.DecodeEncodeRoundTrip := by
  unfold Obligations.DecodeEncodeRoundTrip
  intro i hwf
  obtain ⟨hop, hn, hv⟩ := Laws.EncodedFields.of_encode i
  exact decode_eq_command_iff.mpr ⟨hwf, hop, fun _ => hn, by rw [hv]⟩

/-- Settles O3: words with the same OP and the same used bits carry the same commands. -/
theorem unusedFieldBitsAreIgnored : Obligations.UnusedFieldBitsAreIgnored := by
  unfold Obligations.UnusedFieldBitsAreIgnored
  intro w w' i h hop hn hv
  obtain ⟨hwf, hop0, hn0, hv0⟩ := decode_eq_command_iff.mp h
  exact decode_eq_command_iff.mpr ⟨hwf, hop.trans hop0, fun hu => (hn hu).trans (hn0 hu), hv.trans hv0⟩

/-- Settles O5: what decodes is carried by its word. -/
theorem decodedCommandsAreWellFormed : Obligations.DecodedCommandsAreWellFormed := by
  unfold Obligations.DecodedCommandsAreWellFormed
  intro w i h
  obtain ⟨hwf, hop, -, -⟩ := decode_eq_command_iff.mp h
  exact ⟨hwf, hop.symm⟩

/-! ## The words that are rejected -/

theorem eq_wordOp_of_illegal {w : CommandWord} {op : BitVec 8} (h : decode w = .illegal op) : op = wordOp w := by
  unfold decode at h
  split at h <;> cases h
  rfl

/-- Settles O4: every legal OP has its arm of the decoder, and only the last arm rejects. -/
theorem illegalOpcodesAreRejected : Obligations.IllegalOpcodesAreRejected := by
  unfold Obligations.IllegalOpcodesAreRejected
  intro w
  unfold decode
  split
  case h_23 =>
    refine iff_of_true rfl ?_
    simp only [imp_false] at *
    omega
  all_goals exact iff_of_false nofun (by omega)

/-- Settles O2, by running the decoder on each word. -/
theorem publishedWordsDecode : Obligations.PublishedWordsDecode := by
  unfold Obligations.PublishedWordsDecode
  decide

end Sys2Proof.Machine
end

section
/-! The assembler line of a command (O6), the status codes (O7) and the payload fields (O8). -/

namespace Sys2Proof.Machine

/-! ## Operands of a line -/

theorem asmN_natCast {n : Nat} (h : nOperandOk n = true) : asmN (n : Int) = some (BitVec.ofNat 32 n) := by
  have hn : n < 2 ^ 32 := of_decide_eq_true h
  rw [asmN, if_pos (by omega), BitVec.ofInt_natCast]

theorem asmV_toNat {k : Nat} (v : BitVec k) (hk : k ≤ 64) : asmV (v.toNat : Int) = some (v.setWidth 64) := by
  have hv : v.toNat < 2 ^ 64 := v.isLt.trans_le (Nat.pow_le_pow_right (by decide) hk)
  rw [asmV, if_pos (by omega), BitVec.ofInt_natCast, BitVec.ofNat_toNat]

theorem asmV_of_s32Ok {v : Int} (h : s32Ok v = true) : asmV v = some (BitVec.ofInt 64 v) := by
  have hv : -2147483648 ≤ v ∧ v ≤ 2147483647 := of_decide_eq_true h
  exact if_pos (by omega)

theorem asmV_of_s16Ok {v : Int} (h : s16Ok v = true) : asmV v = some (BitVec.ofInt 64 v) := by
  have hv : -32768 ≤ v ∧ v ≤ 32767 := of_decide_eq_true h
  exact if_pos (by omega)

/-! ## Lines by the operands they list -/

section
variable {l : AsmLine} {op : BitVec 8} {v n : Int} {v' : BitVec 64} {n' : BitVec 32}

theorem assemble_valueCount (hrow : asmRow l.mnemonic asmTable = some (op, .valueCount)) (hops : l.operands = [v, n])
    (hv : asmV v = some v') (hn : asmN n = some n') : assemble l = some (commandWord op n' v') := by
  simp only [assemble, hrow, hops, asmWord, hv, hn]

theorem assemble_value (hrow : asmRow l.mnemonic asmTable = some (op, .value)) (hops : l.operands = [v])
    (hv : asmV v = some v') : assemble l = some (commandWord op 0#32 v') := by
  simp only [assemble, hrow, hops, asmWord, hv, Option.map_some]

theorem assemble_count (hrow : asmRow l.mnemonic asmTable = some (op, .count)) (hops : l.operands = [n])
    (hn : asmN n = some n') : assemble l = some (commandWord op n' 0#64) := by
  simp only [assemble, hrow, hops, asmWord, hn, Option.map_some]

theorem assemble_bare (hrow : asmRow l.mnemonic asmTable = some (op, .bare)) (hops : l.operands = []) :
    assemble l = some (commandWord op 0#32 0#64) := by
  simp only [assemble, hrow, hops, asmWord]

end

/-- Settles O6, by the operands each command's line lists. -/
theorem assembledLinesEncode : Obligations.AssembledLinesEncode := by
  unfold Obligations.AssembledLinesEncode
  intro i hwf
  cases i with
  | wBits v n => exact assemble_valueCount rfl rfl (asmV_toNat v (by decide)) (asmN_natCast hwf)
  | wSbits v n =>
    obtain ⟨hv, hn⟩ := Bool.and_eq_true_iff.mp hwf
    exact assemble_valueCount rfl rfl (asmV_of_s32Ok hv) (asmN_natCast hn)
  | wU8 v => exact assemble_value rfl rfl (asmV_toNat v (by decide))
  | wU16 v => exact assemble_value rfl rfl (asmV_toNat v (by decide))
  | wU32 v => exact assemble_value rfl rfl (asmV_toNat v (by decide))
  | wI16 v => exact assemble_value rfl rfl (asmV_of_s16Ok hwf)
  | wI32 v => exact assemble_value rfl rfl (asmV_of_s32Ok hwf)
  | wU64 v => exact assemble_value rfl rfl ((asmV_toNat v (by decide)).trans (congrArg some (BitVec.setWidth_eq v)))
  | wRewind p => exact assemble_count rfl rfl (asmN_natCast hwf)
  | wCopy n => exact assemble_count rfl rfl (asmN_natCast hwf)
  | rBits n => exact assemble_count rfl rfl (asmN_natCast hwf)
  | rSbits n => exact assemble_count rfl rfl (asmN_natCast hwf)
  | wTell | wClose | wOctets | rU8 | rU16 | rU32 | rI16 | rI32 | rU64 | rTell => exact assemble_bare rfl rfl

/-! ## Responses -/

/-- Settles O7, code by code. -/
theorem statusCodesAreAsListed : Obligations.StatusCodesAreAsListed := by
  unfold Obligations.StatusCodesAreAsListed
  refine ⟨rfl, rfl, rfl, rfl, rfl, rfl, rfl, rfl, rfl, rfl, fun st => ?_⟩
  cases st <;> decide

theorem toNat_dataCount {n : Nat} (h : n < 2 ^ 32) : (dataCount n).toNat = n := by
  exact (BitVec.toNat_append _ _).trans (by simpa using h)

/-- A slice above the lower part of two is a slice of the upper part. -/
theorem extractLsb'_append_skip {j k start len : Nat} (hi : BitVec j) (lo : BitVec k) :
    (hi ++ lo).extractLsb' (start + k) len = hi.extractLsb' start len := by
  rw [BitVec.extractLsb'_append_eq_of_le (by omega), Nat.add_sub_cancel]

/-- Settles O8: each field is the lowest part of DATA once the fields below it are skipped. -/
theorem payloadFieldsStandAsListed : Obligations.PayloadFieldsStandAsListed := by
  unfold Obligations.PayloadFieldsStandAsListed
  refine ⟨fun hi lo => ⟨BitVec.extractLsb'_append_eq_left, BitVec.extractLsb'_append_eq_right⟩,
    fun n h => toNat_dataCount h, fun b => BitVec.toNat_setWidth_of_le (by decide), fun ot ow et ew => ?_⟩
  unfold dataTags
  refine ⟨?_, ?_, ?_, ?_, ?_, ?_, ?_, ?upperZeros⟩
  all_goals repeat' refine (extractLsb'_append_skip _ _).trans ?_
  case upperZeros => rfl
  all_goals exact BitVec.extractLsb'_append_eq_right

end Sys2Proof.Machine
end

section
/-! Every command word to a constructed unit is answered in one step (O53): nothing but a missing unit is refused, and a
sound system has every unit a command needs. -/

namespace Sys2Proof.Machine

/-! ## No refusal -/

/-- The unit of the state's port is constructed. -/
abbrev State.PortConstructed (s : State) : Prop :=
  (∀ id, s.port = .writer id → (s.writer? id).isSome = true) ∧
    ∀ id, s.port = .reader id → (s.reader? id).isSome = true

section
variable {s t : State} {why : Refusal}

/-- A constructed unit's prologue refuses nothing: a command is refused only where what stands behind it is. -/
theorem present_ne_refused (hs : s.PortConstructed) (op : BitVec 8)
    {fw : Nat → Writer → Host.Outcome State Fault Refusal} {fr : Nat → Reader → Host.Outcome State Fault Refusal}
    (hfw : ∀ id w, s.AtWriter id w → fw id w ≠ .refused why)
    (hfr : ∀ id r, s.AtReader id r → fr id r ≠ .refused why) : present op s fw fr ≠ .refused why := by
  cases hport : s.port with
  | writer id =>
    obtain ⟨w, hw⟩ := Option.isSome_iff_exists.mp (hs.1 id hport)
    rw [present_writer op s id w ⟨hport, hw⟩]
    split
    · exact nofun
    · exact hfw id w ⟨hport, hw⟩
  | reader id =>
    obtain ⟨r, hr⟩ := Option.isSome_iff_exists.mp (hs.2 id hport)
    rw [present_reader op s id r ⟨hport, hr⟩]
    split
    · exact nofun
    · exact hfr id r ⟨hport, hr⟩

theorem finish_ne_refused {σ : Type} (commit : σ → State) (p : Prim σ Response) :
    finish commit p ≠ .refused why := by
  cases p <;> exact nofun

theorem answerIllegal_ne_refused (op : BitVec 8) : answerIllegal op s ≠ .refused why := nofun

theorem UnitMeaning.ne_refused {m : State → Host.Outcome State Fault Refusal} (hm : UnitMeaning m)
    (hs : s.PortConstructed) : m s ≠ .refused why := by
  cases hm with
  | writer op _ =>
    exact present_ne_refused hs op (fun _ _ _ => finish_ne_refused _ _) fun _ _ _ => answerIllegal_ne_refused op
  | reader op _ =>
    exact present_ne_refused hs op (fun _ _ _ => answerIllegal_ne_refused op) fun _ _ _ => finish_ne_refused _ _
  | illegal op =>
    exact present_ne_refused hs op (fun _ _ _ => answerIllegal_ne_refused op) fun _ _ _ => answerIllegal_ne_refused op

/-- A sound system has the reader of every paired writer, so W_COPY is not refused (70_reset_and_hazards.md R167). -/
theorem copyFromPair_ne_refused (h : s.Ok) (n id : Nat) {w : Writer} (hw : s.writer? id = some w) :
    copyFromPair n id w s ≠ .refused why := by
  unfold copyFromPair
  split
  · exact answerIllegal_ne_refused _
  · next rid hp =>
    have hpair := State.Ok.pair h hw
    rw [hp] at hpair
    obtain ⟨r, hr⟩ := Option.isSome_iff_exists.mp hpair
    rw [hr]
    dsimp only
    split
    · exact nofun
    · exact finish_ne_refused _ _

theorem runWord_ne_refused (h : s.Ok) (hs : s.PortConstructed) (word : CommandWord) :
    runWord word s ≠ .refused why := by
  obtain hm | ⟨n, e⟩ := runWord_unitMeaning word
  · exact hm.ne_refused hs
  · rw [e]
    exact present_ne_refused hs _ (fun id _ hat => copyFromPair_ne_refused h n id hat.2) fun _ _ _ =>
      answerIllegal_ne_refused _

/-! ## One response -/

/-- The state is another with one response on its port, the rest of what the host sees and will do as before. -/
def State.RespondsOnce (s t : State) : Prop :=
  ∃ (u : State) (resp : Response),
    t = u.respond resp ∧ u.port = s.port ∧ u.input = s.input ∧ u.transcript = s.transcript

theorem UnitEffect.respondsOnce (h : UnitEffect s t) : s.RespondsOnce t := by
  cases h with
  | none resp => exact ⟨s, resp, rfl, rfl, rfl, rfl⟩
  | writer resp _ _ => exact ⟨_, resp, rfl, rfl, rfl, rfl⟩
  | reader resp _ _ => exact ⟨_, resp, rfl, rfl, rfl, rfl⟩

theorem PairEffect.respondsOnce {n : Nat} (h : PairEffect s n t) : s.RespondsOnce t := by
  cases h with
  | copied _ _ _ _ _ _ => exact ⟨_, _, rfl, rfl, rfl, rfl⟩

theorem runWord_respondsOnce {word : CommandWord} (h : runWord word s = .next t) : s.RespondsOnce t := by
  obtain he | ⟨_, he⟩ := runWord_effect h
  · exact he.respondsOnce
  · exact he.respondsOnce

/-- The observation of a port is read from the transcript. -/
theorem observation_congr (h : t.transcript = s.transcript) (q : Port) : t.observation q = s.observation q := by
  rw [State.observation, State.observation, h]

end

/-- Settles O53: a sound step neither faults nor is refused, and what is left is one response. -/
theorem everyCommandIsAnswered : Obligations.EveryCommandIsAnswered := by
  unfold Obligations.EveryCommandIsAnswered
  intro s p word rest h hin hw hr
  cases hstep : step s with
  | fault f => exact absurd hstep (soundStepsNeverFault s f h)
  | refused why =>
    rw [step_command hin] at hstep
    exact absurd hstep (runWord_ne_refused (s := s.take p rest) h ⟨hw, hr⟩ word)
  | next t =>
    rw [step_command hin] at hstep
    obtain ⟨u, resp, rfl, hport, hinput, htr⟩ := runWord_respondsOnce hstep
    rw [State.take_port] at hport
    subst hport
    refine ⟨_, resp, rfl, congrArg _ htr, hinput, ?_, fun q hq => ?_, rfl⟩
    · rw [observation_respond, observation_congr htr]
      rfl
    · rw [observation_respond_other u resp q hq.symm, observation_congr htr]
      rfl

end Sys2Proof.Machine
end

section
/-! Steps and illegal commands: a step runs the decoded command (O9); a word whose OP names no command (O10), the other
unit's commands and an unpaired W_COPY (O11) end in the prologue and change nothing. -/

namespace Sys2Proof.Machine

/-! ## Prologues that reject -/

/-- What a unit with this FAULT register answers to an OP that is none of its commands (60_exceptions.md R143, R144,
R150). -/
def rejection (fault op : BitVec 8) : Response := if fault = 0#8 then illegalResponse op else faultedResponse fault

section
variable {s : State} {id : Nat} {w : Writer} {r : Reader} {op : BitVec 8}
  {fw : Nat → Writer → Host.Outcome State Fault Refusal} {fr : Nat → Reader → Host.Outcome State Fault Refusal}

theorem Writer.prologue_rejects (h : isWriterOp op = false ∨ (op = 0x0D#8 ∧ w.pair = none)) :
    w.prologue op = .ended (rejection w.fault op) w := by
  by_cases hf : w.fault = 0#8
  · obtain hop | ⟨rfl, hp⟩ := h
    · simp [Writer.prologue, rejection, hf, hop]
    · simp [Writer.prologue, rejection, hf, hp]
  · simp [Writer.prologue, rejection, hf]

theorem Reader.prologue_rejects (h : isReaderOp op = false) : r.prologue op = .ended (rejection r.fault op) r := by
  by_cases hf : r.fault = 0#8
  · simp [Reader.prologue, rejection, hf, h]
  · simp [Reader.prologue, rejection, hf]

theorem present_writer_rejects (hs : s.Ok) (hat : s.AtWriter id w)
    (h : isWriterOp op = false ∨ (op = 0x0D#8 ∧ w.pair = none)) :
    present op s fw fr = .next (s.respond (rejection w.fault op)) := by
  rw [present_writer op s id w hat, Writer.prologue_rejects h]
  dsimp only
  rw [setWriter_self s id w hs.1 hat.2]

theorem present_reader_rejects (hs : s.Ok) (hat : s.AtReader id r) (h : isReaderOp op = false) :
    present op s fw fr = .next (s.respond (rejection r.fault op)) := by
  rw [present_reader op s id r hat, Reader.prologue_rejects h]
  dsimp only
  rw [setReader_self s id r hs.2.1 hat.2]

end

/-! ## Commands and words as presented OPs -/

/-- Every command is presented under its OP. -/
theorem exec_eq_present (i : Instr) (s : State) : ∃ fw fr, exec i s = present i.op s fw fr := by
  cases i <;> exact ⟨_, _, rfl⟩

theorem isWriterOp_op (i : Instr) : isWriterOp i.op = i.isWriterCommand := by cases i <;> rfl

theorem isReaderOp_op (i : Instr) : isReaderOp i.op = !i.isWriterCommand := by cases i <;> rfl

/-- A rejected OP belongs to neither unit. -/
theorem illegal_op_of_decode {word : CommandWord} {op : BitVec 8} (h : decode word = .illegal op) :
    isWriterOp op = false ∧ isReaderOp op = false := by
  obtain rfl := eq_wordOp_of_illegal h
  have hrange := (illegalOpcodesAreRejected word).mp h
  exact ⟨decide_eq_false (by omega), decide_eq_false (by omega)⟩

section
variable {s : State} {p : Port} {word : CommandWord} {rest : List HostAction}

theorem step_decoded {i : Instr} (hin : s.input = .command p word :: rest) (hd : decode word = .command i) :
    step s = exec i (s.take p rest) := by
  rw [step_command hin]
  simp only [runWord, hd]

theorem step_illegal {op : BitVec 8} (hin : s.input = .command p word :: rest) (hd : decode word = .illegal op) :
    step s = illegalCommand op (s.take p rest) := by
  rw [step_command hin]
  simp only [runWord, hd]

end

/-- Settles O9. -/
theorem stepRunsDecodedCommand : Obligations.StepRunsDecodedCommand := by
  unfold Obligations.StepRunsDecodedCommand
  intro s p word rest i hin hd _
  exact step_decoded hin hd

/-- Settles O10: the prologue of either unit rejects an OP that is neither's. -/
theorem illegalWordsAreAnswered : Obligations.IllegalWordsAreAnswered := by
  unfold Obligations.IllegalWordsAreAnswered
  intro s p word rest op hs hin hd
  obtain ⟨hwriter, hreader⟩ := illegal_op_of_decode hd
  rw [step_illegal hin hd]
  refine ⟨?_, ?_⟩
  · rintro id u rfl hu
    exact present_writer_rejects (s := s.take _ rest) hs ⟨rfl, hu⟩ (.inl hwriter)
  · rintro id u rfl hu
    exact present_reader_rejects (s := s.take _ rest) hs ⟨rfl, hu⟩ hreader

/-- Settles O11: an unfaulted unit's prologue rejects what is not its command, before it looks at CLOSED. -/
theorem foreignCommandsAreIllegal : Obligations.ForeignCommandsAreIllegal := by
  unfold Obligations.ForeignCommandsAreIllegal
  intro s i hs
  obtain ⟨fw, fr, e⟩ := exec_eq_present i s
  refine ⟨fun id w hat hf hi => ?_, fun id r hat hf hi => ?_, fun id w n hat hf hp => ?_⟩
  · rw [e, present_writer_rejects hs hat (.inl ((isWriterOp_op i).trans hi)), rejection, if_pos hf]
    rfl
  · rw [e, present_reader_rejects hs hat ((isReaderOp_op i).trans (by rw [hi]; rfl)), rejection, if_pos hf]
    rfl
  · refine (present_writer_rejects hs hat (.inr ⟨rfl, hp⟩)).trans ?_
    rw [rejection, if_pos hf]
    rfl

end Sys2Proof.Machine
end

section
/-! Composites in plain mode (O42, O43): with no tag to write or to check, a composite has its primitive command's body
behind the same prologue; a 64-bit one is two of them in a row, the second of which a fault of the first ends. -/

namespace Sys2Proof.Machine

/-! ## Writer commands as runs of one writer -/

/-- A command behind its prologue, on one writer. -/
def Writer.run (op : BitVec 8) (body : Writer → Prim Writer Response) (w : Writer) : Prim Writer Response :=
  match w.prologue op with
  | .ended resp w' => .raised resp w'
  | .pass => body w

/-- An OP that a closed writer takes for a use after close, and that asks for no pair: the field commands and W_REWIND,
W_CLOSE (40_writer.md R76). -/
abbrev needsOpen (op : BitVec 8) : Prop := isWriterOp op = true ∧ op ≠ 0x0D#8 ∧ runsAfterClose op = false

section
variable {s : State} {id : Nat} {w w' : Writer} {op : BitVec 8} {body body' : Writer → Prim Writer Response}

theorem writerCommand_eq_finish (hat : s.AtWriter id w) :
    writerCommand op body s = finish (s.setWriter id) (w.run op body) := by
  rw [writerCommand, present_writer op s id w hat, Writer.run]
  cases w.prologue op <;> rfl

/-- The next state of a command, by how its run on the port's writer ends. -/
theorem writerCommand_endsIn (hat : s.AtWriter id w) {resp : Response} (he : (w.run op body).EndsIn resp w') :
    writerCommand op body s = .next (s.withWriter id w' resp) := by
  rw [writerCommand_eq_finish hat]
  obtain e | e := he <;> rw [e] <;> rfl

theorem State.AtWriter.withWriter (hat : s.AtWriter id w) (w' : Writer) (resp : Response) :
    (s.withWriter id w' resp).AtWriter id w' := ⟨hat.1, tableGet_put_same _ _ _⟩

theorem Writer.run_faulted (hf : w.fault ≠ 0#8) : w.run op body = .raised (faultedResponse w.fault) w := by
  simp only [Writer.run, Writer.prologue, if_pos hf]

theorem Writer.run_closed (hop : needsOpen op) (hf : w.fault = 0#8) (hc : w.closed = true) :
    w.run op body = .raised (errorResponse .faultUseAfterClose 0#64) { w with fault := 0x82#8 } := by
  obtain ⟨hwriter, h13, hrun⟩ := hop
  simp [Writer.run, Writer.prologue, hf, hwriter, h13, hc, hrun, statusCode]

theorem Writer.run_open (hop : needsOpen op) (hf : w.fault = 0#8) (hc : w.closed = false) : w.run op body = body w := by
  obtain ⟨hwriter, h13, -⟩ := hop
  rw [Writer.run, writer_prologue_pass w op hf hwriter (fun h => absurd h h13) (by simp [hc])]

/-- Commands that need an open writer differ in their bodies only. -/
theorem writerCommand_congr {op' : BitVec 8} (hat : s.AtWriter id w) (hop : needsOpen op) (hop' : needsOpen op')
    (hbody : body w = body' w) : writerCommand op body s = writerCommand op' body' s := by
  rw [writerCommand_eq_finish hat, writerCommand_eq_finish hat]
  by_cases hf : w.fault = 0#8
  · cases hc : w.closed with
    | true => rw [Writer.run_closed hop hf hc, Writer.run_closed hop' hf hc]
    | false => rw [Writer.run_open hop hf hc, Writer.run_open hop' hf hc, hbody]
  · rw [Writer.run_faulted hf, Writer.run_faulted hf]

end

/-! ## Plain writers -/

section
variable {s : State} {id : Nat} {w w' : Writer}

theorem tag_plain (hd : w.debug = false) (t : TagType) (n : Nat) : w.tag t n = .done () w := by simp [Writer.tag, hd]

theorem putUnsigned_plain (hd : w.debug = false) (t : TagType) (v : Word) (k : Nat) :
    w.putUnsigned t v k = primBind (w.pwrite v k) fun _ w1 => .done (okResponse 0#64) w1 := by
  rw [Writer.putUnsigned, tag_plain hd]; rfl

theorem putSigned_plain (hd : w.debug = false) (t : TagType) (v : Int) (k : Nat) :
    w.putSigned t v k = primBind (w.pwrite (sencSign v) 1) fun _ w1 =>
      primBind (w1.pwrite (sencMagnitude v k) (k - 1)) fun _ w2 => .done (okResponse 0#64) w2 := by
  rw [Writer.putSigned, tag_plain hd]; rfl

theorem putDouble_plain (hd : w.debug = false) (v : BitVec 64) :
    w.putDouble v = primBind (w.pwrite (v.extractLsb' 32 32) 32) fun _ w1 =>
      primBind (w1.pwrite (v.extractLsb' 0 32) 32) fun _ w2 => .done (okResponse 0#64) w2 := by
  rw [Writer.putDouble, tag_plain hd]; rfl

theorem execWBits_legal {v : Word} {n : Nat} (h1 : 1 ≤ n) (h2 : n ≤ 32) :
    execWBits v n s = writerCommand 0x01#8 (fun w => w.putUnsigned .unsigned v n) s := by
  simp only [execWBits, if_neg (show ¬ (n < 1 ∨ 32 < n) by omega)]

theorem execWSbits_legal {v : Int} {n : Nat} (h1 : 2 ≤ n) (h2 : n ≤ 32) :
    execWSbits v n s = writerCommand 0x02#8 (fun w => w.putSigned .signed v n) s := by
  simp only [execWSbits, if_neg (show ¬ (n < 2 ∨ 32 < n) by omega)]

theorem unsigned_eq_execWBits (hat : s.AtWriter id w) (hd : w.debug = false) {op : BitVec 8} (hop : needsOpen op)
    (t : TagType) (v : Word) {k : Nat} (h1 : 1 ≤ k) (h2 : k ≤ 32) :
    writerCommand op (fun w => w.putUnsigned t v k) s = execWBits v k s := by
  rw [execWBits_legal h1 h2]
  exact writerCommand_congr hat hop (by decide) ((putUnsigned_plain hd t v k).trans (putUnsigned_plain hd _ v k).symm)

theorem signed_eq_execWSbits (hat : s.AtWriter id w) (hd : w.debug = false) {op : BitVec 8} (hop : needsOpen op)
    (t : TagType) (v : Int) {k : Nat} (h1 : 2 ≤ k) (h2 : k ≤ 32) :
    writerCommand op (fun w => w.putSigned t v k) s = execWSbits v k s := by
  rw [execWSbits_legal h1 h2]
  exact writerCommand_congr hat hop (by decide) ((putSigned_plain hd t v k).trans (putSigned_plain hd _ v k).symm)

/-- A primitive write on a sound writer commits its field and keeps the status, or takes the capacity fault. -/
theorem pwrite_done_or_overflow (h : w.Ok) (v : Word) {k : Nat} (hk : 1 ≤ k) (hk2 : k ≤ 32) :
    (∃ w1, w.pwrite v k = .done () w1 ∧ w1.Ok ∧ w.SameConfig w1) ∨
      ∃ resp, w.pwrite v k = .raised resp { w with fault := 0x81#8 } := by
  by_cases hroom : w.tell + k ≤ 8 * w.cap
  · obtain ⟨w1, e, -, -, -, -, hok, hconf, -⟩ := pwrite_spec w v k h hk hk2 hroom
    exact .inl ⟨w1, e, hok, hconf⟩
  · exact .inr ⟨_, pwrite_overflow w v k (by omega)⟩

/-- A command body that does not stop the model ends with a response. -/
theorem Prim.Post.endsIn {σ : Type} {p : Prim σ Response} {Q : σ → Prop} (h : p.Post False Q) :
    ∃ resp u, p.EndsIn resp u := by
  cases h with
  | done resp _ => exact ⟨resp, _, .inl rfl⟩
  | raised resp _ => exact ⟨resp, _, .inr rfl⟩
  | stopped _ h => exact h.elim

/-- On a plain writer W_U64 ends with the writer that the W_BITS of its upper and then of its lower word end with,
whatever the state it finds. -/
theorem double_run_eq_two_runs (h : w.Ok) (hd : w.debug = false) (v : BitVec 64) :
    ∃ w1 w2 r1 r2 r3,
      (w.run 0x01#8 fun w => w.putUnsigned .unsigned (v.extractLsb' 32 32) 32).EndsIn r1 w1 ∧
      (w1.run 0x01#8 fun w => w.putUnsigned .unsigned (v.extractLsb' 0 32) 32).EndsIn r2 w2 ∧
      (w.run 0x08#8 fun w => w.putDouble v).EndsIn r3 w2 := by
  by_cases hf : w.fault = 0#8
  · cases hc : w.closed with
    | true =>
      rw [Writer.run_closed (by decide) hf hc, Writer.run_closed (by decide) hf hc]
      exact ⟨_, _, _, _, _, .inr rfl, .inr (Writer.run_faulted (by simp)), .inr rfl⟩
    | false =>
      rw [Writer.run_open (by decide) hf hc, Writer.run_open (by decide) hf hc, putUnsigned_plain hd,
        putDouble_plain hd]
      obtain ⟨w1, e1, hok1, -, hd1, -, hc1, hf1⟩ | ⟨resp, e1⟩ :=
        pwrite_done_or_overflow h (v.extractLsb' 32 32) (k := 32) (by decide) (by decide)
      · rw [e1]
        obtain ⟨r2, w2, he⟩ := (putUnsigned_post pwrite_keeps_ok hok1 .unsigned (v.extractLsb' 0 32) (k := 32)
          (by decide) (by decide)).endsIn
        refine ⟨w1, w2, _, r2, r2, .inl rfl, ?_, ?_⟩
        · rw [Writer.run_open (by decide) (hf1.trans hf) (hc1.trans hc)]
          exact he
        · rw [putUnsigned_plain (hd1.trans hd)] at he
          exact he
      · rw [e1]
        exact ⟨_, _, _, _, _, .inr rfl, .inr (Writer.run_faulted (by simp)), .inr rfl⟩
  · rw [Writer.run_faulted hf, Writer.run_faulted hf]
    exact ⟨_, _, _, _, _, .inr rfl, .inr (Writer.run_faulted hf), .inr rfl⟩

end

/-- Settles O42: a plain writer's composites share their bodies with the primitive commands, and W_U64 is two runs of
W_BITS. -/
theorem plainWriterCompositesArePrimitives : Obligations.PlainWriterCompositesArePrimitives := by
  unfold Obligations.PlainWriterCompositesArePrimitives
  intro s id w hat hd
  refine ⟨fun v => ?_, fun v => ?_, fun v => ?_, fun v => ?_, fun v => ?_, fun v hok => ?_⟩
  · exact unsigned_eq_execWBits hat hd (by decide) .uint8 _ (by decide) (by decide)
  · exact unsigned_eq_execWBits hat hd (by decide) .uint16 _ (by decide) (by decide)
  · exact unsigned_eq_execWBits hat hd (by decide) .uint32 _ (by decide) (by decide)
  · exact signed_eq_execWSbits hat hd (by decide) .int16 _ (by decide) (by decide)
  · exact signed_eq_execWSbits hat hd (by decide) .int32 _ (by decide) (by decide)
  · obtain ⟨w1, w2, r1, r2, r3, he1, he2, he3⟩ := double_run_eq_two_runs hok hd v
    refine ⟨_, _, _, (execWBits_legal (by decide) (by decide)).trans (writerCommand_endsIn hat he1),
      (execWBits_legal (by decide) (by decide)).trans (writerCommand_endsIn (hat.withWriter w1 r1) he2),
      writerCommand_endsIn hat he3, ?_, rfl⟩
    exact (tablePut_put_same s.writers id w1 w2).symm

/-! ## Plain readers -/

section
variable {s : State} {id : Nat} {r r1 r2 : Reader} {op op' : BitVec 8} {body body' : Reader → Prim Reader Response}

theorem State.AtReader.withReader (hat : s.AtReader id r) (r' : Reader) (resp : Response) :
    (s.withReader id r' resp).AtReader id r' := ⟨hat.1, tableGet_put_same _ _ _⟩

/-- Reader commands differ in their bodies only. -/
theorem readerCommand_congr (hat : s.AtReader id r) (hop : isReaderOp op = true) (hop' : isReaderOp op' = true)
    (hbody : body r = body' r) : readerCommand op body s = readerCommand op' body' s := by
  have hprologue : r.prologue op = r.prologue op' := by simp [Reader.prologue, hop, hop']
  rw [readerCommand, readerCommand, present_reader op s id r hat, present_reader op' s id r hat, hprologue, hbody]

theorem checkTag_plain (hd : r.debug = false) (t : TagType) (n : Nat) : r.checkTag t n = .done () r := by
  simp [Reader.checkTag, hd]

theorem getUnsigned_plain (hd : r.debug = false) (t : TagType) (k : Nat) :
    r.getUnsigned t k = primBind (r.pread k) fun x r1 => .done (unsignedResponse x) r1 := by
  rw [Reader.getUnsigned, checkTag_plain hd]; rfl

theorem getSigned_plain (hd : r.debug = false) (t : TagType) (k : Nat) :
    r.getSigned t k = primBind (r.pread 1) fun s r1 =>
      primBind (r1.pread (k - 1)) fun m r2 => .done (signedResponse (sdec s m)) r2 := by
  rw [Reader.getSigned, checkTag_plain hd]; rfl

theorem getDouble_plain (hd : r.debug = false) :
    r.getDouble = primBind (r.pread 32) fun hi r1 =>
      primBind (r1.pread 32) fun lo r2 => .done (okResponse (hi ++ lo : BitVec 64)) r2 := by
  rw [Reader.getDouble, checkTag_plain hd]; rfl

theorem execRBits_legal {n : Nat} (h1 : 1 ≤ n) (h2 : n ≤ 32) :
    execRBits n s = readerCommand 0x21#8 (fun r => r.getUnsigned .unsigned n) s := by
  simp only [execRBits, if_neg (show ¬ (n < 1 ∨ 32 < n) by omega)]

theorem execRSbits_legal {n : Nat} (h1 : 2 ≤ n) (h2 : n ≤ 32) :
    execRSbits n s = readerCommand 0x22#8 (fun r => r.getSigned .signed n) s := by
  simp only [execRSbits, if_neg (show ¬ (n < 2 ∨ 32 < n) by omega)]

theorem unsigned_eq_execRBits (hat : s.AtReader id r) (hd : r.debug = false) (hop : isReaderOp op = true)
    (t : TagType) {k : Nat} (h1 : 1 ≤ k) (h2 : k ≤ 32) :
    readerCommand op (fun r => r.getUnsigned t k) s = execRBits k s := by
  rw [execRBits_legal h1 h2]
  exact readerCommand_congr hat hop (by decide) ((getUnsigned_plain hd t k).trans (getUnsigned_plain hd _ k).symm)

theorem signed_eq_execRSbits (hat : s.AtReader id r) (hd : r.debug = false) (hop : isReaderOp op = true)
    (t : TagType) {k : Nat} (h1 : 2 ≤ k) (h2 : k ≤ 32) :
    readerCommand op (fun r => r.getSigned t k) s = execRSbits k s := by
  rw [execRSbits_legal h1 h2]
  exact readerCommand_congr hat hop (by decide) ((getSigned_plain hd t k).trans (getSigned_plain hd _ k).symm)

/-- R_BITS of a whole word on a plain reader is one primitive read. -/
theorem execRBits_of_pread (hat : s.AtReader id r) (hd : r.debug = false) (hf : r.fault = 0#8) {x : Word}
    (e : r.pread 32 = .done x r1) : execRBits 32 s = .next (s.withReader id r1 (unsignedResponse x)) := by
  rw [execRBits_legal (by decide) (by decide), readerCommand_open _ _ s id r hat hf (by decide),
    getUnsigned_plain hd, e]
  rfl

/-- R_U64 on a plain reader is two primitive reads, upper word first. -/
theorem execRU64_of_preads (hat : s.AtReader id r) (hd : r.debug = false) (hf : r.fault = 0#8) {hi lo : Word}
    (e1 : r.pread 32 = .done hi r1) (e2 : r1.pread 32 = .done lo r2) :
    execRU64 s = .next (s.withReader id r2 (okResponse (hi ++ lo : BitVec 64))) := by
  rw [execRU64, readerCommand_open _ _ s id r hat hf (by decide), getDouble_plain hd, e1]
  simp only [primBind, e2]
  rfl

end

/-- Settles O43: a plain reader's composites share their bodies with the primitive commands, and R_U64 is two reads of
R_BITS. -/
theorem plainReaderCompositesArePrimitives : Obligations.PlainReaderCompositesArePrimitives := by
  unfold Obligations.PlainReaderCompositesArePrimitives
  intro s id r hat hd
  refine ⟨?_, ?_, ?_, ?_, ?_, fun ⟨hok, hf⟩ hbudget => ?_⟩
  · exact unsigned_eq_execRBits hat hd (by decide) .uint8 (by decide) (by decide)
  · exact unsigned_eq_execRBits hat hd (by decide) .uint16 (by decide) (by decide)
  · exact unsigned_eq_execRBits hat hd (by decide) .uint32 (by decide) (by decide)
  · exact signed_eq_execRSbits hat hd (by decide) .int16 (by decide) (by decide)
  · exact signed_eq_execRSbits hat hd (by decide) .int32 (by decide) (by decide)
  · obtain ⟨r1, e1, -, hb1, hok1, -, hd1, -, hf1⟩ := pread_spec r 32 hok (by decide) (by decide) (by omega)
    obtain ⟨r2, e2, -⟩ := pread_spec r1 32 hok1 (by decide) (by decide) (by omega)
    refine ⟨_, _, _, _, _, execRBits_of_pread hat hd hf e1,
      execRBits_of_pread (hat.withReader r1 _) (hd1.trans hd) (hf1.trans hf) e2, execRU64_of_preads hat hd hf e1 e2,
      rfl, ?_, rfl, rfl⟩
    exact (tablePut_put_same s.readers id r1 r2).symm

end Sys2Proof.Machine
end

section
/-! Writer commands by what their bodies end with: those that append a field, cut or close (O20 to O23, O25, O27), and
those of either unit that answer and change nothing (O24, O26, O28, O30). Before them, the operands' values (O17,
O19). -/

namespace Sys2Proof.Machine

/-! ## Values of the operands -/

theorem toNat_sencMagnitude (v : Int) {k : Nat} (hk : k ≤ 32) : (sencMagnitude v k).toNat = v.natAbs % 2 ^ (k - 1) := by
  rw [sencMagnitude, BitVec.toNat_ofNat, Nat.mod_eq_of_lt]
  calc v.natAbs % 2 ^ (k - 1) < 2 ^ (k - 1) := Nat.mod_lt _ (Nat.two_pow_pos _)
    _ ≤ 2 ^ 32 := Nat.pow_le_pow_right (by decide) (by omega)

theorem sencMagnitude_eq_zero_iff (v : Int) {k : Nat} (hk : k ≤ 32) :
    sencMagnitude v k = 0#32 ↔ (2 ^ (k - 1) : Int) ∣ v := by
  rw [← BitVec.toNat_inj, toNat_sencMagnitude v hk, BitVec.toNat_ofNat, Nat.zero_mod, ← Nat.dvd_iff_mod_eq_zero,
    ← Int.natCast_dvd, Nat.cast_pow, Nat.cast_ofNat]

theorem sencSign_eq_one_iff (v : Int) : sencSign v = 1#32 ↔ v < 0 := by
  unfold sencSign
  split <;> simp [*]

/-- Settles O17: the magnitude is zero exactly for the multiples of `2 ^ (k - 1)`, one of which is `-2 ^ 31`. -/
theorem signMagnitudeEncoding : Obligations.SignMagnitudeEncoding := by
  unfold Obligations.SignMagnitudeEncoding
  intro v k _ hk
  refine ⟨rfl, toNat_sencMagnitude v hk, and_congr (sencSign_eq_one_iff v) (sencMagnitude_eq_zero_iff v hk), rfl, ?_⟩
  have hdvd : (2 ^ (k - 1) : Int) ∣ 2 ^ 31 := pow_dvd_pow 2 (by omega)
  exact (sencMagnitude_eq_zero_iff _ hk).mpr (hdvd.trans (by decide))

/-- The primitive write looks at the low bits of its value only (40_writer.md R82). -/
theorem pwrite_and_mask (w : Writer) (v : Word) (k : Nat) : w.pwrite (v &&& mask k) k = w.pwrite v k := by
  simp only [Writer.pwrite, BitVec.and_assoc, BitVec.and_self]

/-- Settles O19, whatever the count: an illegal one is rejected before the value is looked at. -/
theorem wBitsMasksItsValue : Obligations.WBitsMasksItsValue := by
  unfold Obligations.WBitsMasksItsValue
  intro s v n
  simp only [exec, execWBits, Writer.putUnsigned, pwrite_and_mask]

/-! ## Commands that pass their prologue -/

section
variable {s : State} {id : Nat} {w w' : Writer} {r r' : Reader} {op : BitVec 8} {resp : Response}

theorem Writer.prologue_pass_open (hop : needsOpen op) (hf : w.fault = 0#8) (hc : w.closed = false) :
    w.prologue op = .pass := by
  obtain ⟨hwriter, h13, -⟩ := hop
  exact writer_prologue_pass w op hf hwriter (fun h => absurd h h13) (by simp [hc])

/-- W_TELL and W_OCTETS need no open writer (10_state.md R25). -/
theorem Writer.prologue_pass_afterClose (hop : runsAfterClose op = true) (hf : w.fault = 0#8) :
    w.prologue op = .pass := by
  obtain rfl | rfl := of_decide_eq_true hop
  · exact writer_prologue_pass w _ hf rfl nofun fun _ => hop
  · exact writer_prologue_pass w _ hf rfl nofun fun _ => hop

theorem writerCommand_passed {body : Writer → Prim Writer Response} (hat : s.AtWriter id w)
    (hpass : w.prologue op = .pass) (he : (body w).EndsIn resp w') :
    writerCommand op body s = .next (s.withWriter id w' resp) := by
  refine writerCommand_endsIn hat ?_
  rw [Writer.run, hpass]
  exact he

theorem writerCommand_unchanged {body : Writer → Prim Writer Response} (hs : s.Ok) (hat : s.AtWriter id w)
    (hpass : w.prologue op = .pass) (he : (body w).EndsIn resp w) :
    writerCommand op body s = .next (s.respond resp) := by
  rw [writerCommand_passed hat hpass he, State.withWriter, setWriter_self s id w hs.1 hat.2]

theorem readerCommand_unchanged {body : Reader → Prim Reader Response} (hs : s.Ok) (hat : s.AtReader id r)
    (hf : r.fault = 0#8) (hop : isReaderOp op = true) (he : (body r).EndsIn resp r) :
    readerCommand op body s = .next (s.respond resp) := by
  have hself := setReader_self s id r hs.2.1 hat.2
  rw [readerCommand_open op body s id r hat hf hop]
  obtain e | e := he <;> rw [e, finish, hself]

end

/-! ## Fields appended -/

section
variable {s : State} {id : Nat} {w : Writer} {op : BitVec 8} (hat : s.AtWriter id w) (hw : w.Open) (hop : needsOpen op)
include hat hw hop

/-- A command whose body completes on an open writer answers OK and leaves the writer its body does. -/
theorem writerCommand_open_done {body : Writer → Prim Writer Response} {Q : Writer → Prop}
    (he : ∃ w', body w = .done (okResponse 0#64) w' ∧ Q w') :
    ∃ w', writerCommand op body s = .next (s.withWriter id w' (okResponse 0#64)) ∧ Q w' := by
  obtain ⟨w', e, hQ⟩ := he
  obtain ⟨-, hf, hc⟩ := hw
  exact ⟨w', writerCommand_passed hat (Writer.prologue_pass_open hop hf hc) (.inl e), hQ⟩

theorem unsigned_appends (t : TagType) (v : Word) {k : Nat} (hk : 1 ≤ k) (hk2 : k ≤ 32)
    (hroom : w.tell + tagWidth w.debug + k ≤ 8 * w.cap) :
    ∃ w', writerCommand op (fun w => w.putUnsigned t v k) s = .next (s.withWriter id w' (okResponse 0#64)) ∧
      w.Appended w' (tagBits w.debug t k ++ fieldBits v k) :=
  writerCommand_open_done hat hw hop (putUnsigned_spec w t v k hw.1 hk hk2 hroom)

theorem signed_appends (t : TagType) (v : Int) {k : Nat} (hk : 2 ≤ k) (hk2 : k ≤ 32)
    (hroom : w.tell + tagWidth w.debug + k ≤ 8 * w.cap) :
    ∃ w', writerCommand op (fun w => w.putSigned t v k) s = .next (s.withWriter id w' (okResponse 0#64)) ∧
      w.Appended w' (tagBits w.debug t k ++ signedBits v k) :=
  writerCommand_open_done hat hw hop (putSigned_spec w t v k hw.1 hk hk2 hroom)

end

/-- Settles O20: a legal W_BITS is one tagged unsigned field. -/
theorem wBitsAppendsItsField : Obligations.WBitsAppendsItsField := by
  unfold Obligations.WBitsAppendsItsField
  intro s id w v n hat hw h1 h2 hroom
  rw [exec, execWBits_legal h1 h2]
  exact unsigned_appends hat hw (by decide) .unsigned v h1 h2 hroom

/-- Settles O21: a legal W_SBITS is one tagged sign-magnitude field. -/
theorem wSbitsAppendsItsField : Obligations.WSbitsAppendsItsField := by
  unfold Obligations.WSbitsAppendsItsField
  intro s id w v n hat hw h1 h2 hroom
  rw [exec, execWSbits_legal h1 h2]
  exact signed_appends hat hw (by decide) .signed v h1 h2 hroom

/-- Settles O22: W_U8, W_U16 and W_U32 are tagged unsigned fields, W_U64 a tagged double one. -/
theorem unsignedCompositesAppendTheirFields : Obligations.UnsignedCompositesAppendTheirFields := by
  unfold Obligations.UnsignedCompositesAppendTheirFields
  intro s id w hat hw
  refine ⟨fun v hroom => ?_, fun v hroom => ?_, fun v hroom => ?_, fun v hroom => ?_⟩
  · exact unsigned_appends hat hw (by decide) .uint8 _ (by decide) (by decide) hroom
  · exact unsigned_appends hat hw (by decide) .uint16 _ (by decide) (by decide) hroom
  · exact unsigned_appends hat hw (by decide) .uint32 _ (by decide) (by decide) hroom
  · exact writerCommand_open_done hat hw (by decide) (putDouble_spec w v hw.1 hroom)

/-- Settles O23: W_I16 and W_I32 are tagged sign-magnitude fields. -/
theorem signedCompositesAppendTheirFields : Obligations.SignedCompositesAppendTheirFields := by
  unfold Obligations.SignedCompositesAppendTheirFields
  intro s id w v hat hw
  refine ⟨fun hroom => ?_, fun hroom => ?_⟩
  · exact signed_appends hat hw (by decide) .int16 v (by decide) (by decide) hroom
  · exact signed_appends hat hw (by decide) .int32 v (by decide) (by decide) hroom

/-! ## Rewind and close -/

/-- Settles O25, by the rewind of a sound writer. -/
theorem wRewindCutsTheStream : Obligations.WRewindCutsTheStream := by
  unfold Obligations.WRewindCutsTheStream
  intro s id w p hat hw hp
  obtain ⟨w', e, hrewound⟩ := rewindTo_spec w p hw.1 hp
  refine writerCommand_open_done hat hw (by decide) ⟨w', ?_, hrewound⟩
  rw [if_neg (by omega), e, primBind]

/-- Settles O26: the position is compared with the tell, which a sound writer keeps within its buffer. -/
theorem forwardRewindsAreRejected : Obligations.ForwardRewindsAreRejected := by
  unfold Obligations.ForwardRewindsAreRejected
  intro s id w p hs hat hf hc
  refine ⟨fun hp => ?_, fun hp => ?_⟩
  · exact writerCommand_unchanged hs hat (Writer.prologue_pass_open (by decide) hf hc) (.inr (if_pos hp))
  · obtain ⟨-, -, -, hcap, -⟩ := State.Ok.writer hs hat.2
    omega

/-- Settles O27, by the close of a sound writer. -/
theorem wCloseStoresTheStream : Obligations.WCloseStoresTheStream := by
  unfold Obligations.WCloseStoresTheStream
  intro s id w hat hw
  obtain ⟨w', e, hclosed⟩ := close_spec w hw.1
  refine writerCommand_open_done hat hw (by decide) ⟨w', ?_, hclosed⟩
  rw [e, primBind]

/-! ## Answers that change nothing -/

/-- Settles O24. -/
theorem tellsAnswerThePosition : Obligations.TellsAnswerThePosition := by
  unfold Obligations.TellsAnswerThePosition
  intro s id hs
  refine ⟨fun w hat hf => ?_, fun r hat hf => ?_⟩
  · exact writerCommand_unchanged hs hat (Writer.prologue_pass_afterClose (by decide) hf) (.inl rfl)
  · exact readerCommand_unchanged hs hat hf (by decide) (.inl rfl)

/-- Settles O28: the bytes of a sound writer's logical stream are its committed bits. -/
theorem wOctetsReturnsTheStream : Obligations.WOctetsReturnsTheStream := by
  unfold Obligations.WOctetsReturnsTheStream
  intro s id w hs hat hf
  exact writerCommand_unchanged hs hat (Writer.prologue_pass_afterClose (by decide) hf)
    (.inl (octets_eq (State.Ok.writer hs hat.2)))

/-- Settles O30: the count is looked at before the tag and the field. -/
theorem illegalCountsAreWidthErrors : Obligations.IllegalCountsAreWidthErrors := by
  unfold Obligations.IllegalCountsAreWidthErrors
  intro s id n hs
  refine ⟨fun w v hat hf hc hn => ?_, fun w v hat hf hc hn => ?_, fun r hat hf hn => ?_, fun r hat hf hn => ?_⟩
  · exact writerCommand_unchanged hs hat (Writer.prologue_pass_open (by decide) hf hc) (.inr (if_pos hn))
  · exact writerCommand_unchanged hs hat (Writer.prologue_pass_open (by decide) hf hc) (.inr (if_pos hn))
  · exact readerCommand_unchanged hs hat hf (by decide) (.inr (if_pos hn))
  · exact readerCommand_unchanged hs hat hf (by decide) (.inr (if_pos hn))

end Sys2Proof.Machine
end

section
/-! Runs of primitive writes: what fits is appended, and the first write that does not fit takes the capacity fault. The
typed writer commands are such runs (O31); so are the histories of a writer (O44) and its output's length (O45). -/

namespace Sys2Proof.Machine

/-! ## Runs of bits, perhaps empty -/

/-- `w'` is `w` with a run of bits committed; with no bits, nothing has changed. -/
abbrev Writer.Extended (w w' : Writer) (bits : List Bool) : Prop :=
  (bits = [] → w' = w) ∧ (bits ≠ [] → w.Appended w' bits)

section
variable {w w1 w2 : Writer} {a b : List Bool}

theorem Writer.Extended.refl (w : Writer) : w.Extended w [] := ⟨fun _ => rfl, fun h => absurd rfl h⟩

theorem Writer.Appended.extended (h : w.Appended w1 a) (ha : a ≠ []) : w.Extended w1 a :=
  ⟨fun e => absurd e ha, fun _ => h⟩

theorem Writer.Extended.trans (h : w.Ok) (h1 : w.Extended w1 a) (h2 : w1.Extended w2 b) : w.Extended w2 (a ++ b) := by
  by_cases ha : a = []
  · obtain rfl := h1.1 ha
    rwa [ha, List.nil_append]
  · by_cases hb : b = []
    · obtain rfl := h2.1 hb
      rwa [hb, List.append_nil]
    · exact (Writer.Appended.trans h ha hb (h1.2 ha) (h2.2 hb)).extended (by simp [ha])

theorem Writer.Extended.ok (h : w.Ok) (h1 : w.Extended w1 a) : w1.Ok := by
  by_cases ha : a = []
  · exact h1.1 ha ▸ h
  · obtain ⟨-, -, -, -, hok, -⟩ := h1.2 ha
    exact hok

theorem Writer.Extended.tell (h1 : w.Extended w1 a) : w1.tell = w.tell + a.length := by
  by_cases ha : a = []
  · rw [h1.1 ha, ha]; rfl
  · obtain ⟨-, htell, -⟩ := h1.2 ha
    exact htell

theorem Writer.Extended.cap (h1 : w.Extended w1 a) : w1.cap = w.cap := by
  by_cases ha : a = []
  · rw [h1.1 ha]
  · obtain ⟨-, -, -, -, -, ⟨hcap, -⟩, -⟩ := h1.2 ha
    exact hcap

end

/-! ## Primitive writes one after another -/

/-- The bits of each field of a run of primitive writes. -/
def fieldGroups (fields : List (Word × Nat)) : List (List Bool) := fields.map fun f => fieldBits f.1 f.2

/-- Every field has a legal count (40_writer.md R78). -/
abbrev LegalCounts (fields : List (Word × Nat)) : Prop := ∀ f ∈ fields, 1 ≤ f.2 ∧ f.2 ≤ 32

/-- The total width of the fields (40_writer.md R101). -/
theorem length_fieldGroups (fields : List (Word × Nat)) :
    (fieldGroups fields).flatten.length = (fields.map fun f => f.2).sum := by
  simp [fieldGroups, List.length_flatten, Function.comp_def]

@[simp] theorem fieldGroups_cons (f : Word × Nat) (fields : List (Word × Nat)) :
    fieldGroups (f :: fields) = fieldBits f.1 f.2 :: fieldGroups fields := rfl

theorem fieldGroups_append (fields more : List (Word × Nat)) :
    fieldGroups (fields ++ more) = fieldGroups fields ++ fieldGroups more := List.map_append

theorem primBind_assoc {σ α β γ : Type} (p : Prim σ α) (f : α → σ → Prim σ β) (g : β → σ → Prim σ γ) :
    primBind (primBind p f) g = primBind p fun a u => primBind (f a u) g := by
  cases p <;> rfl

theorem primBind_done {σ α β : Type} (a : α) (u : σ) (f : α → σ → Prim σ β) : primBind (.done a u) f = f a u := rfl

theorem primBind_done_unit {σ : Type} (p : Prim σ Unit) : (primBind p fun _ u => .done () u) = p := by
  cases p <;> rfl

theorem pwrites_append (fields more : List (Word × Nat)) (w : Writer) :
    w.pwrites (fields ++ more) = primBind (w.pwrites fields) fun _ w1 => w1.pwrites more := by
  induction fields generalizing w with
  | nil => rfl
  | cons f fields ih => simp only [List.cons_append, Writer.pwrites, primBind_assoc, ih]

/-- A run of legal writes that fits is appended. -/
theorem pwrites_spec {fields : List (Word × Nat)} (hl : LegalCounts fields) {w : Writer} (h : w.Ok)
    (hroom : w.tell + (fieldGroups fields).flatten.length ≤ 8 * w.cap) :
    ∃ w', w.pwrites fields = .done () w' ∧ w.Extended w' (fieldGroups fields).flatten := by
  induction fields generalizing w with
  | nil => exact ⟨w, rfl, .refl w⟩
  | cons f fields ih =>
    obtain ⟨⟨h1, h2⟩, hl⟩ := List.forall_mem_cons.mp hl
    simp only [fieldGroups_cons, List.flatten_cons, List.length_append, length_fieldBits] at hroom
    obtain ⟨w1, e1, a1⟩ := pwrite_spec w f.1 f.2 h h1 h2 (by omega)
    have x1 := a1.extended (fieldBits_ne_nil f.1 f.2 h1)
    have htell := x1.tell
    rw [length_fieldBits] at htell
    obtain ⟨w2, e2, x2⟩ := ih hl (x1.ok h) (by rw [htell, x1.cap]; omega)
    exact ⟨w2, by rw [Writer.pwrites, e1, primBind, e2], x1.trans h x2⟩

/-- A run of legal writes that does not fit is appended up to its first write that does not, which takes the capacity
fault (40_writer.md R79, R98). -/
theorem pwrites_overflow {fields : List (Word × Nat)} (hl : LegalCounts fields) {w : Writer} (h : w.Ok)
    (hroom : 8 * w.cap < w.tell + (fieldGroups fields).flatten.length) :
    ∃ pre f post w1, fields = pre ++ f :: post ∧ w.Extended w1 (fieldGroups pre).flatten ∧
      w1.tell ≤ 8 * w.cap ∧ 8 * w.cap < w1.tell + f.2 ∧
      w.pwrites fields =
        .raised (errorResponse .faultCapacityOverflow (dataPair f.2 w1.tell)) { w1 with fault := 0x81#8 } := by
  induction fields generalizing w with
  | nil =>
    obtain ⟨-, -, -, hcap, -⟩ := h
    exact absurd hcap (by simpa [fieldGroups] using hroom)
  | cons f fields ih =>
    obtain ⟨⟨h1, h2⟩, hl⟩ := List.forall_mem_cons.mp hl
    by_cases hfit : w.tell + f.2 ≤ 8 * w.cap
    · obtain ⟨w1, e1, a1⟩ := pwrite_spec w f.1 f.2 h h1 h2 hfit
      have x1 := a1.extended (fieldBits_ne_nil f.1 f.2 h1)
      have htell := x1.tell
      rw [length_fieldBits] at htell
      simp only [fieldGroups_cons, List.flatten_cons, List.length_append, length_fieldBits] at hroom
      obtain ⟨pre, g, post, w2, rfl, x2, hle, hlt, e2⟩ := ih hl (x1.ok h) (by rw [htell, x1.cap]; omega)
      rw [x1.cap] at hle hlt
      exact ⟨f :: pre, g, post, w2, rfl, x1.trans h x2, hle, hlt, by rw [Writer.pwrites, e1, primBind, e2]⟩
    · obtain ⟨-, -, -, hcap, -⟩ := h
      refine ⟨[], f, fields, w, rfl, .refl w, hcap, not_le.mp hfit, ?_⟩
      rw [Writer.pwrites, pwrite_overflow w f.1 f.2 (not_le.mp hfit), primBind]

/-! ## Typed commands as runs of primitive writes -/

/-- The primitive writes of a tag (42_debug_tags.md R129). -/
def tagFields (debug : Bool) (t : TagType) (width : Nat) : List (Word × Nat) :=
  if debug = true then [(tagCode t, 4), (BitVec.ofNat 32 width, 7)] else []

/-- The primitive writes of a sign-magnitude field (40_writer.md R85). -/
def signedFields (v : Int) (k : Nat) : List (Word × Nat) := [(sencSign v, 1), (sencMagnitude v k, k - 1)]

/-- A tag, then fields, then OK: what every typed writer command does behind its prologue. -/
def Writer.putFields (t : TagType) (width : Nat) (fields : List (Word × Nat)) (w : Writer) : Prim Writer Response :=
  primBind (w.pwrites (tagFields w.debug t width ++ fields)) fun _ w' => .done (okResponse 0#64) w'

theorem fieldGroups_tagFields (debug : Bool) (t : TagType) (width : Nat) :
    fieldGroups (tagFields debug t width) = tagGroups debug t width := by
  cases debug <;> rfl

theorem length_tagGroups (debug : Bool) (t : TagType) (width : Nat) :
    (tagGroups debug t width).flatten.length = tagWidth debug := by
  cases debug <;> simp [tagGroups, tagWidth]

theorem fieldGroups_signedFields (v : Int) (k : Nat) : fieldGroups (signedFields v k) = signedGroups v k := by
  simp only [signedFields, fieldGroups_cons, sencSign_bits]
  rfl

theorem legalCounts_signedFields (v : Int) {k : Nat} (hk : 2 ≤ k) (hk2 : k ≤ 32) : LegalCounts (signedFields v k) := by
  simp only [LegalCounts, signedFields, List.forall_mem_cons]
  exact ⟨by decide, by omega, nofun⟩

theorem legalCounts_tagFields (debug : Bool) (t : TagType) (width : Nat) : LegalCounts (tagFields debug t width) := by
  cases debug
  · exact nofun
  · simp only [LegalCounts, tagFields, if_true, List.forall_mem_cons]
    exact ⟨by decide, by decide, nofun⟩

section
variable (w : Writer) (t : TagType)

theorem tag_eq_pwrites (width : Nat) : w.tag t width = w.pwrites (tagFields w.debug t width) := by
  unfold Writer.tag tagFields
  split
  · simp only [Writer.pwrites, primBind_done_unit]
  · rfl

theorem putUnsigned_eq_putFields (v : Word) (k : Nat) : w.putUnsigned t v k = w.putFields t k [(v, k)] := by
  simp only [Writer.putUnsigned, Writer.putFields, tag_eq_pwrites, pwrites_append, Writer.pwrites, primBind_assoc,
    primBind_done]

theorem putSigned_eq_putFields (v : Int) (k : Nat) : w.putSigned t v k = w.putFields t k (signedFields v k) := by
  simp only [Writer.putSigned, Writer.putFields, tag_eq_pwrites, pwrites_append, signedFields, Writer.pwrites,
    primBind_assoc, primBind_done]

theorem putDouble_eq_putFields (v : BitVec 64) :
    w.putDouble v = w.putFields .uint64 64 [(v.extractLsb' 32 32, 32), (v.extractLsb' 0 32, 32)] := by
  simp only [Writer.putDouble, Writer.putFields, tag_eq_pwrites, pwrites_append, Writer.pwrites, primBind_assoc,
    primBind_done]

end

/-- A command is a run of legal primitive writes, of these groups of bits behind this tag, and needs an open writer. -/
def IsFieldRun (i : Instr) (t : TagType) (width : Nat) (groups : List (List Bool)) : Prop :=
  ∃ op fields, needsOpen op ∧ LegalCounts fields ∧ fieldGroups fields = groups ∧
    ∀ s, exec i s = writerCommand op (Writer.putFields t width fields) s

section
variable {i : Instr} {op : BitVec 8} {t : TagType} {k : Nat}

theorem IsFieldRun.unsigned {v : Word} (hop : needsOpen op) (hk : 1 ≤ k) (hk2 : k ≤ 32)
    (he : ∀ s, exec i s = writerCommand op (fun w => w.putUnsigned t v k) s) : IsFieldRun i t k [fieldBits v k] :=
  ⟨op, [(v, k)], hop, List.forall_mem_singleton.mpr ⟨hk, hk2⟩, rfl,
    fun s => (he s).trans (by simp only [putUnsigned_eq_putFields])⟩

theorem IsFieldRun.signed {v : Int} (hop : needsOpen op) (hk : 2 ≤ k) (hk2 : k ≤ 32)
    (he : ∀ s, exec i s = writerCommand op (fun w => w.putSigned t v k) s) : IsFieldRun i t k (signedGroups v k) :=
  ⟨op, signedFields v k, hop, legalCounts_signedFields v hk hk2, fieldGroups_signedFields v k,
    fun s => (he s).trans (by simp only [putSigned_eq_putFields])⟩

end

theorem isFieldRun_wU64 (v : BitVec 64) :
    IsFieldRun (.wU64 v) .uint64 64 [fieldBits (v.extractLsb' 32 32) 32, fieldBits (v.extractLsb' 0 32) 32] := by
  refine ⟨0x08#8, [(v.extractLsb' 32 32, 32), (v.extractLsb' 0 32, 32)], by decide, ?_, rfl, fun s => ?_⟩
  · simp only [LegalCounts, List.forall_mem_cons]
    exact ⟨by decide, by decide, nofun⟩
  · simp only [exec, execWU64, putDouble_eq_putFields]

/-- The typed writer commands with a legal count are such runs. -/
theorem isFieldRun_of_writerField {i : Instr} {t : TagType} {width : Nat} {groups : List (List Bool)}
    (h : writerField i = some (t, width, groups)) : IsFieldRun i t width groups := by
  cases i with
  | wBits v n =>
    obtain ⟨⟨h1, h2⟩, ⟨⟩⟩ := Option.ite_none_right_eq_some.mp h
    exact .unsigned (by decide) h1 h2 fun _ => execWBits_legal h1 h2
  | wSbits v n =>
    obtain ⟨⟨h1, h2⟩, ⟨⟩⟩ := Option.ite_none_right_eq_some.mp h
    exact .signed (by decide) h1 h2 fun _ => execWSbits_legal h1 h2
  | wU8 v => cases h; exact .unsigned (by decide) (by decide) (by decide) fun _ => rfl
  | wU16 v => cases h; exact .unsigned (by decide) (by decide) (by decide) fun _ => rfl
  | wU32 v => cases h; exact .unsigned (by decide) (by decide) (by decide) fun _ => rfl
  | wI16 v => cases h; exact .signed (by decide) (by decide) (by decide) fun _ => rfl
  | wI32 v => cases h; exact .signed (by decide) (by decide) (by decide) fun _ => rfl
  | wU64 v => cases h; exact isFieldRun_wU64 v
  | _ => cases h

theorem fieldGroups_flatten_ne_nil {fields : List (Word × Nat)} (hl : LegalCounts fields)
    (hne : fieldGroups fields ≠ []) : (fieldGroups fields).flatten ≠ [] := by
  cases fields with
  | nil => exact absurd rfl hne
  | cons f fields =>
    rw [fieldGroups_cons, List.flatten_cons]
    exact List.append_ne_nil_of_left_ne_nil (fieldBits_ne_nil f.1 f.2 (hl f List.mem_cons_self).1) _

/-- Settles O31: a typed command is a run of primitive writes, the first of which that does not fit ends it. -/
theorem overflowKeepsEarlierWrites : Obligations.OverflowKeepsEarlierWrites := by
  unfold Obligations.OverflowKeepsEarlierWrites
  intro s id w i t width groups hat hw hi hroom
  obtain ⟨hok, hf, hc⟩ := hw
  obtain ⟨op, fields, hop, hl, rfl, he⟩ := isFieldRun_of_writerField hi
  have hgroups : fieldGroups (tagFields w.debug t width ++ fields) =
      tagGroups w.debug t width ++ fieldGroups fields := by
    rw [fieldGroups_append, fieldGroups_tagFields]
  have hlegal : LegalCounts (tagFields w.debug t width ++ fields) :=
    List.forall_mem_append.mpr ⟨legalCounts_tagFields w.debug t width, hl⟩
  obtain ⟨pre, f, post, w1, hsplit, hext, hle, hlt, e⟩ := pwrites_overflow hlegal hok (by
    rw [hgroups, List.flatten_append, List.length_append, length_tagGroups]; omega)
  rw [hext.tell] at hle hlt
  refine ⟨fieldGroups pre, fieldBits f.1 f.2, fieldGroups post, w1, ?_, hle, ?_, ?_, ?_, ?_⟩
  · rw [← hgroups, hsplit, fieldGroups_append, fieldGroups_cons]
  · rwa [length_fieldBits]
  · rw [he, length_fieldBits, ← hext.tell]
    exact writerCommand_passed hat (Writer.prologue_pass_open hop hf hc)
      (.inr (by rw [Writer.putFields, e, primBind]))
  · exact fun hpre => hext.1 (by rw [hpre]; rfl)
  · rw [hsplit] at hlegal
    exact fun hpre => hext.2 (fieldGroups_flatten_ne_nil (fun g hg => hlegal g (List.mem_append_left _ hg)) hpre)

/-! ## Histories -/

theorem stream_construct (cap : Nat) (debug : Bool) (pair : Option Nat) (fill : List Byte) :
    (Writer.construct cap debug pair fill).stream = [] := rfl

/-- A history that succeeds on a sound writer leaves it sound, with the history's committed bits (40_writer.md R100). -/
theorem runOps_spec {ops : List StreamOp} (hl : opsLegal ops = true) {w w' : Writer} (h : w.Ok)
    (he : w.runOps ops = .done () w') : w'.Ok ∧ w'.stream = committedBits ops w.stream := by
  induction ops generalizing w with
  | nil => cases he; exact ⟨h, rfl⟩
  | cons op ops ih =>
    rw [opsLegal, List.all_cons, Bool.and_eq_true] at hl
    obtain ⟨hop, hl⟩ := hl
    cases op with
    | write v k =>
      obtain ⟨hk, hk2⟩ := of_decide_eq_true hop
      rw [Writer.runOps] at he
      by_cases hroom : w.tell + k ≤ 8 * w.cap
      · obtain ⟨w1, e, hstream, -, -, -, hok, -⟩ := pwrite_spec w v k h hk hk2 hroom
        rw [e, primBind] at he
        rw [committedBits, ← hstream]
        exact ih hl hok he
      · rw [pwrite_overflow w v k (not_le.mp hroom)] at he
        cases he
    | rewind p =>
      rw [Writer.runOps] at he
      split at he
      · cases he
      · obtain ⟨w1, e, hstream, -, -, -, hok, -⟩ := rewindTo_spec w p h (by omega)
        rw [e, primBind] at he
        rw [committedBits, ← hstream]
        exact ih hl hok he

/-- Settles O44: the committed bits are a sound writer's stream, and its logical stream is made of them. -/
theorem writerStreamLaw : Obligations.WriterStreamLaw := by
  unfold Obligations.WriterStreamLaw
  intro cap debug pair fill ops w hmul hmax hl he
  obtain ⟨hok, hstream⟩ := runOps_spec hl (Writer.construct_ok debug pair fill ⟨hmul, hmax⟩) he
  rw [stream_construct] at hstream
  rw [← hstream]
  exact ⟨rfl, (length_stream w).symm, out_eq_packBytes w hok⟩

/-- Bit `i` of the logical stream as bytes is stream bit `i`. -/
theorem getLsbD_out (w : Writer) {i : Nat} (hi : i < 8 * ceilDiv w.tell 8) :
    (w.out.getD (i / 8) 0#8).getLsbD (7 - i % 8) = w.streamBit i := by
  have hlen : i / 8 < w.out.length := by simp only [Writer.out, List.length_map, List.length_range]; omega
  rw [List.getD_eq_getElem _ _ hlen]
  simp only [Writer.out, List.getElem_map, List.getElem_range]
  rfl

/-- Settles O45: the fields fit, so the tell is their total width, past which a sound writer's stream is zero. -/
theorem outputLengthLaw : Obligations.OutputLengthLaw := by
  unfold Obligations.OutputLengthLaw
  rintro cap debug pair fill fields T hmul hmax hl rfl hroom
  rw [← length_fieldGroups] at hroom ⊢
  have hstart := Writer.construct_ok debug pair fill ⟨hmul, hmax⟩
  have htell0 : (Writer.construct cap debug pair fill).tell = 0 := rfl
  obtain ⟨w, e, hext⟩ := pwrites_spec hl hstart (by rwa [htell0, Nat.zero_add])
  obtain ⟨w', e', -, -, -, -, htell', -, -, -, -, hok', hout, -⟩ := close_spec w (hext.ok hstart)
  have htell : w'.tell = (fieldGroups fields).flatten.length := by rw [htell', hext.tell, htell0, Nat.zero_add]
  rw [← htell]
  refine ⟨w, w', e, e', by simp only [Writer.out, List.length_map, List.length_range], fun i hi hi8 => ?_⟩
  rw [getLsbD_out w' hi8]
  exact streamBit_past w' hok' hi hi8

end Sys2Proof.Machine
end

section
/-! W_COPY: the chunks that reader and writer hold are copied (O29); the first that the reader's budget does not hold
(O32) or the writer's capacity does not (O33) ends the copy. -/

namespace Sys2Proof.Machine

/-! ## Bits copied -/

/-- The reader's next `n` bits are consumed and stand at the end of the writer's stream; with `n = 0` nothing has
changed. -/
def Copied (w : Writer) (r : Reader) (w' : Writer) (r' : Reader) (n : Nat) : Prop :=
  w.Extended w' (srcBits r.src r.tell n) ∧ r.Consumed r' n ∧ (n = 0 → r' = r)

section
variable {w w' w1 : Writer} {r r' r1 : Reader} {j k n : Nat}

theorem Copied.zero (w : Writer) (hr : r.Ok) : Copied w r w r 0 :=
  ⟨.refl w, ⟨rfl, rfl, hr, rfl, rfl, rfl, rfl⟩, fun _ => rfl⟩

theorem Copied.trans (hw : w.Ok) (h1 : Copied w r w1 r1 j) (h2 : Copied w1 r1 w' r' k) :
    Copied w r w' r' (j + k) := by
  obtain ⟨x1, c1, z1⟩ := h1
  obtain ⟨x2, c2, z2⟩ := h2
  have ⟨htell, _, _, _, _, hsrc, _⟩ := c1
  rw [hsrc, htell] at x2
  refine ⟨srcBits_append r.src r.tell j k ▸ x1.trans hw x2, c1.trans c2, fun h => ?_⟩
  rw [z2 (by omega), z1 (by omega)]

theorem Copied.writer_eq (h : Copied w r w' r' 0) : w' = w := h.1.1 rfl

/-- What a copy of bits leaves for the next one. -/
theorem Copied.after (hw : w.Ok) (h : Copied w r w' r' n) :
    w'.Ok ∧ w'.tell = w.tell + n ∧ w'.cap = w.cap ∧ r'.Ok ∧ r'.tell = r.tell + n ∧ r'.budget + n = r.budget := by
  obtain ⟨hext, ⟨htell, hbudget, hok, -⟩, -⟩ := h
  exact ⟨hext.ok hw, hext.tell.trans (by rw [length_srcBits]), hext.cap, hok, htell, hbudget⟩

theorem Copied.appended (h : Copied w r w' r' n) (hn : 1 ≤ n) : w.Appended w' (srcBits r.src r.tell n) :=
  h.1.2 (List.ne_nil_of_length_pos (by rwa [length_srcBits]))

end

/-! ## Chunks -/

section
variable {w : Writer} {r : Reader} {k : Nat}

theorem copyChunk_fits (hw : w.Ok) (hr : r.Ok) (hk : 1 ≤ k) (hk2 : k ≤ 32) (hb : k ≤ r.budget)
    (hroom : w.tell + k ≤ 8 * w.cap) :
    ∃ w' r', copyChunk k (w, r) = .done () (w', r') ∧ Copied w r w' r' k := by
  obtain ⟨r', er, hc⟩ := pread_spec r k hr hk hk2 hb
  obtain ⟨w', ew, ha⟩ := pwrite_spec w (bitsWord (srcBits r.src r.tell k)) k hw hk hk2 hroom
  have hbits : fieldBits (bitsWord (srcBits r.src r.tell k)) k = srcBits r.src r.tell k := by
    simpa using fieldBits_bitsWord (srcBits r.src r.tell k) (by simpa using hk2)
  have hext := ha.extended (fieldBits_ne_nil _ k hk)
  rw [hbits] at hext
  refine ⟨w', r', ?_, hext, hc, fun h => absurd h (by omega)⟩
  simp only [copyChunk, er, ew, primLift, primBind]

/-- A chunk the reader's budget does not hold changes neither unit (41_reader.md R104). -/
theorem copyChunk_eof (hb : r.budget < k) :
    copyChunk k (w, r) = .raised (errorResponse .eofError (dataPair k r.tell)) (w, r) := by
  simp only [copyChunk, pread_eof r k hb, primLift, primBind]

/-- A chunk the writer's capacity does not hold has been read (40_writer.md R98). -/
theorem copyChunk_overflow (hr : r.Ok) (hk : 1 ≤ k) (hk2 : k ≤ 32) (hb : k ≤ r.budget)
    (hroom : 8 * w.cap < w.tell + k) :
    ∃ r', copyChunk k (w, r) =
        .raised (errorResponse .faultCapacityOverflow (dataPair k w.tell)) ({ w with fault := 0x81#8 }, r') ∧
      r.Consumed r' k := by
  obtain ⟨r', er, hc⟩ := pread_spec r k hr hk hk2 hb
  refine ⟨r', ?_, hc⟩
  simp only [copyChunk, er, pwrite_overflow w _ k hroom, primLift, primBind]

end

/-! ## Copies -/

theorem copyWords_add (i j : Nat) (u : Writer × Reader) :
    copyWords (i + j) u = primBind (copyWords i u) fun _ u1 => copyWords j u1 := by
  induction i generalizing u with
  | zero => rw [Nat.zero_add]; rfl
  | succ i ih => simp only [Nat.succ_add, copyWords, primBind_assoc, ih]

section
variable {w : Writer} {r : Reader} (hw : w.Ok) (hr : r.Ok)
include hw hr

theorem copyWords_fits (j : Nat) (hb : 32 * j ≤ r.budget) (hroom : w.tell + 32 * j ≤ 8 * w.cap) :
    ∃ w' r', copyWords j (w, r) = .done () (w', r') ∧ Copied w r w' r' (32 * j) := by
  induction j with
  | zero => exact ⟨w, r, rfl, .zero w hr⟩
  | succ j ih =>
    obtain ⟨w1, r1, e1, h1⟩ := ih (by omega) (by omega)
    obtain ⟨hw1, htell, hcap, hr1, -, hbudget⟩ := h1.after hw
    obtain ⟨w2, r2, e2, h2⟩ := copyChunk_fits (k := 32) hw1 hr1 (by decide) (by decide) (by omega)
      (by rw [htell, hcap]; omega)
    refine ⟨w2, r2, ?_, h1.trans hw h2⟩
    rw [copyWords_add, e1]
    simp only [primBind, copyWords, e2]

theorem copyBits_fits {n : Nat} (hb : n ≤ r.budget) (hroom : w.tell + n ≤ 8 * w.cap) :
    ∃ w' r', copyBits n (w, r) = .done (okResponse 0#64) (w', r') ∧ Copied w r w' r' n := by
  obtain ⟨w1, r1, e1, h1⟩ := copyWords_fits hw hr (n / 32) (by omega) (by omega)
  have hn : 32 * (n / 32) + n % 32 = n := Nat.div_add_mod n 32
  simp only [copyBits, e1, primBind]
  by_cases hrest : 0 < n % 32
  · have ⟨hext, ⟨_, hbudget, hr1, _⟩, _⟩ := h1
    have htell := hext.tell
    rw [length_srcBits] at htell
    obtain ⟨w2, r2, e2, h2⟩ := copyChunk_fits (k := n % 32) (hext.ok hw) hr1 hrest (by omega) (by omega)
      (by rw [htell, hext.cap]; omega)
    have h12 := h1.trans hw h2
    rw [hn] at h12
    exact ⟨w2, r2, by rw [if_pos hrest, e2], h12⟩
  · have hfull : 32 * (n / 32) = n := by omega
    rw [hfull] at h1
    exact ⟨w1, r1, if_neg hrest, h1⟩

end

/-- The count of a copy's chunk number `d`, from 0: a whole word, or what remains of the copy. -/
abbrev chunkCount (n d : Nat) : Nat := if d < n / 32 then 32 else n % 32

/-- The first chunk that fails ends the copy. -/
theorem copyBits_raised {n d : Nat} {u u1 u2 : Writer × Reader} {resp : Response} (hd : d ≤ n / 32)
    (hk : 1 ≤ chunkCount n d) (e1 : copyWords d u = .done () u1)
    (e2 : copyChunk (chunkCount n d) u1 = .raised resp u2) : copyBits n u = .raised resp u2 := by
  by_cases hlt : d < n / 32
  · obtain ⟨j, hj⟩ : ∃ j, n / 32 = d + (j + 1) := ⟨n / 32 - d - 1, by omega⟩
    rw [chunkCount, if_pos hlt] at e2
    rw [copyBits, hj, copyWords_add, e1]
    simp only [primBind, copyWords, e2]
  · have hlast : n / 32 = d := by omega
    rw [chunkCount, if_neg hlt] at e2 hk
    rw [copyBits, hlast, e1]
    simp only [primBind, if_pos (show 0 < n % 32 from hk), e2]

/-! ## The command -/

/-- W_COPY on an open writer and its unfaulted pair ends as its copy does. -/
theorem execWCopy_endsIn {s : State} {id rid n : Nat} {w w' : Writer} {r r' : Reader} {resp : Response}
    (hat : s.AtWriter id w) (hw : w.Open) (hp : w.pair = some rid) (hread : s.reader? rid = some r) (hr : r.Open)
    (he : (copyBits n (w, r)).EndsIn resp (w', r')) : exec (.wCopy n) s = .next (s.withPair id w' rid r' resp) := by
  obtain ⟨-, hf, hc⟩ := hw
  have hpass : w.prologue 0x0D#8 = .pass := writer_prologue_pass w _ hf rfl (by simp [hp]) (by simp [hc])
  have hcopy : copyFromPair n id w s =
      finish (fun u => (s.setWriter id u.1).setReader rid u.2) (copyBits n (w, r)) := by
    simp only [copyFromPair, hp, hread, hr.2, ne_eq, not_true_eq_false, if_false]
  rw [exec, execWCopy, present_writer _ s id w hat, hpass]
  dsimp only
  rw [hcopy]
  obtain e | e := he <;> rw [e] <;> rfl

/-- Settles O29: every chunk fits both units. -/
theorem wCopyMovesTheBits : Obligations.WCopyMovesTheBits := by
  unfold Obligations.WCopyMovesTheBits
  intro s id w rid r n hat hw hp hread hr hb hroom
  obtain ⟨w', r', e, h⟩ := copyBits_fits hw.1 hr.1 hb hroom
  refine ⟨w', r', execWCopy_endsIn hat hw hp hread hr (.inl e), ?_, fun hn => ⟨h.appended hn, h.2.1⟩⟩
  rintro rfl
  exact ⟨h.writer_eq, h.2.2 rfl⟩

/-- Settles O32: the chunk after the full ones the budget holds is read past it. -/
theorem wCopyPastBudgetKeepsItsChunks : Obligations.WCopyPastBudgetKeepsItsChunks := by
  unfold Obligations.WCopyPastBudgetKeepsItsChunks
  intro s id w rid r n hat hw hp hread hr hb hroom
  obtain ⟨w', r', e, h⟩ := copyWords_fits hw.1 hr.1 (r.budget / 32) (by omega) hroom
  obtain ⟨-, -, -, -, htell, hbudget⟩ := h.after hw.1
  have hcross : r'.budget < chunkCount n (r.budget / 32) := by unfold chunkCount; split <;> omega
  have hraised := copyBits_raised (by omega) (by omega) e (copyChunk_eof hcross)
  rw [htell] at hraised
  refine ⟨w', r', execWCopy_endsIn hat hw hp hread hr (.inr hraised), fun hd => ?_, fun hd => ?_⟩
  · rw [hd] at h
    exact ⟨h.writer_eq, h.2.2 rfl⟩
  · exact ⟨h.appended (by omega), h.2.1⟩

/-- Settles O33: the chunk after the full ones that fit is read, and does not fit. -/
theorem wCopyPastCapacityLosesOneChunk : Obligations.WCopyPastCapacityLosesOneChunk := by
  unfold Obligations.WCopyPastCapacityLosesOneChunk
  intro s id w rid r n chunks k hat hw hp hread hr hroom hchunks hk hb
  change k = chunkCount n chunks at hk
  obtain ⟨-, -, -, hcap, -⟩ := hw.1
  obtain ⟨w1, r1, e, h⟩ := copyWords_fits hw.1 hr.1 chunks (by omega) (by omega)
  obtain ⟨-, htell, hcap1, hr1, -, hbudget⟩ := h.after hw.1
  have hcross : 1 ≤ k ∧ k ≤ 32 ∧ 8 * w.cap < w.tell + 32 * chunks + k := by
    rw [hk]; unfold chunkCount; split <;> omega
  obtain ⟨hk1, hk2, hover⟩ := hcross
  obtain ⟨r2, e2, hc2⟩ := copyChunk_overflow (w := w1) (r := r1) (k := k) hr1 hk1 hk2 (by omega)
    (by rw [htell, hcap1]; exact hover)
  have hraised := copyBits_raised (by omega) (hk ▸ hk1) e (hk ▸ e2)
  rw [← hk] at hraised
  rw [← htell]
  refine ⟨w1, r2, execWCopy_endsIn hat hw hp hread hr (.inr hraised), h.2.1.trans hc2, fun hd => ?_, fun hd => ?_⟩
  · rw [hd] at h
    exact h.writer_eq
  · exact h.appended (by omega)

end Sys2Proof.Machine
end

section
/-! Reader commands by what their bodies end with: those that complete with the next bits of the stream (O34 to O37),
and what a plain read does to the registers (O40, O41). Before them, the value of a sign-magnitude field (O18). -/

namespace Sys2Proof.Machine

/-- The decoding gives a magnitude a sign and nothing else. -/
theorem natAbs_sdec (s m : Word) : (sdec s m).natAbs = m.toNat := by
  unfold sdec
  split
  · rw [Int.natAbs_neg, Int.natAbs_natCast]
  · exact Int.natAbs_natCast _

/-- The range of a signed field (41_reader.md R109) is a bound on the absolute value. -/
theorem natAbs_lt_two_pow_iff (v : Int) (n : Nat) :
    v.natAbs < 2 ^ n ↔ -((2 : Int) ^ n - 1) ≤ v ∧ v ≤ (2 : Int) ^ n - 1 := by
  have hcast : ((2 ^ n : Nat) : Int) = 2 ^ n := Nat.cast_pow 2 n
  omega

/-- Settles O18: the range is a bound on the absolute value, and the widest field has 32 bits. -/
theorem signMagnitudeDecoding : Obligations.SignMagnitudeDecoding := by
  unfold Obligations.SignMagnitudeDecoding
  intro m k _ hk hm
  refine ⟨rfl, rfl, rfl, fun s _ => ?_⟩
  have habs := natAbs_sdec s m
  obtain ⟨hlo, hhi⟩ := (natAbs_lt_two_pow_iff (sdec s m) (k - 1)).mp (habs ▸ hm)
  have hwidest : 2 ^ (k - 1) ≤ 2 ^ 31 := Nat.pow_le_pow_right (by decide) (by omega)
  exact ⟨hlo, hhi, by omega, by omega⟩

/-! ## Commands that complete -/

section
variable {s : State} {id : Nat} {r : Reader} {op : BitVec 8} (hat : s.AtReader id r)
include hat

/-- The next state of a command behind its prologue, by how its body ends. -/
theorem readerCommand_endsIn (hf : r.fault = 0#8) (hop : isReaderOp op = true)
    {body : Reader → Prim Reader Response} {resp : Response} {r' : Reader} (he : (body r).EndsIn resp r') :
    readerCommand op body s = .next (s.withReader id r' resp) := by
  rw [readerCommand_open op body s id r hat hf hop]
  obtain e | e := he <;> rw [e] <;> rfl

variable (hr : r.Open) (hop : isReaderOp op = true)
include hr hop

/-- A command whose body completes on an unfaulted reader answers as its body does and leaves the reader its body
does. -/
theorem readerCommand_open_done {body : Reader → Prim Reader Response} {resp : Response} {Q : Reader → Prop}
    (he : ∃ r', body r = .done resp r' ∧ Q r') :
    ∃ r', readerCommand op body s = .next (s.withReader id r' resp) ∧ Q r' := by
  obtain ⟨r', e, hQ⟩ := he
  exact ⟨r', readerCommand_endsIn hat hr.2 hop (.inl e), hQ⟩

theorem unsigned_reads (t : TagType) {k : Nat} (hk : 1 ≤ k) (hk2 : k ≤ 32) (hb : tagWidth r.debug + k ≤ r.budget)
    (hm : r.TagMatches t k) :
    ∃ r', readerCommand op (fun r => r.getUnsigned t k) s = .next (s.withReader id r' (okResponse
        ((bitsWord (srcBits r.src (r.tell + tagWidth r.debug) k)).setWidth 64))) ∧
      r.Consumed r' (tagWidth r.debug + k) :=
  readerCommand_open_done hat hr hop (getUnsigned_spec r t k hr.1 hk hk2 hb hm)

theorem signed_reads (t : TagType) {k : Nat} (hk : 2 ≤ k) (hk2 : k ≤ 32) (hb : tagWidth r.debug + k ≤ r.budget)
    (hm : r.TagMatches t k) :
    ∃ r', readerCommand op (fun r => r.getSigned t k) s = .next (s.withReader id r' (okResponse
        (BitVec.ofInt 64 (signedValue (srcBits r.src (r.tell + tagWidth r.debug) k))))) ∧
      r.Consumed r' (tagWidth r.debug + k) :=
  readerCommand_open_done hat hr hop (getSigned_spec r t k hr.1 hk hk2 hb hm)

end

/-- Settles O34: a legal R_BITS is one tagged unsigned field. -/
theorem rBitsReturnsTheNextBits : Obligations.RBitsReturnsTheNextBits := by
  unfold Obligations.RBitsReturnsTheNextBits
  intro s id r n hat hr h1 h2 hb hm
  rw [exec, execRBits_legal h1 h2]
  exact unsigned_reads hat hr (by decide) .unsigned h1 h2 hb hm

/-- Settles O35: a legal R_SBITS is one tagged sign-magnitude field. -/
theorem rSbitsReturnsTheNextValue : Obligations.RSbitsReturnsTheNextValue := by
  unfold Obligations.RSbitsReturnsTheNextValue
  intro s id r n hat hr h1 h2 hb hm
  rw [exec, execRSbits_legal h1 h2]
  exact signed_reads hat hr (by decide) .signed h1 h2 hb hm

/-- Settles O36: R_U8, R_U16 and R_U32 are tagged unsigned fields, R_U64 a tagged double one. -/
theorem unsignedCompositesReturnTheNextBits : Obligations.UnsignedCompositesReturnTheNextBits := by
  unfold Obligations.UnsignedCompositesReturnTheNextBits
  intro s id r hat hr
  refine ⟨fun hb hm => ?_, fun hb hm => ?_, fun hb hm => ?_, fun hb hm => ?_⟩
  · exact unsigned_reads hat hr (by decide) .uint8 (by decide) (by decide) hb hm
  · exact unsigned_reads hat hr (by decide) .uint16 (by decide) (by decide) hb hm
  · exact unsigned_reads hat hr (by decide) .uint32 (by decide) (by decide) hb hm
  · exact readerCommand_open_done hat hr (by decide) (getDouble_spec r hr.1 hb hm)

/-- Settles O37: R_I16 and R_I32 are tagged sign-magnitude fields. -/
theorem signedCompositesReturnTheNextValue : Obligations.SignedCompositesReturnTheNextValue := by
  unfold Obligations.SignedCompositesReturnTheNextValue
  intro s id r hat hr
  refine ⟨fun hb hm => ?_, fun hb hm => ?_⟩
  · exact signed_reads hat hr (by decide) .int16 (by decide) (by decide) hb hm
  · exact signed_reads hat hr (by decide) .int32 (by decide) (by decide) hb hm

/-! ## The registers after a plain read -/

/-- R_BITS on a plain unfaulted reader is one primitive read. -/
theorem exec_rBits_of_pread {s : State} {id n : Nat} {r r' : Reader} {x : Word} (hat : s.AtReader id r)
    (hd : r.debug = false) (hf : r.fault = 0#8) (h1 : 1 ≤ n) (h2 : n ≤ 32) (e : r.pread n = .done x r') :
    exec (.rBits n) s = .next (s.withReader id r' (unsignedResponse x)) := by
  rw [exec, execRBits_legal h1 h2]
  exact readerCommand_endsIn hat hf (by decide) (.inl (by rw [getUnsigned_plain hd, e, primBind]))

/-- Settles O40, by the primitive read within the held bits. -/
theorem readsWithinHeldBitsPullNothing : Obligations.ReadsWithinHeldBitsPullNothing := by
  unfold Obligations.ReadsWithinHeldBitsPullNothing
  intro s id r n hat hr hd h1 h2 hheld hb
  exact exec_rBits_of_pread hat hd hr.2 h1 h2 (pread_held r n hr.1 hb hheld)

/-- The end of a straddling read leaves the filled reader less the bits that were still needed, all it held when the
physical data ran out (41_reader.md R105, R108). -/
theorem readFresh_done (k need : Nat) (first : Word) (f : Reader) (hf : f.held ≤ 32) :
    ∃ x, f.readFresh k need first =
      .done x { f with held := f.held - need, tell := f.tell + k, budget := f.budget - k } := by
  unfold Reader.readFresh
  by_cases hneed : need ≤ f.held
  · rw [if_pos hneed, consume_ok _ _ _ (Nat.sub_le_of_le_add (Nat.le_add_right_of_le hf))]
    exact ⟨_, rfl⟩
  · rw [if_neg hneed, consume_ok _ _ _ (Nat.zero_le _), Nat.sub_eq_zero_of_le (Nat.le_of_not_le hneed)]
    exact ⟨_, rfl⟩

/-- A read past the held bits fills once (41_reader.md R105 to R107). -/
theorem pread_straddle (r : Reader) (k : Nat) (hb : k ≤ r.budget) (hk : r.held < k) :
    ∃ x, r.pread k = .done x { r.fill with
      held := r.fill.held - (k - r.held), tell := r.fill.tell + k, budget := r.fill.budget - k } := by
  have hfill : r.fill.held ≤ 32 := by
    rw [fill_spec]
    exact Nat.mul_le_mul_left 8 (Nat.min_le_left 4 _)
  rw [Reader.pread, if_neg (by omega), if_neg (by omega)]
  exact readFresh_done k _ _ r.fill hfill

/-- Settles O41: the primitive read fills once, and its value is that of any read. -/
theorem straddlingReadsFillOnce : Obligations.StraddlingReadsFillOnce := by
  unfold Obligations.StraddlingReadsFillOnce
  rintro s id r n got hat hr hd h1 h2 hheld hb rfl
  obtain ⟨r', e, -⟩ := pread_spec r n hr.1 h1 h2 hb
  obtain ⟨x, e'⟩ := pread_straddle r n hb hheld
  obtain ⟨-, rfl⟩ := Prim.done.inj (e.symm.trans e')
  refine ⟨_, exec_rBits_of_pread hat hd hr.2 h1 h2 e, ?_⟩
  rw [fill_spec]
  exact ⟨rfl, rfl, rfl, rfl⟩

end Sys2Proof.Machine
end

section
/-! Runs of primitive reads: within the budget they return the source's bits in order (O46), and the read that crosses
the budget is the EOF_ERROR (O47). The typed reader commands are such runs, with a tag compared on the way (O38). -/

namespace Sys2Proof.Machine

/-! ## Primitive reads one after another -/

/-- Every read has a legal count (41_reader.md R105). -/
abbrev LegalReads (ks : List Nat) : Prop := ∀ k ∈ ks, 1 ≤ k ∧ k ≤ 32

/-- The values of reads one after another from bit `t` of the source's stream (41_reader.md R121). -/
def srcWords (src : List Byte) (t : Nat) : List Nat → List Word
  | [] => []
  | k :: ks => bitsWord (srcBits src t k) :: srcWords src (t + k) ks

section
variable (src : List Byte)

theorem length_srcWords (ks : List Nat) (t : Nat) : (srcWords src t ks).length = ks.length := by
  induction ks generalizing t with
  | nil => rfl
  | cons k ks ih => rw [srcWords, List.length_cons, ih, List.length_cons]

/-- The values' bits are the stream's, none skipped and none repeated (41_reader.md R121). -/
theorem flatten_srcWords {ks : List Nat} (hl : LegalReads ks) (t : Nat) :
    (List.zipWith fieldBits (srcWords src t ks) ks).flatten = srcBits src t ks.sum := by
  induction ks generalizing t with
  | nil => rfl
  | cons k ks ih =>
    obtain ⟨⟨-, hk⟩, hl⟩ := List.forall_mem_cons.mp hl
    have hbits := fieldBits_bitsWord (srcBits src t k) (by rwa [length_srcBits])
    rw [length_srcBits] at hbits
    rw [srcWords, List.zipWith_cons_cons, List.flatten_cons, hbits, ih hl, List.sum_cons, srcBits_append]

theorem srcWords_lt {ks : List Nat} (hl : LegalReads ks) (t : Nat) :
    ∀ p ∈ List.zip (srcWords src t ks) ks, p.1.toNat < 2 ^ p.2 := by
  induction ks generalizing t with
  | nil => exact nofun
  | cons k ks ih =>
    obtain ⟨⟨-, hk⟩, hl⟩ := List.forall_mem_cons.mp hl
    rw [srcWords, List.zip_cons_cons, List.forall_mem_cons]
    refine ⟨?_, ih hl _⟩
    have hlt := bitsValue_lt (srcBits src t k)
    rwa [← toNat_bitsWord _ (by rwa [length_srcBits]), length_srcBits] at hlt

end

section
variable {ks : List Nat} {r : Reader}

theorem preads_append (ks more : List Nat) (r : Reader) :
    r.preads (ks ++ more) = primBind (r.preads ks) fun xs r1 =>
      primBind (r1.preads more) fun ys r2 => .done (xs ++ ys) r2 := by
  induction ks generalizing r with
  | nil => cases h : r.preads more <;> simp [Reader.preads, primBind, h]
  | cons k ks ih => simp only [List.cons_append, Reader.preads, primBind_assoc, primBind_done, ih]

/-- Legal reads that fit the budget return the next bits of the stream. -/
theorem preads_spec (hl : LegalReads ks) (h : r.Ok) (hb : ks.sum ≤ r.budget) :
    ∃ r', r.preads ks = .done (srcWords r.src r.tell ks) r' ∧ r.Consumed r' ks.sum ∧ (ks = [] → r' = r) := by
  induction ks generalizing r with
  | nil => exact ⟨r, rfl, ⟨rfl, rfl, h, rfl, rfl, rfl, rfl⟩, fun _ => rfl⟩
  | cons k ks ih =>
    obtain ⟨⟨hk, hk2⟩, hl⟩ := List.forall_mem_cons.mp hl
    rw [List.sum_cons] at hb
    obtain ⟨r1, e1, h1⟩ := pread_spec r k h hk hk2 (by omega)
    have ⟨htell, hbudget, hok, _, _, hsrc, _⟩ := h1
    obtain ⟨r2, e2, h2, -⟩ := ih hl hok (by omega)
    rw [hsrc, htell] at e2
    refine ⟨r2, ?_, (List.sum_cons (l := ks)) ▸ h1.trans h2, nofun⟩
    simp only [Reader.preads, e1, e2, primBind, srcWords]

/-- Behind legal reads that fit the budget, a read that crosses it ends the run, whatever its count (41_reader.md R104,
R120). -/
theorem preads_crossing (hl : LegalReads ks) (h : r.Ok) (hb : ks.sum ≤ r.budget) {k : Nat}
    (hcross : r.budget < ks.sum + k) (more : List Nat) :
    ∃ r', r.preads (ks ++ k :: more) = .raised (errorResponse .eofError (dataPair k (r.tell + ks.sum))) r' ∧
      r.Consumed r' ks.sum ∧ (ks = [] → r' = r) := by
  obtain ⟨r', e, hc, hnil⟩ := preads_spec hl h hb
  have ⟨htell, hbudget, _⟩ := hc
  refine ⟨r', ?_, hc, hnil⟩
  rw [preads_append, e]
  simp only [primBind, Reader.preads, pread_eof r' k (by omega), htell]

end

/-- Settles O46: the reads of a new reader start at bit 0. -/
theorem readerStreamLaw : Obligations.ReaderStreamLaw := by
  unfold Obligations.ReaderStreamLaw
  intro len src debug ks hlen hl hsum
  obtain ⟨r, e, ⟨htell, -⟩, -⟩ := preads_spec hl (Reader.construct_ok src debug hlen) hsum
  exact ⟨_, r, e, htell.trans (Nat.zero_add _), length_srcWords src ks 0, flatten_srcWords src hl 0,
    srcWords_lt src hl 0⟩

/-- Settles O47: the budget of a new reader is L. -/
theorem declaredLengthDecidesEof : Obligations.DeclaredLengthDecidesEof := by
  unfold Obligations.DeclaredLengthDecidesEof
  intro len src debug ks k more hlen hl hsum hcross
  have htell0 : (Reader.construct len src debug).tell + ks.sum = ks.sum := Nat.zero_add _
  obtain ⟨r, e, ⟨htell, -⟩, -⟩ := preads_crossing hl (Reader.construct_ok src debug hlen) hsum hcross more
  rw [htell0] at e htell
  exact ⟨r, e, htell⟩

/-! ## Typed commands as runs of primitive reads -/

/-- The comparison at the end of a tag check, of the two parts read (42_debug_tags.md R132); a plain reader has read
none. -/
def compareTag (t : TagType) (width : Nat) (observed : List Word) (r : Reader) : Prim Reader Unit :=
  match observed with
  | [ot, ow] =>
    if ot = tagCode t ∧ ow = BitVec.ofNat 32 width then .done () r
    else raiseError .debugTagMismatch (dataTags ot ow (tagCode t) (BitVec.ofNat 32 width)) r
  | _ => .done () r

/-- A tag, then primitive reads, then the answer their values make: what every typed reader command does behind its
prologue. -/
def Reader.getFields (t : TagType) (width : Nat) (counts : List Nat) (answer : List Word → Response) (r : Reader) :
    Prim Reader Response :=
  primBind (r.checkTag t width) fun _ r1 => primBind (r1.preads counts) fun xs r2 => .done (answer xs) r2

section
variable (r : Reader) (t : TagType)

theorem checkTag_eq_preads (width : Nat) :
    r.checkTag t width = primBind (r.preads (tagCounts r.debug)) (compareTag t width) := by
  unfold Reader.checkTag tagCounts
  split
  · simp only [Reader.preads, primBind_assoc, primBind_done, compareTag]
  · rfl

/-- A comparison that passes leaves the reader as it is. -/
theorem compareTag_done {width : Nat} {observed : List Word} {r r' : Reader}
    (h : compareTag t width observed r = .done () r') : r' = r := by
  unfold compareTag at h
  split at h
  · split at h <;> cases h
    rfl
  · cases h
    rfl

theorem getUnsigned_eq_getFields (k : Nat) :
    r.getUnsigned t k = r.getFields t k [k] fun xs => unsignedResponse (xs.getD 0 0#32) := by
  simp only [Reader.getUnsigned, Reader.getFields, Reader.preads, primBind_assoc, primBind_done]
  rfl

theorem getSigned_eq_getFields (k : Nat) :
    r.getSigned t k = r.getFields t k [1, k - 1] fun xs => signedResponse (sdec (xs.getD 0 0#32) (xs.getD 1 0#32)) := by
  simp only [Reader.getSigned, Reader.getFields, Reader.preads, primBind_assoc, primBind_done]
  rfl

theorem getDouble_eq_getFields :
    r.getDouble = r.getFields .uint64 64 [32, 32] fun xs =>
      okResponse (xs.getD 0 0#32 ++ xs.getD 1 0#32 : BitVec 64) := by
  simp only [Reader.getDouble, Reader.getFields, Reader.preads, primBind_assoc, primBind_done]
  rfl

end

/-- One primitive after another raises what the first raises, or what the second raises behind it. -/
theorem primBind_raised {σ α β : Type} {p : Prim σ α} {f : α → σ → Prim σ β} {resp : Response} {u : σ}
    (h : primBind p f = .raised resp u) : p = .raised resp u ∨ ∃ a v, p = .done a v ∧ f a v = .raised resp u := by
  cases p with
  | done a v => exact .inr ⟨a, v, rfl, h⟩
  | raised resp' v => cases h; exact .inl rfl
  | stopped f => cases h

/-- A typed command fails as the run of its primitive reads does, the tag's and its own, provided that a tag that is
read is the expected one. -/
theorem getFields_raised {r r' : Reader} {t : TagType} {width : Nat} {counts : List Nat} {resp : Response}
    (answer : List Word → Response)
    (htag : ∀ xs r1, r.preads (tagCounts r.debug) = .done xs r1 → ∃ r2, r.checkTag t width = .done () r2)
    (e : r.preads (tagCounts r.debug ++ counts) = .raised resp r') :
    r.getFields t width counts answer = .raised resp r' := by
  rw [checkTag_eq_preads] at htag
  rw [Reader.getFields, checkTag_eq_preads]
  rw [preads_append] at e
  obtain e1 | ⟨xs, r1, e1, e⟩ := primBind_raised e
  · rw [e1]
    rfl
  · obtain ⟨r2, hpass⟩ := htag xs r1 e1
    rw [e1, primBind_done] at hpass
    obtain rfl := compareTag_done t hpass
    obtain e2 | ⟨ys, r3, -, e⟩ := primBind_raised e
    · rw [e1, primBind_done, hpass, primBind_done, e2]
      rfl
    · cases e

/-- A command is a run of legal primitive reads, of these counts behind this tag. -/
def IsReadRun (i : Instr) (t : TagType) (width : Nat) (counts : List Nat) : Prop :=
  ∃ op answer, isReaderOp op = true ∧ LegalReads counts ∧ width < 128 ∧
    ∀ s, exec i s = readerCommand op (Reader.getFields t width counts answer) s

section
variable {i : Instr} {op : BitVec 8} {t : TagType} {k width : Nat} {counts : List Nat}

theorem IsReadRun.of_body {body : Reader → Prim Reader Response} {answer : List Word → Response}
    (hop : isReaderOp op = true) (hl : LegalReads counts) (hw : width < 128)
    (hbody : ∀ r, body r = r.getFields t width counts answer) (he : ∀ s, exec i s = readerCommand op body s) :
    IsReadRun i t width counts :=
  ⟨op, answer, hop, hl, hw, fun s => (he s).trans (congrArg (readerCommand op · s) (funext hbody))⟩

theorem IsReadRun.unsigned (hop : isReaderOp op = true) (hk : 1 ≤ k) (hk2 : k ≤ 32)
    (he : ∀ s, exec i s = readerCommand op (fun r => r.getUnsigned t k) s) : IsReadRun i t k [k] :=
  .of_body hop (List.forall_mem_singleton.mpr ⟨hk, hk2⟩) (by omega) (fun r => getUnsigned_eq_getFields r t k) he

theorem IsReadRun.signed (hop : isReaderOp op = true) (hk : 2 ≤ k) (hk2 : k ≤ 32)
    (he : ∀ s, exec i s = readerCommand op (fun r => r.getSigned t k) s) : IsReadRun i t k [1, k - 1] := by
  refine .of_body hop ?_ (by omega) (fun r => getSigned_eq_getFields r t k) he
  simp only [LegalReads, List.forall_mem_cons]
  exact ⟨by decide, by omega, nofun⟩

end

/-- The typed reader commands with a legal count are such runs. -/
theorem isReadRun_of_readerField {i : Instr} {t : TagType} {width : Nat} {counts : List Nat}
    (h : readerField i = some (t, width, counts)) : IsReadRun i t width counts := by
  cases i with
  | rBits n =>
    obtain ⟨⟨h1, h2⟩, ⟨⟩⟩ := Option.ite_none_right_eq_some.mp h
    exact .unsigned (by decide) h1 h2 fun _ => execRBits_legal h1 h2
  | rSbits n =>
    obtain ⟨⟨h1, h2⟩, ⟨⟩⟩ := Option.ite_none_right_eq_some.mp h
    exact .signed (by decide) h1 h2 fun _ => execRSbits_legal h1 h2
  | rU8 => cases h; exact .unsigned (by decide) (by decide) (by decide) fun _ => rfl
  | rU16 => cases h; exact .unsigned (by decide) (by decide) (by decide) fun _ => rfl
  | rU32 => cases h; exact .unsigned (by decide) (by decide) (by decide) fun _ => rfl
  | rI16 => cases h; exact .signed (k := 16) (by decide) (by decide) (by decide) fun _ => rfl
  | rI32 => cases h; exact .signed (k := 32) (by decide) (by decide) (by decide) fun _ => rfl
  | rU64 =>
    cases h
    exact .of_body (op := 0x28#8) (by decide) (by decide) (by decide) getDouble_eq_getFields fun _ => rfl
  | _ => cases h

/-! ## The first read that does not fit -/

theorem legalReads_tagCounts (debug : Bool) : LegalReads (tagCounts debug) := by cases debug <;> decide

theorem sum_tagCounts (debug : Bool) : (tagCounts debug).sum = tagWidth debug := by cases debug <;> rfl

/-- Counts that add up past a bound have a first one that crosses it. -/
theorem exists_crossing {ks : List Nat} {b : Nat} (h : b < ks.sum) :
    ∃ pre k post, ks = pre ++ k :: post ∧ pre.sum ≤ b ∧ b < pre.sum + k := by
  induction ks generalizing b with
  | nil => exact absurd h (Nat.not_lt_zero b)
  | cons k ks ih =>
    rw [List.sum_cons] at h
    by_cases hk : k ≤ b
    · obtain ⟨pre, j, post, rfl, hle, hlt⟩ := ih (b := b - k) (by omega)
      exact ⟨k :: pre, j, post, rfl, by rw [List.sum_cons]; omega, by rw [List.sum_cons]; omega⟩
    · exact ⟨[], k, ks, rfl, Nat.zero_le b, by rw [List.sum_nil]; omega⟩

/-- Legal reads past the budget are the EOF_ERROR of the first that does not fit (41_reader.md R120). -/
theorem preads_eof {ks : List Nat} (hl : LegalReads ks) {r : Reader} (h : r.Ok) (hb : r.budget < ks.sum) :
    ∃ pre k post r', ks = pre ++ k :: post ∧ pre.sum ≤ r.budget ∧ r.budget < pre.sum + k ∧
      r.preads ks = .raised (errorResponse .eofError (dataPair k (r.tell + pre.sum))) r' ∧
      r.Consumed r' pre.sum ∧ (pre = [] → r' = r) := by
  obtain ⟨pre, k, post, rfl, hle, hlt⟩ := exists_crossing hb
  obtain ⟨r', e, hc, hnil⟩ := preads_crossing (fun j hj => hl j (List.mem_append_left _ hj)) h hle hlt post
  exact ⟨pre, k, post, r', rfl, hle, hlt, e, hc, hnil⟩

/-- Legal reads that succeed fitted the budget. -/
theorem sum_le_budget_of_preads_done {ks : List Nat} (hl : LegalReads ks) {r r' : Reader} (h : r.Ok) {xs : List Word}
    (e : r.preads ks = .done xs r') : ks.sum ≤ r.budget := by
  by_contra hb
  obtain ⟨pre, k, post, r1, -, -, -, eof, -⟩ := preads_eof hl h (not_le.mp hb)
  cases e.symm.trans eof

/-- Settles O38: a typed command is a run of primitive reads, the first of which that does not fit ends it. -/
theorem eofKeepsEarlierReads : Obligations.EofKeepsEarlierReads := by
  unfold Obligations.EofKeepsEarlierReads
  intro s id r i t width counts hat ⟨hok, hf⟩ hi hb hmatch
  obtain ⟨op, answer, hop, hl, hwidth, he⟩ := isReadRun_of_readerField hi
  have htags := legalReads_tagCounts r.debug
  have htag (xs : List Word) (r1 : Reader) (e : r.preads (tagCounts r.debug) = .done xs r1) :
      ∃ r2, r.checkTag t width = .done () r2 := by
    have hfit := sum_le_budget_of_preads_done htags hok e
    rw [sum_tagCounts] at hfit
    obtain ⟨r2, -, hpass, -⟩ := checkTag_spec r t width hok hwidth hfit
    exact ⟨r2, hpass (hmatch hfit)⟩
  obtain ⟨pre, k, post, r', hsplit, hle, hlt, e, hc, hnil⟩ :=
    preads_eof (List.forall_mem_append.mpr ⟨htags, hl⟩) hok (by rwa [List.sum_append, sum_tagCounts])
  refine ⟨pre, k, post, r', hsplit, hle, hlt, ?_, hc, hnil⟩
  rw [he]
  exact readerCommand_endsIn hat hf hop (.inr (getFields_raised answer htag e))

end Sys2Proof.Machine
end

section
/-! Round trips: a field written, closed and read back by a reader over the writer's logical stream, unsigned (O48) and
sign-magnitude (O49). -/

namespace Sys2Proof.Machine

/-! ## The closed stream as a source -/

/-- The committed bits of a writer are the first bits of a source that holds its logical stream (41_reader.md R122). -/
theorem srcBits_out (w : Writer) : srcBits w.out 0 w.tell = w.stream := by
  apply List.map_congr_left
  intro i hi
  rw [List.mem_range] at hi
  have hi8 : i < 8 * ceilDiv w.tell 8 := by unfold ceilDiv; omega
  have hlen : i / 8 < w.out.length := by
    simp only [Writer.out, List.length_map, List.length_range]
    omega
  have hbit := getLsbD_out w hi8
  rw [List.getD_eq_getElem _ _ hlen] at hbit
  simp only [Nat.zero_add, srcBit, List.getElem?_eq_getElem hlen, hbit]

/-! ## Values of the fields -/

/-- A magnitude that fits its bits is the number they stand for. -/
theorem bitsValue_fieldBits {v : Word} {k : Nat} (hk : k ≤ 32) (hv : v.toNat < 2 ^ k) :
    bitsValue (fieldBits v k) = v.toNat := by
  have hle : 2 ^ k ≤ 2 ^ 32 := Nat.pow_le_pow_right (by decide) hk
  rw [← toNat_bitsWord _ (by rwa [length_fieldBits]), bitsWord_fieldBits v k hk, BitVec.toNat_and, mask,
    BitVec.toNat_ofNat, Nat.mod_eq_of_lt (by omega), Nat.and_two_pow_sub_one_eq_mod, Nat.mod_eq_of_lt hv]

theorem signedBits_eq (v : Int) (k : Nat) :
    signedBits v k = decide (v < 0) :: fieldBits (sencMagnitude v k) (k - 1) := rfl

theorem length_signedBits (v : Int) {k : Nat} (hk : 1 ≤ k) : (signedBits v k).length = k := by
  rw [signedBits_eq, List.length_cons, length_fieldBits, Nat.sub_add_cancel hk]

/-- In the range of its count a signed value is its field's (40_writer.md R83, 41_reader.md R109). -/
theorem signedValue_signedBits {v : Int} {k : Nat} (hk : k ≤ 32) (hv : v.natAbs < 2 ^ (k - 1)) :
    signedValue (signedBits v k) = v := by
  have hmag : (sencMagnitude v k).toNat = v.natAbs := by rw [toNat_sencMagnitude v hk, Nat.mod_eq_of_lt hv]
  have hbits := bitsValue_fieldBits (v := sencMagnitude v k) (k := k - 1) (by omega) (hmag ▸ hv)
  rw [signedBits_eq, signedValue, hbits, hmag]
  simp only [decide_eq_true_eq]
  split <;> omega

/-! ## There and back -/

section
variable {cap k : Nat} {debug : Bool} {pair : Option Nat} {fill : List Byte} {t : TagType} {field : List Bool}

/-- What a new writer has committed, tag and field, is what its closed stream starts with. -/
theorem srcBits_closed {w : Writer}
    (h : (Writer.construct cap debug pair fill).Appended w (tagBits debug t k ++ field)) :
    ∃ w', w.close = .done () w' ∧ srcBits w'.out 0 (tagWidth debug) = tagBits debug t k ∧
      srcBits w'.out (tagWidth debug) field.length = field := by
  obtain ⟨hstream, htell, -, -, hok, -⟩ := h
  obtain ⟨w', e, -, -, -, -, -, -, -, -, -, -, hout, -⟩ := close_spec w hok
  have htell0 : (Writer.construct cap debug pair fill).tell = 0 := rfl
  rw [stream_construct, List.nil_append] at hstream
  rw [htell0, Nat.zero_add, List.length_append, length_tagBits] at htell
  have hbits := srcBits_out w
  rw [hstream, htell, srcBits_append, Nat.zero_add, ← hout] at hbits
  exact ⟨w', e, List.append_inj hbits (by rw [length_srcBits, length_tagBits])⟩

/-- A command body that writes a tagged field, and one that answers `resp` on every reader that finds that tag and field
next: the second answers the first's closed stream (41_reader.md R122). -/
theorem written_field_reads_back {put : Writer → Prim Writer Response} {get : Reader → Prim Reader Response}
    {resp : Response} (hfield : field.length = k)
    (hput : ∃ w, put (Writer.construct cap debug pair fill) = .done (okResponse 0#64) w ∧
      (Writer.construct cap debug pair fill).Appended w (tagBits debug t k ++ field))
    (hget : ∀ r : Reader, r.Ok → tagWidth r.debug + k ≤ r.budget → r.TagMatches t k →
      srcBits r.src (r.tell + tagWidth r.debug) k = field → ∃ r', get r = .done resp r') :
    ∃ w w', put (Writer.construct cap debug pair fill) = .done (okResponse 0#64) w ∧ w.close = .done () w' ∧
      ∀ len, tagWidth debug + k ≤ len → len ≤ 2 ^ 32 - 1 →
        ∃ r, get (Reader.construct len w'.out debug) = .done resp r := by
  obtain ⟨w, e, happended⟩ := hput
  obtain ⟨w', e', htag, hbits⟩ := srcBits_closed happended
  refine ⟨w, w', e, e', fun len hlen hmax => hget _ (Reader.construct_ok w'.out debug hmax) hlen htag ?_⟩
  have htell0 : (Reader.construct len w'.out debug).tell = 0 := rfl
  rw [htell0, Nat.zero_add, ← hfield]
  exact hbits

end

/-- A new writer has room for what its capacity holds. -/
theorem construct_room {cap n k : Nat} (debug : Bool) (pair : Option Nat) (fill : List Byte) (h : n + k ≤ 8 * cap) :
    (Writer.construct cap debug pair fill).tell + n + k ≤ 8 * (Writer.construct cap debug pair fill).cap := by
  rw [show (Writer.construct cap debug pair fill).tell = 0 from rfl, Nat.zero_add]
  exact h

/-- Settles O48: the word of a field's bits is its value masked. -/
theorem unsignedRoundTrip : Obligations.UnsignedRoundTrip := by
  unfold Obligations.UnsignedRoundTrip
  intro cap debug pair fill t v k hmul hmax hk hk2 hroom
  have hok := Writer.construct_ok debug pair fill ⟨hmul, hmax⟩
  refine written_field_reads_back (length_fieldBits v k)
    (putUnsigned_spec _ t v k hok hk hk2 (construct_room debug pair fill hroom)) fun r hr hb hm hbits => ?_
  obtain ⟨r', e, -⟩ := getUnsigned_spec r t k hr hk hk2 hb hm
  rw [hbits, bitsWord_fieldBits v k hk2] at e
  exact ⟨r', e⟩

/-- Settles O49: in range the magnitude is not reduced. -/
theorem signedRoundTrip : Obligations.SignedRoundTrip := by
  unfold Obligations.SignedRoundTrip
  intro cap debug pair fill t v k hmul hmax hk hk2 hlo hhi hroom
  have hok := Writer.construct_ok debug pair fill ⟨hmul, hmax⟩
  have habs := (natAbs_lt_two_pow_iff v (k - 1)).mpr ⟨hlo, hhi⟩
  refine written_field_reads_back (length_signedBits v (by omega))
    (putSigned_spec _ t v k hok hk hk2 (construct_room debug pair fill hroom)) fun r hr hb hm hbits => ?_
  obtain ⟨r', e, -⟩ := getSigned_spec r t k hr hk hk2 hb hm
  rw [hbits, signedValue_signedBits hk2 habs] at e
  exact ⟨r', e⟩

end Sys2Proof.Machine
end

section
/-! A debug tag that is not the expected one (O39). -/

namespace Sys2Proof.Machine

/-- A typed command raises what its tag check raises: no read of its field follows (42_debug_tags.md R134). -/
theorem getFields_of_checkTag_raised {r r' : Reader} {t : TagType} {width : Nat} {resp : Response} (counts : List Nat)
    (answer : List Word → Response) (e : r.checkTag t width = .raised resp r') :
    r.getFields t width counts answer = .raised resp r' := by
  rw [Reader.getFields, e]
  rfl

/-- Settles O39: a typed command is a run of reads behind a tag check, which raises the mismatch behind its own reads. -/
theorem wrongTagsAreMismatches : Obligations.WrongTagsAreMismatches := by
  unfold Obligations.WrongTagsAreMismatches
  intro s id r i t width counts hat ⟨hok, hf⟩ hd hi hb hmismatch
  obtain ⟨op, answer, hop, -, hwidth, he⟩ := isReadRun_of_readerField hi
  have htag : tagWidth r.debug = 11 := by rw [hd]; rfl
  obtain ⟨r', hc, -, hraise⟩ := checkTag_spec r t width hok hwidth (htag ▸ hb)
  refine ⟨r', ?_, htag ▸ hc⟩
  rw [he]
  exact readerCommand_endsIn hat hf hop (.inr (getFields_of_checkTag_raised counts answer (hraise hmismatch)))

end Sys2Proof.Machine
end

section
/-! Faulted units and closed writers (O12, O13): the prologue of a faulted unit answers every command, and a closed
writer's takes the use-after-close fault; a W_COPY that passes its writer's prologue may still find its reader faulted. -/

namespace Sys2Proof.Machine

section
variable {s : State} {id : Nat} {w : Writer} {r : Reader} {op : BitVec 8}
  {fw : Nat → Writer → Host.Outcome State Fault Refusal} {fr : Nat → Reader → Host.Outcome State Fault Refusal}

/-! ## Faulted units -/

theorem present_writer_faulted (hs : s.Ok) (hat : s.AtWriter id w) (hf : w.fault ≠ 0#8) :
    present op s fw fr = .next (s.respond (faultedResponse w.fault)) := by
  rw [present_writer op s id w hat, Writer.prologue, if_pos hf]
  dsimp only
  rw [setWriter_self s id w hs.1 hat.2]

theorem present_reader_faulted (hs : s.Ok) (hat : s.AtReader id r) (hf : r.fault ≠ 0#8) :
    present op s fw fr = .next (s.respond (faultedResponse r.fault)) := by
  rw [present_reader op s id r hat, Reader.prologue, if_pos hf]
  dsimp only
  rw [setReader_self s id r hs.2.1 hat.2]

theorem copyFromPair_faulted {rid : Nat} (n : Nat) (hp : w.pair = some rid) (hr : s.reader? rid = some r)
    (hf : r.fault ≠ 0#8) : copyFromPair n id w s = .next (s.respond (faultedResponse r.fault)) := by
  simp only [copyFromPair, hp, hr, if_pos hf]

/-! ## Closed writers -/

theorem Writer.prologue_closed (hop : isWriterOp op = true) (hp : op = 0x0D#8 → w.pair ≠ none)
    (hrun : runsAfterClose op = false) (hf : w.fault = 0#8) (hc : w.closed = true) :
    w.prologue op = .ended (errorResponse .faultUseAfterClose 0#64) { w with fault := 0x82#8 } := by
  rw [Writer.prologue, if_neg (not_not.mpr hf), if_neg (by simp [hop]), if_neg (fun h => hp h.1 h.2), if_pos ⟨hc, hrun⟩]
  rfl

end

theorem eq_wCopy_of_op {i : Instr} (h : i.op = 0x0D#8) : ∃ n, i = .wCopy n := by
  cases i with
  | wCopy n => exact ⟨n, rfl⟩
  | _ => cases h

/-- The only commands a closed writer executes are W_TELL and W_OCTETS (10_state.md R25). -/
theorem runsAfterClose_op {i : Instr} (htell : i ≠ .wTell) (hoctets : i ≠ .wOctets) : runsAfterClose i.op = false := by
  cases i with
  | wTell => exact absurd rfl htell
  | wOctets => exact absurd rfl hoctets
  | _ => rfl

/-- Settles O12: each unit's prologue looks at FAULT first, and W_COPY at its reader's before it copies. -/
theorem faultedUnitsAnswerFaulted : Obligations.FaultedUnitsAnswerFaulted := by
  unfold Obligations.FaultedUnitsAnswerFaulted
  intro s hs
  refine ⟨fun id w i hat hf => ?_, fun id w op hat hf => present_writer_faulted hs hat hf, fun id r i hat hf => ?_,
    fun id r op hat hf => present_reader_faulted hs hat hf, fun id w rid r n hat hf hc hp hr hrf => ?_⟩
  · obtain ⟨fw, fr, e⟩ := exec_eq_present i s
    exact e.trans (present_writer_faulted hs hat hf)
  · obtain ⟨fw, fr, e⟩ := exec_eq_present i s
    exact e.trans (present_reader_faulted hs hat hf)
  · have hpass : w.prologue 0x0D#8 = .pass := writer_prologue_pass w _ hf rfl (by simp [hp]) (by simp [hc])
    rw [exec, execWCopy, present_writer _ s id w hat, hpass]
    exact copyFromPair_faulted n hp hr hrf

/-- Settles O13: behind FAULT, the unit's own commands and the pair, the prologue looks at CLOSED (60_exceptions.md
R150). -/
theorem closedWritersTakeUseAfterClose : Obligations.ClosedWritersTakeUseAfterClose := by
  unfold Obligations.ClosedWritersTakeUseAfterClose
  intro s i id w hat hf hc hi htell hoctets hpair
  have hpaired (hop : i.op = 0x0D#8) : w.pair ≠ none := by
    obtain ⟨n, hn⟩ := eq_wCopy_of_op hop
    exact hpair n hn
  obtain ⟨fw, fr, e⟩ := exec_eq_present i s
  rw [e, present_writer _ s id w hat,
    Writer.prologue_closed ((isWriterOp_op i).trans hi) hpaired (runsAfterClose_op htell hoctets) hf hc]
  rfl

end Sys2Proof.Machine
end

section
/-! What primitives and command bodies end with on sound, unfaulted units: neither a response nor a FAULT register that
reports a violated accumulator invariant (60_exceptions.md R146). It serves the same of every command (O54). -/

namespace Sys2Proof.Machine

/-! ## What a primitive ends with -/

/-- `D` holds of the result and the units of a primitive that succeeds, `E` of the response it raises and the units it
leaves then. -/
inductive Prim.Ends {σ α : Type} (E : Response → σ → Prop) (D : α → σ → Prop) : Prim σ α → Prop where
  | done {a : α} {u : σ} (h : D a u) : Prim.Ends E D (.done a u)
  | raised {resp : Response} {u : σ} (h : E resp u) : Prim.Ends E D (.raised resp u)
  | stopped (f : Fault) : Prim.Ends E D (.stopped f)

section
variable {σ τ α β : Type} {E : Response → σ → Prop} {D : α → σ → Prop} {p : Prim σ α}

theorem Prim.Ends.bind (h : p.Ends E D) {T : β → σ → Prop} {f : α → σ → Prim σ β}
    (hf : ∀ a u, D a u → (f a u).Ends E T) : (primBind p f).Ends E T := by
  cases h with
  | done h => exact hf _ _ h
  | raised h => exact .raised h
  | stopped f => exact .stopped f

theorem Prim.Ends.lift (h : p.Ends E D) {E' : Response → τ → Prop} {D' : α → τ → Prop} {g : σ → τ}
    (hE : ∀ resp u, E resp u → E' resp (g u)) (hD : ∀ a u, D a u → D' a (g u)) : (primLift g p).Ends E' D' := by
  cases h with
  | done h => exact .done (hD _ _ h)
  | raised h => exact .raised (hE _ _ h)
  | stopped f => exact .stopped f

theorem Prim.Ends.finish_next {p : Prim σ Response} (h : p.Ends E E) {commit : σ → State} {t : State}
    (hnext : finish commit p = .next t) : ∃ resp u, E resp u ∧ t = (commit u).respond resp := by
  cases h with
  | done h => cases hnext; exact ⟨_, _, h, rfl⟩
  | raised h => cases hnext; exact ⟨_, _, h, rfl⟩
  | stopped f => cases hnext

end

/-! ## Writers -/

/-- A sound writer that is not faulted, closed or not. -/
abbrev Writer.Unfaulted (w : Writer) : Prop := w.Ok ∧ w.fault = 0#8

/-- Neither the response nor the writer reports a violated accumulator invariant (60_exceptions.md R146). -/
abbrev Writer.Spared (resp : Response) (w : Writer) : Prop :=
  resp.status ≠ .faultAccumulatorInvariant ∧ w.fault ≠ 0x80#8

section
variable {w : Writer} (h : w.Unfaulted)
include h

theorem Writer.Unfaulted.spared {resp : Response} (hs : resp.status ≠ .faultAccumulatorInvariant) :
    Writer.Spared resp w := ⟨hs, by rw [h.2]; decide⟩

theorem pwrite_ends (v : Word) {k : Nat} (hk : 1 ≤ k) (hk2 : k ≤ 32) :
    (w.pwrite v k).Ends Writer.Spared fun _ w' => w'.Unfaulted := by
  by_cases hroom : w.tell + k ≤ 8 * w.cap
  · obtain ⟨w', e, -, -, -, -, hok, ⟨-, -, -, -, hf⟩, -⟩ := pwrite_spec w v k h.1 hk hk2 hroom
    rw [e]
    exact .done ⟨hok, hf.trans h.2⟩
  · rw [pwrite_overflow w v k (by omega)]
    exact .raised ⟨nofun, by simp⟩

theorem pwrites_ends {fields : List (Word × Nat)} (hl : LegalCounts fields) :
    (w.pwrites fields).Ends Writer.Spared fun _ w' => w'.Unfaulted := by
  induction fields generalizing w with
  | nil => exact .done h
  | cons f fields ih =>
    obtain ⟨⟨hk, hk2⟩, hl⟩ := List.forall_mem_cons.mp hl
    exact (pwrite_ends h f.1 hk hk2).bind fun _ _ h1 => ih h1 hl

theorem putFields_ends (t : TagType) (width : Nat) {fields : List (Word × Nat)} (hl : LegalCounts fields) :
    (w.putFields t width fields).Ends Writer.Spared Writer.Spared :=
  (pwrites_ends h (List.forall_mem_append.mpr ⟨legalCounts_tagFields w.debug t width, hl⟩)).bind
    fun _ _ h1 => .done (h1.spared nofun)

/-- A command body on a sound, unfaulted writer. -/
theorem WriterBody.ends {body : Writer → Prim Writer Response} (hb : WriterBody body) :
    (body w).Ends Writer.Spared Writer.Spared := by
  cases hb with
  | rejectCount n => exact .raised (h.spared nofun)
  | unsigned t v hk hk2 =>
    simp only [putUnsigned_eq_putFields]
    exact putFields_ends h t _ (List.forall_mem_singleton.mpr ⟨hk, hk2⟩)
  | signed t v hk hk2 =>
    simp only [putSigned_eq_putFields]
    exact putFields_ends h t _ (legalCounts_signedFields v hk hk2)
  | double v =>
    simp only [putDouble_eq_putFields]
    exact putFields_ends h _ _ (by simp [LegalCounts])
  | tell => exact .done (h.spared nofun)
  | rewind p =>
    dsimp only
    split
    · exact .raised (h.spared nofun)
    · obtain ⟨w', e, -, -, -, -, hok, ⟨-, -, -, -, hf⟩, -⟩ := rewindTo_spec w p h.1 (by omega)
      rw [e]
      exact .done (Writer.Unfaulted.spared ⟨hok, hf.trans h.2⟩ nofun)
  | close =>
    obtain ⟨w', e, -, -, -, -, -, hf, -, -, -, hok, -⟩ := close_spec w h.1
    dsimp only
    rw [e]
    exact .done (Writer.Unfaulted.spared ⟨hok, hf.trans h.2⟩ nofun)
  | octets =>
    rw [octets_eq h.1]
    exact .done (h.spared nofun)

end

/-! ## Readers -/

/-- Neither the response nor the reader reports a violated accumulator invariant (60_exceptions.md R146). -/
abbrev Reader.Spared (resp : Response) (r : Reader) : Prop :=
  resp.status ≠ .faultAccumulatorInvariant ∧ r.fault ≠ 0x80#8

section
variable {r : Reader} (h : r.Open)
include h

theorem Reader.Open.spared {resp : Response} (hs : resp.status ≠ .faultAccumulatorInvariant) :
    Reader.Spared resp r := ⟨hs, by rw [h.2]; decide⟩

theorem pread_ends {k : Nat} (hk : 1 ≤ k) (hk2 : k ≤ 32) :
    (r.pread k).Ends Reader.Spared fun _ r' => r'.Open := by
  by_cases hb : k ≤ r.budget
  · obtain ⟨r', e, -, -, hok, -, -, -, hf⟩ := pread_spec r k h.1 hk hk2 hb
    rw [e]
    exact .done ⟨hok, hf.trans h.2⟩
  · rw [pread_eof r k (by omega)]
    exact .raised (Reader.Open.spared h nofun)

theorem preads_ends {ks : List Nat} (hl : LegalReads ks) :
    (r.preads ks).Ends Reader.Spared fun _ r' => r'.Open := by
  induction ks generalizing r with
  | nil => exact .done h
  | cons k ks ih =>
    obtain ⟨⟨hk, hk2⟩, hl⟩ := List.forall_mem_cons.mp hl
    exact (pread_ends h hk hk2).bind fun _ _ h1 => (ih h1 hl).bind fun _ _ h2 => .done h2

theorem compareTag_ends (t : TagType) (width : Nat) (observed : List Word) :
    (compareTag t width observed r).Ends Reader.Spared fun _ r' => r'.Open := by
  unfold compareTag
  split
  · split
    · exact .done h
    · exact .raised (Reader.Open.spared h nofun)
  · exact .done h

theorem checkTag_ends (t : TagType) (width : Nat) :
    (r.checkTag t width).Ends Reader.Spared fun _ r' => r'.Open := by
  rw [checkTag_eq_preads]
  exact (preads_ends h (legalReads_tagCounts r.debug)).bind fun xs _ h1 => compareTag_ends h1 t width xs

/-- A typed command answers OK when its reads succeed. -/
theorem getFields_ends (t : TagType) (width : Nat) {counts : List Nat} (hl : LegalReads counts)
    {answer : List Word → Response} (ha : ∀ xs, (answer xs).status = .ok) :
    (r.getFields t width counts answer).Ends Reader.Spared Reader.Spared :=
  (checkTag_ends h t width).bind fun _ _ h1 => (preads_ends h1 hl).bind fun xs _ h2 =>
    .done (Reader.Open.spared h2 (by rw [ha]; nofun))

/-- A command body on a sound, unfaulted reader. -/
theorem ReaderBody.ends {body : Reader → Prim Reader Response} (hb : ReaderBody body) :
    (body r).Ends Reader.Spared Reader.Spared := by
  cases hb with
  | rejectCount n => exact .raised (Reader.Open.spared h nofun)
  | unsigned t hk hk2 =>
    simp only [getUnsigned_eq_getFields]
    exact getFields_ends h t _ (List.forall_mem_singleton.mpr ⟨hk, hk2⟩) fun _ => rfl
  | signed t hk hk2 =>
    simp only [getSigned_eq_getFields]
    exact getFields_ends h t _
      (List.forall_mem_cons.mpr ⟨by decide, List.forall_mem_singleton.mpr (by omega)⟩) fun _ => rfl
  | double =>
    simp only [getDouble_eq_getFields]
    exact getFields_ends h _ _ (by decide) fun _ => rfl
  | tell => exact .done (Reader.Open.spared h nofun)

end

/-! ## Copies -/

/-- Neither the response of a copy nor its units report a violated accumulator invariant. -/
abbrev CopySpared (resp : Response) (u : Writer × Reader) : Prop :=
  resp.status ≠ .faultAccumulatorInvariant ∧ u.1.fault ≠ 0x80#8 ∧ u.2.fault ≠ 0x80#8

/-- The units of a copy that goes on. -/
abbrev CopyGoesOn (u : Writer × Reader) : Prop := u.1.Unfaulted ∧ u.2.Open

section
variable {u : Writer × Reader} (h : CopyGoesOn u)
include h

theorem CopyGoesOn.spared {resp : Response} (hs : resp.status ≠ .faultAccumulatorInvariant) : CopySpared resp u :=
  ⟨hs, (h.1.spared hs).2, (Reader.Open.spared h.2 hs).2⟩

theorem copyChunk_ends {k : Nat} (hk : 1 ≤ k) (hk2 : k ≤ 32) :
    (copyChunk k u).Ends CopySpared fun _ u' => CopyGoesOn u' := by
  obtain ⟨hw, hr⟩ := h
  have hread : (primLift (fun r => (u.1, r)) (u.2.pread k)).Ends CopySpared fun _ u1 => CopyGoesOn u1 :=
    (pread_ends hr hk hk2).lift (fun _ _ hr1 => ⟨hr1.1, (hw.spared hr1.1).2, hr1.2⟩) fun _ _ hr1 => ⟨hw, hr1⟩
  refine hread.bind fun x u1 ⟨hw1, hr1⟩ => ?_
  exact (pwrite_ends hw1 x hk hk2).lift (fun _ _ hw2 => ⟨hw2.1, hw2.2, (Reader.Open.spared hr1 hw2.1).2⟩)
    fun _ _ hw2 => ⟨hw2, hr1⟩

theorem copyWords_ends (j : Nat) : (copyWords j u).Ends CopySpared fun _ u' => CopyGoesOn u' := by
  induction j generalizing u with
  | zero => exact .done h
  | succ j ih => exact (copyChunk_ends h (by decide) (by decide)).bind fun _ _ h1 => ih h1

theorem copyBits_ends (n : Nat) : (copyBits n u).Ends CopySpared CopySpared := by
  refine (copyWords_ends h _).bind fun _ _ h1 => ?_
  split
  · exact (copyChunk_ends h1 (by omega) (by omega)).bind fun _ _ h2 => .done (CopyGoesOn.spared h2 nofun)
  · exact .done (CopyGoesOn.spared h1 nofun)

end

end Sys2Proof.Machine
end

section
/-! No command of a sound system reports a violated accumulator invariant (O54): the prologues answer with other faults,
and behind them the bodies run on sound, unfaulted units. -/

namespace Sys2Proof.Machine

/-- `t` is `s` with one response that does not report a violated accumulator invariant, and no FAULT register of `t`
holds that fault's code but where it did in `s` (60_exceptions.md R146). -/
structure State.Spares (s t : State) : Prop where
  response : ∃ resp, t.transcript = .returned s.port resp :: s.transcript ∧
    resp.status ≠ .faultAccumulatorInvariant
  writers (id : Nat) (w' : Writer) : t.writer? id = some w' → w'.fault = 0x80#8 →
    ∃ w, s.writer? id = some w ∧ w.fault = 0x80#8
  readers (id : Nat) (r' : Reader) : t.reader? id = some r' → r'.fault = 0x80#8 →
    ∃ r, s.reader? id = some r ∧ r.fault = 0x80#8

/-! ## Updates of a system -/

section
variable {s t : State} {id : Nat}

theorem writers_spared_setWriter {w w' : Writer} (hw : s.writer? id = some w)
    (hf : w'.fault = 0x80#8 → w.fault = 0x80#8) (j : Nat) (u' : Writer) (hj : (s.setWriter id w').writer? j = some u')
    (hu' : u'.fault = 0x80#8) : ∃ u, s.writer? j = some u ∧ u.fault = 0x80#8 := by
  rw [State.writer?_setWriter] at hj
  split at hj
  · next hid =>
    cases hj
    exact ⟨w, hid ▸ hw, hf hu'⟩
  · exact ⟨u', hj, hu'⟩

theorem readers_spared_setReader {r r' : Reader} (hr : s.reader? id = some r)
    (hf : r'.fault = 0x80#8 → r.fault = 0x80#8) (j : Nat) (u' : Reader) (hj : (s.setReader id r').reader? j = some u')
    (hu' : u'.fault = 0x80#8) : ∃ u, s.reader? j = some u ∧ u.fault = 0x80#8 := by
  rw [State.reader?_setReader] at hj
  split at hj
  · next hid =>
    cases hj
    exact ⟨r, hid ▸ hr, hf hu'⟩
  · exact ⟨u', hj, hu'⟩

section
variable {resp : Response} (hs : resp.status ≠ .faultAccumulatorInvariant)
include hs

theorem State.spares_respond (s : State) : s.Spares (s.respond resp) :=
  ⟨⟨resp, rfl, hs⟩, fun _ w' hw' hf => ⟨w', hw', hf⟩, fun _ r' hr' hf => ⟨r', hr', hf⟩⟩

theorem State.spares_withWriter {w w' : Writer} (hw : s.writer? id = some w)
    (hf : w'.fault = 0x80#8 → w.fault = 0x80#8) : s.Spares (s.withWriter id w' resp) :=
  ⟨⟨resp, rfl, hs⟩, writers_spared_setWriter hw hf, fun _ r' hr' hf => ⟨r', hr', hf⟩⟩

theorem State.spares_withReader {r r' : Reader} (hr : s.reader? id = some r)
    (hf : r'.fault = 0x80#8 → r.fault = 0x80#8) : s.Spares (s.withReader id r' resp) :=
  ⟨⟨resp, rfl, hs⟩, fun _ w' hw' hf => ⟨w', hw', hf⟩, readers_spared_setReader hr hf⟩

theorem State.spares_withPair {rid : Nat} {w w' : Writer} {r r' : Reader} (hw : s.writer? id = some w)
    (hwf : w'.fault = 0x80#8 → w.fault = 0x80#8) (hr : s.reader? rid = some r)
    (hrf : r'.fault = 0x80#8 → r.fault = 0x80#8) : s.Spares (s.withPair id w' rid r' resp) :=
  ⟨⟨resp, rfl, hs⟩, writers_spared_setWriter hw hwf, readers_spared_setReader hr hrf⟩

end

/-! ## Commands -/

/-- A presented command reports the fault only if what stands behind its prologue does. -/
theorem present_spares {op : BitVec 8} {fw : Nat → Writer → Host.Outcome State Fault Refusal}
    {fr : Nat → Reader → Host.Outcome State Fault Refusal}
    (hfw : ∀ id w, s.AtWriter id w → w.fault = 0#8 → fw id w = .next t → s.Spares t)
    (hfr : ∀ id r, s.AtReader id r → r.fault = 0#8 → fr id r = .next t → s.Spares t)
    (h : present op s fw fr = .next t) : s.Spares t := by
  cases hport : s.port with
  | writer id =>
    cases hw : s.writer? id with
    | none => simp [present, hport, hw] at h
    | some w =>
      have hat : s.AtWriter id w := ⟨hport, hw⟩
      rw [present_writer op s id w hat] at h
      obtain ⟨-, e⟩ | ⟨-, -, e⟩ | ⟨-, -, -, -, e⟩ | ⟨hf, -, -, -, e⟩ := writer_prologue_cases w op <;> rw [e] at h
      · cases h; exact State.spares_withWriter (by nofun) hw fun e => e
      · cases h; exact State.spares_withWriter (by nofun) hw fun e => e
      · cases h; exact State.spares_withWriter (by nofun) hw (by simp)
      · exact hfw id w hat hf h
  | reader id =>
    cases hr : s.reader? id with
    | none => simp [present, hport, hr] at h
    | some r =>
      have hat : s.AtReader id r := ⟨hport, hr⟩
      rw [present_reader op s id r hat] at h
      obtain ⟨-, e⟩ | ⟨-, -, e⟩ | ⟨hf, -, e⟩ := reader_prologue_cases r op <;> rw [e] at h
      · cases h; exact State.spares_withReader (by nofun) hr fun e => e
      · cases h; exact State.spares_withReader (by nofun) hr fun e => e
      · exact hfr id r hat hf h

theorem answerIllegal_spares {op : BitVec 8} (h : answerIllegal op s = .next t) : s.Spares t := by
  cases h
  exact State.spares_respond (by nofun) s

theorem UnitMeaning.spares {m : State → Host.Outcome State Fault Refusal} (hm : UnitMeaning m) (hs : s.Ok)
    (h : m s = .next t) : s.Spares t := by
  cases hm with
  | writer op hb =>
    refine present_spares (fun id w hat hf hrun => ?_) (fun _ _ _ _ => answerIllegal_spares) h
    obtain ⟨resp, w', ⟨hst, hf'⟩, rfl⟩ := (hb.ends ⟨State.Ok.writer hs hat.2, hf⟩).finish_next hrun
    exact State.spares_withWriter hst hat.2 fun e => absurd e hf'
  | reader op hb =>
    refine present_spares (fun _ _ _ _ => answerIllegal_spares) (fun id r hat hf hrun => ?_) h
    obtain ⟨resp, r', ⟨hst, hf'⟩, rfl⟩ := (hb.ends ⟨State.Ok.reader hs hat.2, hf⟩).finish_next hrun
    exact State.spares_withReader hst hat.2 fun e => absurd e hf'
  | illegal op =>
    exact present_spares (fun _ _ _ _ => answerIllegal_spares) (fun _ _ _ _ => answerIllegal_spares) h

theorem copyFromPair_spares {n : Nat} {w : Writer} (hs : s.Ok) (hw : s.writer? id = some w) (hf : w.fault = 0#8)
    (h : copyFromPair n id w s = .next t) : s.Spares t := by
  unfold copyFromPair at h
  split at h
  · exact answerIllegal_spares h
  · split at h
    · cases h
    · next r hr =>
      split at h
      · cases h
        exact State.spares_respond (by nofun) s
      · next hrf =>
        have hu : CopyGoesOn (w, r) := ⟨⟨State.Ok.writer hs hw, hf⟩, State.Ok.reader hs hr, not_not.mp hrf⟩
        obtain ⟨resp, u, ⟨hst, hwf', hrf'⟩, rfl⟩ := (copyBits_ends hu n).finish_next h
        exact State.spares_withPair hst hw (fun e => absurd e hwf') hr fun e => absurd e hrf'

theorem runWord_spares {word : CommandWord} (hs : s.Ok) (h : runWord word s = .next t) : s.Spares t := by
  obtain hm | ⟨n, e⟩ := runWord_unitMeaning word
  · exact hm.spares hs h
  · exact present_spares (fun _ _ hat hf => copyFromPair_spares hs hat.2 hf) (fun _ _ _ _ => answerIllegal_spares)
      (e ▸ h)

end

/-- Settles O54: the step's one response is not the fault's, and no unit newly holds its code. -/
theorem accumulatorFaultIsUnreachable : Obligations.AccumulatorFaultIsUnreachable := by
  unfold Obligations.AccumulatorFaultIsUnreachable
  intro s t p word rest hs hin h
  rw [step_command hin] at h
  obtain ⟨⟨resp, htr, hst⟩, hwriters, hreaders⟩ := runWord_spares (s := s.take p rest) hs h
  refine ⟨fun q resp' more htr' _ => ?_, hwriters, hreaders⟩
  cases htr.symm.trans htr'
  exact hst

end Sys2Proof.Machine
end

section
/-! The reset: the state before the host acts (O50), and what a legal construction leaves of a writer (O14) and of a reader
(O15) and starts of a run (70_reset_and_hazards.md R162, R163, R169). -/

namespace Sys2Proof.Machine

/-! ## A construction as a step -/

section
variable {s : State} {id : Nat} {debug : Bool} {rest : List HostAction}

theorem step_constructWriter_legal {cap : Nat} {pair : Option Nat} {fill : List Byte}
    (hin : s.input = .constructWriter id cap debug pair fill :: rest) (hcap : cap % 4 = 0 ∧ cap ≤ 2 ^ 28)
    (hpair : ∀ rid, pair = some rid → (s.reader? rid).isSome = true) :
    step s = .next ((s.take s.port rest).addWriter id (Writer.construct cap debug pair fill)) :=
  (step_cons hin).trans (constructWriter_legal hcap hpair)

theorem step_constructReader_legal {len : Nat} {src : List Byte}
    (hin : s.input = .constructReader id len src debug :: rest) (hlen : len ≤ 2 ^ 32 - 1) :
    step s = .next ((s.take s.port rest).addReader id (Reader.construct len src debug)) :=
  (step_cons hin).trans (constructReader_legal hlen)

end

/-! ## The units and the observations after a construction -/

section
variable (s : State) (id j : Nat)

theorem State.writer?_addWriter (w : Writer) :
    (s.addWriter id w).writer? j = if j = id then some w else s.writer? j :=
  State.writer?_setWriter s id j w

theorem State.reader?_addReader (r : Reader) :
    (s.addReader id r).reader? j = if j = id then some r else s.reader? j :=
  State.reader?_setReader s id j r

theorem observation_addReader (r : Reader) : (s.addReader id r).observation (.reader id) = [] :=
  observation_startRun _ _

theorem observation_addReader_other (r : Reader) {q : Port} (hq : q ≠ .reader id) :
    (s.addReader id r).observation q = s.observation q := by
  rw [State.addReader, observation_startRun_other _ _ _ hq.symm, observation_congr (State.setReader_transcript s id r)]

end

/-- The fill is cut to the capacity, and a list's default past its end is what an unlisted byte reads as (log 3). -/
theorem readByte_construct (cap : Nat) (debug : Bool) (pair : Option Nat) (fill : List Byte) (a : Nat) :
    readByte (Writer.construct cap debug pair fill).buf a = if a < cap then fill.getD a 0#8 else 0#8 := by
  have hempty : readByte [] a = 0#8 := rfl
  rw [Writer.construct, readByte_fill, hempty, Nat.sub_zero, List.length_take]
  by_cases hcap : a < cap
  · by_cases hfill : a < fill.length
    · rw [if_pos (by omega), if_pos hcap, List.getD_eq_getElem?_getD, List.getElem?_take_of_lt hcap,
        List.getD_eq_getElem?_getD]
    · rw [if_neg (by omega), if_pos hcap, List.getD_eq_default _ _ (not_lt.mp hfill)]
  · rw [if_neg (by omega), if_neg hcap]

/-- Settles O14: the step leaves what `Writer.construct` gives. -/
theorem writerConstructionResets : Obligations.WriterConstructionResets := by
  unfold Obligations.WriterConstructionResets
  intro s id cap debug pair fill rest hin hmul hmax hpair
  refine ⟨_, Writer.construct cap debug pair fill, step_constructWriter_legal hin ⟨hmul, hmax⟩ hpair, ?_, rfl, rfl, rfl,
    rfl, rfl, rfl, rfl, rfl, rfl, readByte_construct cap debug pair fill, rfl, rfl, fun other hother => ?_, rfl⟩
  · rw [State.writer?_addWriter, if_pos rfl]
  · rw [State.writer?_addWriter, if_neg hother, State.writer?_take]

/-- Settles O15: the step leaves what `Reader.construct` gives, and a run that starts there. -/
theorem readerConstructionResets : Obligations.ReaderConstructionResets := by
  unfold Obligations.ReaderConstructionResets
  intro s id len src debug rest hin hlen
  refine ⟨_, Reader.construct len src debug, step_constructReader_legal hin hlen, ?_, rfl, rfl, rfl, rfl, rfl, rfl, rfl,
    rfl, rfl, rfl, rfl, rfl, fun other hother => ?_, rfl, observation_addReader _ _ _, fun q hq => ?_⟩
  · rw [State.reader?_addReader, if_pos rfl]
  · rw [State.reader?_addReader, if_neg hother, State.reader?_take]
  · rw [observation_addReader_other _ _ _ hq, observation_congr (State.take_transcript s s.port rest)]

/-- Settles O50: an empty table is in canonical form, and no unit stands in it that could be unsound. -/
theorem resetStateIsSound : Obligations.ResetStateIsSound := by
  unfold Obligations.ResetStateIsSound
  exact ⟨rfl, rfl, List.forall_mem_nil _, List.forall_mem_nil _⟩

end Sys2Proof.Machine
end
